-- ==== Sys2Proof/Word.lean ====
section
/-! DEFINITION. The word types of the CHIP-8 core: bytes, 16-bit words, register numbers and keys
(spec 10_state.md R20, R22, R24, R30). -/

namespace Sys2Proof

/-- One 8-bit cell: a general register, a memory cell, a timer (R20, R29, R50). -/
abbrev Byte := BitVec 8

/-- A 16-bit value: PC, I, a return-stack entry, an instruction word (R22, R24, R25, R70). -/
abbrev Word := BitVec 16

/-- The number of a general register V0..VF (R20). -/
abbrev Reg := Fin 16

/-- A key value 0..15 (R30). -/
abbrev Key := Fin 16

/-- The flag register VF (R21). -/
abbrev regF : Reg := 15

/-- The register BNNN reads implicitly (R104). -/
abbrev reg0 : Reg := 0

end Sys2Proof
end

