-- ==== Sys2Proof/Config.lean ====
section
/-! DEFINITION. The named configuration parameters of 00_scope.md R7, as data a machine carries unchanged, and the free
values (opaque constants with no body: nothing can be proved about the value of one). -/

namespace Sys2Proof

/-- FLAG_ORDER (R120, D6): which write VF keeps when X = 0xF in 8XY4-8XYE. -/
inductive FlagOrder where
  | flagLast
  | flagAny
  deriving DecidableEq, Repr

/-- SHIFT_SOURCE (R129, R131, D8): the register 8XY6 and 8XYE shift. -/
inductive ShiftSource where
  | vx
  | vy
  deriving DecidableEq, Repr

/-- DRAW_OOB_SCOPE (R174, D13): which off-screen pixels of a sprite fault. -/
inductive DrawOobScope where
  | box
  | setBits
  deriving DecidableEq, Repr

/-- RESET_REGS (R36, R38, D19): what V0..VF and I are at reset. -/
inductive ResetRegs where
  | zero
  | unwritten
  deriving DecidableEq, Repr

/-- ROM_OVERSIZE (R64, R65, D34): what the boot does with a ROM longer than 3584 bytes. -/
inductive RomOversize where
  | truncate
  | refuse
  deriving DecidableEq, Repr

/-- FONT (R58): 80 bytes, glyph d at 5*d .. 5*d+4. -/
abbrev Font := Vector Byte 80

/-- The configuration parameters of R7. -/
structure Config where
  font : Font
  soundChannelCapacity : Nat
  flagOrder : FlagOrder
  shiftSource : ShiftSource
  decodeStrict : Bool
  drawOobScope : DrawOobScope
  memIncrementsI : Bool
  resetRegs : ResetRegs
  romOversize : RomOversize
  deriving DecidableEq, Repr

/-- R58's default FONT, one line a glyph (log 18). -/
def Config.conventionalFont : Font :=
  #v[0xF0, 0x90, 0x90, 0x90, 0xF0,
     0x20, 0x60, 0x20, 0x20, 0x70,
     0xF0, 0x10, 0xF0, 0x80, 0xF0,
     0xF0, 0x10, 0xF0, 0x10, 0xF0,
     0x90, 0x90, 0xF0, 0x10, 0x10,
     0xF0, 0x80, 0xF0, 0x10, 0xF0,
     0xF0, 0x80, 0xF0, 0x90, 0xF0,
     0xF0, 0x10, 0x20, 0x40, 0x40,
     0xF0, 0x90, 0xF0, 0x90, 0xF0,
     0xF0, 0x90, 0xF0, 0x10, 0xF0,
     0xF0, 0x90, 0xF0, 0x90, 0x90,
     0xE0, 0x90, 0xE0, 0x90, 0xE0,
     0xF0, 0x80, 0x80, 0x80, 0xF0,
     0xE0, 0x90, 0x90, 0x90, 0xE0,
     0xF0, 0x80, 0xF0, 0x80, 0xF0,
     0xF0, 0x80, 0xF0, 0x80, 0x80]

/-- SOUND_CHANNEL_CAPACITY, which the spec leaves OPEN with no default (R7, D22): a free value (log 4). -/
opaque Config.openSoundCapacity : Nat

/-- The byte of the k-th draw of the random generator (R134): a free value for every k (log 5). -/
opaque Config.rand8 : Nat → Byte

/-- The byte VF takes under `FLAG_ORDER = flag_any` when X = 0xF (R120): a free value for every draw (log 5). -/
opaque Config.flagByte : Nat → Byte

/-- R7's defaults. -/
def Config.default : Config where
  font := Config.conventionalFont
  soundChannelCapacity := Config.openSoundCapacity
  flagOrder := .flagLast
  shiftSource := .vx
  decodeStrict := true
  drawOobScope := .box
  memIncrementsI := false
  resetRegs := .zero
  romOversize := .truncate

end Sys2Proof
end

