-- ==== Sys2Proof/Machine/State.lean ====
section
/-! DEFINITION. The machine's state (10_state.md), the reasons a step stops, and the state after reset (R36-R44). -/

namespace Sys2Proof.Machine

/-- A register an instruction takes a snapshot of (R12): V0..VF or I. -/
inductive RegName where
  | v (r : Reg)
  | i
  deriving DecidableEq, Repr

/-- The complete list of faults (R213), each with the information R213 records. A fault is terminal for the core (R212).
Raising one is a NEXT state whose `coreMode` is `faulted` (R211, log 2); a core step of that mode answers `Outcome.fault`. -/
inductive Fault where
  /-- Code 1: a byte address outside 0..4095. Raised by the fetch, DXYN, FX33, FX55 and FX65. Safe: the source gives such an
  access no value (D3). -/
  | memRange (addr : Nat) (pc : Word)
  /-- Code 2: a push with 16 entries in use. Raised by 2NNN. Safe (D16). -/
  | stackOverflow (pc : Word)
  /-- Code 3: a pop with the stack empty. Raised by 00EE. Safe (D16). -/
  | stackUnderflow (pc : Word)
  /-- Code 4: a sprite pixel off the screen. Raised by DXYN. Safe (D13). -/
  | drawRange (x y : Nat) (pc : Word)
  /-- Code 5: a read of a register not yet written, only under `RESET_REGS = unwritten`. Raised by every instruction that
  takes a snapshot. Safe (D19). -/
  | unwrittenRead (reg : RegName) (pc : Word)
  deriving DecidableEq, Repr

/-- The steps and inputs the model has no move for. None is an instruction's: `exec` answers a next state for every
instruction. -/
inductive Refusal where
  /-- An arm of `exec` without a meaning; no arm of this model uses it. Safe. -/
  | notModelled (mnemonic : String)
  /-- A core step while the core is held in FX0A: it has no step (R222, R232). Raised by `coreStep`. Safe (log 3). -/
  | coreHeld
  /-- A core step after the core stopped on cancellation: it has no step (R222, R240). Raised by `coreStep`. Safe (log 3). -/
  | coreStopped
  /-- A timer tick that is not enabled: the timer is stopped or a sample is pending (R225). Raised by `timerTick`. Safe (log 3). -/
  | timerTickNotEnabled
  /-- A sample hand-off that is not enabled: nothing pending, the channel full, or a rendezvous that only the sink can make
  (R226). Raised by `handOff`. Safe (log 3). -/
  | handOffNotEnabled
  /-- A receive that is not enabled: nothing to receive (R227). Raised by `sinkReceive`. Safe (log 3). -/
  | sinkReceiveNotEnabled
  /-- `KeyPressed(k)` with k > 15: the host has no such move (R235, U18). Raised by `keyPressed`. Safe (log 15). -/
  | keyOutOfRange
  /-- A key event after cancellation: the host has no such move (R235). Raised by `keyPressed` and `clearKeys`. Safe (log 15). -/
  | keyAfterCancel
  /-- A second cancel: the canceller has no such move (R234, R235). Raised by `cancel`. Safe (log 15). -/
  | secondCancel
  /-- A ROM longer than 3584 bytes under `ROM_OVERSIZE = refuse` (R65). Raised by `boot`. Safe. -/
  | romTooLong
  deriving DecidableEq, Repr

/-- `core_mode` (R33). The two FX0A modes also hold the register the held instruction names, since the completing step does
not fetch (R193, R222; log 7). -/
inductive CoreMode where
  | running
  | heldKey (x : Reg)
  | wakeKey (x : Reg) (k : Key)
  | faulted (f : Fault)
  | stopped
  deriving DecidableEq, Repr

/-- A step of one agent (R220, R221). `keyPressed` takes any number, since R235 refuses values above 15. -/
inductive AgentStep where
  | core
  | timerTick
  | handOff
  | sinkReceive
  | keyPressed (k : Nat)
  | clearKeys
  | cancel
  deriving DecidableEq, Repr

/-- Memory: (address, byte) pairs in the canonical form of `Memory.wf` (Machine/Ops.lean). -/
abbrev Memory := List Host.Cell

/-- The 2048 one-bit cells FB[0..2047]; cell idx is bit idx (R28, log 12). -/
abbrev FrameBuffer := BitVec 2048

/-- All the state of the block. -/
structure State where
  /-- R7's parameters: no step changes them (log 6). -/
  config : Config
  /-- V0..VF (R20). -/
  v : Vector Byte 16
  /-- I (R24). -/
  i : Word
  /-- PC (R22, log 10). -/
  pc : Word
  /-- S[0..15] (R25). -/
  stack : Vector Word 16
  /-- Len() = SP + 1 (R25, log 11). -/
  depth : Fin 17
  /-- M[0..4095] (R50). -/
  mem : Memory
  /-- FB (R28). -/
  fb : FrameBuffer
  /-- DT (R29). -/
  dt : Byte
  /-- ST (R29). -/
  st : Byte
  /-- The last key pressed; none is NoKey (R30). -/
  latch : Option Key
  /-- The buffered wait token (R30). -/
  token : Option Key
  /-- The sample computed and not yet handed to the channel (R32). -/
  pending : Option Byte
  /-- The sound samples in the channel, oldest first (R32). -/
  chan : List Byte
  /-- R33. -/
  coreMode : CoreMode
  /-- R33. -/
  cancelled : Bool
  /-- R33. -/
  timerStopped : Bool
  /-- Which of V0..VF have not been written since a reset under `RESET_REGS = unwritten` (R36, log 9). -/
  unwrittenV : Vector Bool 16
  /-- Whether I has not been written since such a reset (R38, log 9). -/
  unwrittenI : Bool
  /-- The model's own: how many free values have been drawn (R134, log 5). -/
  freeIndex : Nat
  /-- The model's own: the Draw events so far, oldest first (R173, R236; log 13). -/
  drawLog : List FrameBuffer
  /-- The model's own: the Sample events so far, oldest first (R226, R236; log 13). -/
  sampleLog : List Byte
  /-- The model's own: which agents move next, first first; when it is empty the core moves (R221, log 1). -/
  schedule : List AgentStep
  deriving DecidableEq, Repr

/-- The state right after the boot under parameters `p` with an empty ROM (R36-R44). The stack entries, which R39 leaves
unspecified, are 0 (log 8). Under `RESET_REGS = unwritten` the spec gives V0..VF and I no value: the 0 beneath their marks is
a DESIGN CHOICE (log 24), which no read and no observation shows. -/
def State.resetWith (p : Config) : State where
  config := p
  v := Vector.replicate 16 0
  i := 0
  pc := 0x200
  stack := Vector.replicate 16 0
  depth := 0
  mem := []
  fb := 0
  dt := 0
  st := 0
  latch := none
  token := none
  pending := none
  chan := []
  coreMode := .running
  cancelled := false
  timerStopped := false
  unwrittenV := Vector.replicate 16 (p.resetRegs == .unwritten)
  unwrittenI := p.resetRegs == .unwritten
  freeIndex := 0
  drawLog := []
  sampleLog := []
  schedule := []

/-- The machine right after reset with R7's default parameters and no ROM. -/
def State.reset : State := State.resetWith Config.default

end Sys2Proof.Machine
end

