-- ==== Sys2Proof/Machine/Ops.lean ====
section
/-! DEFINITION. The named operations over registers, memory, the stack, the screen, the timers and the keyboard
(the primitives of R10), and the one operation that raises a fault (R211). A primitive that can fault answers
`Except Fault`; `State.settle` turns what an instruction computed into the outcome of its step. -/

namespace Sys2Proof.Machine

/-- What a step answers. -/
abbrev Result := Host.Outcome State Fault Refusal

/-- R213's code of a fault kind. -/
def Fault.code (f : Fault) : Nat :=
  match f with
  | .memRange _ _ => 1
  | .stackOverflow _ => 2
  | .stackUnderflow _ => 3
  | .drawRange _ _ _ => 4
  | .unwrittenRead _ _ => 5

/-- `raise Fault(kind, info)`: `core_mode <- Faulted(kind, info)` and nothing else (R211). -/
def State.raise (s : State) (f : Fault) : State := { s with coreMode := .faulted f }

/-- The end of an instruction that started in `s`: the state it computed, or the fault raised on `s` itself, so that no part
of a faulting instruction's effect remains (R211). -/
def State.settle (s : State) (r : Except Fault State) : Result :=
  match r with
  | .ok t => .next t
  | .error f => .next (s.raise f)

/-! ### Registers -/

/-- `V[r] <- b` (R10, R20); the register is written from now on (R36). -/
def State.setV (s : State) (r : Reg) (b : Byte) : State :=
  { s with v := s.v.set r b, unwrittenV := s.unwrittenV.set r false }

/-- `I <- w` (R10, R24); I is written from now on (R38). -/
def State.setI (s : State) (w : Word) : State := { s with i := w, unwrittenI := false }

/-- `pc <- target` (R10, R22). -/
def State.setPc (s : State) (w : Word) : State := { s with pc := w }

/-- `pc <- PC + 2` (R100). -/
def State.advance (s : State) : State := s.setPc (s.pc + 2)

/-- A skip: `pc <- PC + 4` when the condition holds, else `pc <- PC + 2` (R105-R108, R190, R191). -/
def State.skipIf (s : State) (c : Bool) : State := s.setPc (if c then s.pc + 4 else s.pc + 2)

/-! ### Memory -/

/-- What an address no cell is listed for reads as: the reset contents, the font at 0..79 and 0 elsewhere (R43, R57;
log 18). -/
def Memory.unlisted (font : Font) (a : Nat) : Byte := if h : a < 80 then font[a] else 0

/-- The byte at an address. -/
def Memory.read (font : Font) (m : Memory) (a : Nat) : Byte :=
  match m with
  | [] => Memory.unlisted font a
  | c :: rest => if c.1 = a then c.2 else Memory.read font rest a

/-- Memory with no cell listed for an address. -/
def Memory.erase (m : Memory) (a : Nat) : Memory := m.filter (fun c => c.1 != a)

/-- Memory with a cell put before the first higher address. -/
def Memory.insert (m : Memory) (a : Nat) (b : Byte) : Memory :=
  match m with
  | [] => [(a, b)]
  | c :: rest => if a < c.1 then (a, b) :: c :: rest else c :: Memory.insert rest a b

/-- Memory after a byte is written. Writing what an unlisted address reads as removes the entry, which keeps the canonical
form. -/
def Memory.write (font : Font) (m : Memory) (a : Nat) (b : Byte) : Memory :=
  if b = Memory.unlisted font a then Memory.erase m a else Memory.insert (Memory.erase m a) a b

/-- Addresses strictly rise along the list. -/
def Memory.rising (m : Memory) : Bool :=
  match m with
  | [] => true
  | c :: rest => rest.all (fun d => c.1 < d.1) && Memory.rising rest

/-- The canonical form: addresses strictly rising, all of them inside 0..4095 (R50), and no entry equal to what an unlisted
address reads as. -/
def Memory.wf (font : Font) (m : Memory) : Bool :=
  Memory.rising m && m.all (fun c => c.1 < 4096 && c.2 != Memory.unlisted font c.1)

/-- M[a], with no range check. -/
def State.byteAt (s : State) (a : Nat) : Byte := Memory.read s.config.font s.mem a

/-- M[a] <- b, with no range check. -/
def State.setByte (s : State) (a : Nat) (b : Byte) : State :=
  { s with mem := Memory.write s.config.font s.mem a b }

/-- M[a], M[a+1], ... <- the bytes in order, with no range check. -/
def State.storeBytes (s : State) (a : Nat) (bytes : List Byte) : State :=
  match bytes with
  | [] => s
  | b :: rest => State.storeBytes (s.setByte a b) (a + 1) rest

/-- `MemRead(a, 1)` (R51). -/
def State.memRead (s : State) (a : Nat) : Except Fault Byte :=
  if a ≤ 4095 then .ok (s.byteAt a) else .error (.memRange a s.pc)

/-- `MemWrite(a, 1, b)` (R52). -/
def State.memWrite (s : State) (a : Nat) (b : Byte) : Except Fault State :=
  if a ≤ 4095 then .ok (s.setByte a b) else .error (.memRange a s.pc)

/-- The lowest address outside 0..4095 among the `n` addresses from `a` (R149). -/
def firstOutOfRange (a n : Nat) : Option Nat := ((List.range n).map (a + ·)).find? (fun b => 4095 < b)

/-- R149: check every address of a transfer of `n` bytes from `a` before any state changes. -/
def State.checkRange (s : State) (a n : Nat) : Except Fault Unit :=
  match firstOutOfRange a n with
  | none => .ok ()
  | some b => .error (.memRange b s.pc)

/-- `FetchWord(pc)`: two bytes, big-endian (R54). -/
def State.fetchWord (s : State) : Except Fault Word := do
  let hi ← s.memRead s.pc.toNat
  let lo ← s.memRead (s.pc.toNat + 1)
  pure (hi ++ lo)

/-! ### Return stack -/

/-- SP, an integer in -1..15 (R25). -/
def State.sp (s : State) : Int := (s.depth.val : Int) - 1

/-- `StackPush(v)` (R26): a 17th push faults; otherwise increment the index, then store. -/
def State.push (s : State) (w : Word) : Except Fault State :=
  if h : s.depth.val < 16 then
    .ok { s with stack := s.stack.set s.depth.val w, depth := ⟨s.depth.val + 1, by omega⟩ }
  else .error (.stackOverflow s.pc)

/-- `StackPop()` (R27): a pop from empty faults; otherwise read, then decrement. The popped entry keeps its value. -/
def State.pop (s : State) : Except Fault (Word × State) :=
  if h : 0 < s.depth.val then
    .ok (s.stack[s.depth.val - 1], { s with depth := ⟨s.depth.val - 1, by omega⟩ })
  else .error (.stackUnderflow s.pc)

/-! ### Screen -/

/-- Frame-buffer cell `idx`, for 0 ≤ idx < 2048 (R28). -/
def FrameBuffer.cell (fb : FrameBuffer) (idx : Nat) : Bool := fb.getLsbD idx

/-- `FB[idx] <- FB[idx] ^ 1` (R171). -/
def FrameBuffer.flip (fb : FrameBuffer) (idx : Nat) : FrameBuffer := fb ^^^ BitVec.twoPow 2048 idx

/-- The cell of pixel (x, y): x + 64*y (R28, R172). -/
def cellIndex (x y : Nat) : Nat := x + 64 * y

/-- `emit Draw(FB)` (R173): the event carries a copy of the cells as they stand. -/
def State.emitDraw (s : State) : State := { s with drawLog := s.drawLog ++ [s.fb] }

/-! ### Timers (R224) -/

/-- `GetDelay()`. -/
def State.getDelay (s : State) : Byte := s.dt

/-- `SetDelay(b)`. -/
def State.setDelay (s : State) (b : Byte) : State := { s with dt := b }

/-- `GetSound()`: no instruction calls it. -/
def State.getSound (s : State) : Byte := s.st

/-- `SetSound(b)`. -/
def State.setSound (s : State) (b : Byte) : State := { s with st := b }

/-! ### Keyboard -/

/-- `IsKeyPressed(b)`: `latch = b`, false when the latch is NoKey or b > 15 (R229). -/
def State.isKeyPressed (s : State) (b : Byte) : Bool :=
  match s.latch with
  | some k => k.val == b.toNat
  | none => false

/-- A key value as a register holds it (R193). -/
def keyByte (k : Key) : Byte := BitVec.ofNat 8 k.val

/-! ### Free values -/

/-- `rand8()`: the next free byte (R134), and the state with that draw taken. -/
def State.rand8 (s : State) : Byte × State := (Config.rand8 s.freeIndex, { s with freeIndex := s.freeIndex + 1 })

/-- The unconstrained draw of `FLAG_ORDER = flag_any` (R120), and the state with that draw taken. -/
def State.drawFlagByte (s : State) : Byte × State :=
  (Config.flagByte s.freeIndex, { s with freeIndex := s.freeIndex + 1 })

end Sys2Proof.Machine
end

