-- ==== Sys2Proof/Machine/Agents.lean ====
section
/-! DEFINITION. The steps of the agents beside the core: the timer, the keyboard host, the audio sink and the canceller
(60_exceptions.md R225-R231, R234, R235). A step that is not enabled is refused by name. -/

namespace Sys2Proof.Machine

/-- A counter one tick later: down by 1, floor at 0 (R225). -/
def tickDown (b : Byte) : Byte := if b = 0 then 0 else b - 1

/-- The timer observes cancellation: it stops, and a pending sample is dropped with no event (R225, R226, R234). -/
def State.stopTimer (s : State) : State := { s with timerStopped := true, pending := none }

/-- `TimerTick` (R225): enabled when the timer is not stopped and no sample is pending. -/
def timerTick (s : State) : Result :=
  if s.timerStopped || s.pending.isSome then .refused .timerTickNotEnabled
  else if s.cancelled then .next s.stopTimer
  else .next { s with dt := tickDown s.dt, st := tickDown s.st, pending := some (tickDown s.st) }

/-- The sample hand-off (R226), as a step of the timer alone. With capacity 0 it happens only as the sink's receive. -/
def handOff (s : State) : Result :=
  match s.pending with
  | none => .refused .handOffNotEnabled
  | some b =>
    if s.cancelled then .next s.stopTimer
    else if s.chan.length < s.config.soundChannelCapacity then
      .next { s with chan := s.chan ++ [b], pending := none, sampleLog := s.sampleLog ++ [b] }
    else .refused .handOffNotEnabled

/-- The audio sink's receive (R227): the oldest sample of the channel, or, with capacity 0, the joint step with the
hand-off (R226), in which the timer's half observes cancellation first (log 14). -/
def sinkReceive (s : State) : Result :=
  match s.chan, s.pending with
  | _ :: rest, _ => .next { s with chan := rest }
  | [], some b =>
    if s.config.soundChannelCapacity = 0 then
      if s.cancelled then .next s.stopTimer
      else .next { s with pending := none, sampleLog := s.sampleLog ++ [b] }
    else .refused .sinkReceiveNotEnabled
  | [], none => .refused .sinkReceiveNotEnabled

/-- `KeyPressed(k)` (R228): the key goes to the held core (the token untouched: log 20), else into the token. k > 15 and a press after cancellation are
no moves of the host (R235). -/
def keyPressed (k : Nat) (s : State) : Result :=
  if s.cancelled then .refused .keyAfterCancel
  else if h : k < 16 then
    let key : Key := ⟨k, h⟩
    match s.coreMode with
    | .heldKey x => .next { s with latch := some key, coreMode := .wakeKey x key }
    | _ => .next { s with latch := some key, token := some key }
  else .refused .keyOutOfRange

/-- `Clear()` (R231): a key already handed to a held core is not taken back. -/
def clearKeys (s : State) : Result :=
  if s.cancelled then .refused .keyAfterCancel
  else .next { s with latch := none, token := none }

/-- Cancellation (R234): at most once in a run. -/
def cancel (s : State) : Result :=
  if s.cancelled then .refused .secondCancel else .next { s with cancelled := true }

end Sys2Proof.Machine
end

