-- ==== Sys2Proof/Syntax.lean ====
section
/-! DEFINITION. The instructions: one constructor per row of spec/opcode_table.json, in the table's order.
The operands are the fields of R70: `x`, `y` register numbers, `nn` a byte, `nnn` a 12-bit address, `n` a row count. -/

namespace Sys2Proof

/-- An instruction of the opcode table (30_encoding.md section 6). -/
inductive Instr where
  /-- 00E0 CLS, R170 -/
  | cls
  /-- 00EE RET, R101 -/
  | ret
  /-- 1NNN JP NNN, R102 -/
  | jp (nnn : BitVec 12)
  /-- 2NNN CALL NNN, R103 -/
  | call (nnn : BitVec 12)
  /-- 3XNN SE Vx, NN, R105 -/
  | seImm (x : Reg) (nn : Byte)
  /-- 4XNN SNE Vx, NN, R106 -/
  | sneImm (x : Reg) (nn : Byte)
  /-- 5XY0 SE Vx, Vy, R107 -/
  | seReg (x y : Reg)
  /-- 6XNN LD Vx, NN, R121 -/
  | ldImm (x : Reg) (nn : Byte)
  /-- 7XNN ADD Vx, NN, R122 -/
  | addImm (x : Reg) (nn : Byte)
  /-- 8XY0 LD Vx, Vy, R123 -/
  | ldReg (x y : Reg)
  /-- 8XY1 OR Vx, Vy, R124 -/
  | orReg (x y : Reg)
  /-- 8XY2 AND Vx, Vy, R125 -/
  | andReg (x y : Reg)
  /-- 8XY3 XOR Vx, Vy, R126 -/
  | xorReg (x y : Reg)
  /-- 8XY4 ADD Vx, Vy, R127 -/
  | addReg (x y : Reg)
  /-- 8XY5 SUB Vx, Vy, R128 -/
  | subReg (x y : Reg)
  /-- 8XY6 SHR Vx, R129 -/
  | shr (x y : Reg)
  /-- 8XY7 SUBN Vx, Vy, R130 -/
  | subn (x y : Reg)
  /-- 8XYE SHL Vx, R131 -/
  | shl (x y : Reg)
  /-- 9XY0 SNE Vx, Vy, R108 -/
  | sneReg (x y : Reg)
  /-- ANNN LD I, NNN, R150 -/
  | ldI (nnn : BitVec 12)
  /-- BNNN JP V0, NNN, R104 -/
  | jpV0 (nnn : BitVec 12)
  /-- CXNN RND Vx, NN, R133 -/
  | rnd (x : Reg) (nn : Byte)
  /-- DXYN DRW Vx, Vy, N, R171 -/
  | drw (x y : Reg) (n : BitVec 4)
  /-- EX9E SKP Vx, R190 -/
  | skp (x : Reg)
  /-- EXA1 SKNP Vx, R191 -/
  | sknp (x : Reg)
  /-- FX07 LD Vx, DT, R192 -/
  | ldVxDT (x : Reg)
  /-- FX0A LD Vx, K, R193 -/
  | ldVxK (x : Reg)
  /-- FX15 LD DT, Vx, R194 -/
  | ldDTVx (x : Reg)
  /-- FX18 LD ST, Vx, R195 -/
  | ldSTVx (x : Reg)
  /-- FX1E ADD I, Vx, R151 -/
  | addIVx (x : Reg)
  /-- FX29 LD F, Vx, R152 -/
  | ldFVx (x : Reg)
  /-- FX33 LD B, Vx, R153 -/
  | ldBVx (x : Reg)
  /-- FX55 LD [I], Vx, R154 -/
  | storeRegs (x : Reg)
  /-- FX65 LD Vx, [I], R155 -/
  | loadRegs (x : Reg)
  /-- UNKNOWN: the word no other row matches, R75 -/
  | unknown (op : Word)
  deriving DecidableEq, Repr

end Sys2Proof
end

