-- ==== Sys2Proof/WellFormed.lean ====
section
/-! DEFINITION. Well-formed instructions. The operand types already hold every operand to its field's width
(R70), so the one check left is that UNKNOWN carries a word no row of the table takes (R76, R77). -/

namespace Sys2Proof

/-- R76: the complete list of UNKNOWN words under `DECODE_STRICT = true`, and, with `strict = false`, that list less
the words R77 gives to CLS, RET, SE and SNE. -/
def isUnknownWord (strict : Bool) (op : Word) : Bool :=
  let w := op.toNat
  let t := w / 0x1000
  let n := w % 0x10
  let nn := w % 0x100
  (t == 0x0 && (if strict then w != 0x00E0 && w != 0x00EE else nn != 0xE0 && nn != 0xEE)) ||
  (t == 0x5 && strict && n != 0) ||
  (t == 0x8 && [0x8, 0x9, 0xA, 0xB, 0xC, 0xD, 0xF].contains n) ||
  (t == 0x9 && strict && n != 0) ||
  (t == 0xE && !([0x9E, 0xA1].contains nn)) ||
  (t == 0xF && !([0x07, 0x0A, 0x15, 0x18, 0x1E, 0x29, 0x33, 0x55, 0x65].contains nn))

/-- The instruction is one the decoder can answer under this strictness. -/
def Instr.wellFormed (strict : Bool) (i : Instr) : Bool :=
  match i with
  | .cls => true
  | .ret => true
  | .jp _ => true
  | .call _ => true
  | .seImm _ _ => true
  | .sneImm _ _ => true
  | .seReg _ _ => true
  | .ldImm _ _ => true
  | .addImm _ _ => true
  | .ldReg _ _ => true
  | .orReg _ _ => true
  | .andReg _ _ => true
  | .xorReg _ _ => true
  | .addReg _ _ => true
  | .subReg _ _ => true
  | .shr _ _ => true
  | .subn _ _ => true
  | .shl _ _ => true
  | .sneReg _ _ => true
  | .ldI _ => true
  | .jpV0 _ => true
  | .rnd _ _ => true
  | .drw _ _ _ => true
  | .skp _ => true
  | .sknp _ => true
  | .ldVxDT _ => true
  | .ldVxK _ => true
  | .ldDTVx _ => true
  | .ldSTVx _ => true
  | .addIVx _ => true
  | .ldFVx _ => true
  | .ldBVx _ => true
  | .storeRegs _ => true
  | .loadRegs _ => true
  | .unknown op => isUnknownWord strict op

end Sys2Proof
end

