-- ==== Sys2Proof/Decode.lean ====
section
/-! DEFINITION. The decoder (R73, R77), the opcode table as mask and pattern rows (R74), and the encoder (R70, R71). -/

namespace Sys2Proof

/-- T, the primary opcode: op[15:12] (R70). -/
def fieldT (op : Word) : BitVec 4 := op.extractLsb' 12 4

/-- X, the first register number: op[11:8] (R70). -/
def fieldX (op : Word) : Reg := (op.extractLsb' 8 4).toFin

/-- Y, the second register number: op[7:4] (R70). -/
def fieldY (op : Word) : Reg := (op.extractLsb' 4 4).toFin

/-- N, the low nibble: op[3:0] (R70). -/
def fieldN (op : Word) : BitVec 4 := op.extractLsb' 0 4

/-- NN, the low byte: op[7:0] (R70). -/
def fieldNN (op : Word) : Byte := op.extractLsb' 0 8

/-- NNN, the address: op[11:0] (R70). -/
def fieldNNN (op : Word) : BitVec 12 := op.extractLsb' 0 12

/-- Top nibble 0 (R73): the word is fixed whole; under `DECODE_STRICT = false` the X nibble is ignored (R77). -/
def decodeSys (strict : Bool) (op : Word) : Instr :=
  if strict then
    if op.toNat = 0x00E0 then .cls
    else if op.toNat = 0x00EE then .ret
    else .unknown op
  else
    if (fieldNN op).toNat = 0xE0 then .cls
    else if (fieldNN op).toNat = 0xEE then .ret
    else .unknown op

/-- Top nibble 8 (R73): the low nibble is the sub-opcode. -/
def decodeAlu (op : Word) : Instr :=
  match (fieldN op).toNat with
  | 0x0 => .ldReg (fieldX op) (fieldY op)
  | 0x1 => .orReg (fieldX op) (fieldY op)
  | 0x2 => .andReg (fieldX op) (fieldY op)
  | 0x3 => .xorReg (fieldX op) (fieldY op)
  | 0x4 => .addReg (fieldX op) (fieldY op)
  | 0x5 => .subReg (fieldX op) (fieldY op)
  | 0x6 => .shr (fieldX op) (fieldY op)
  | 0x7 => .subn (fieldX op) (fieldY op)
  | 0xE => .shl (fieldX op) (fieldY op)
  | _ => .unknown op

/-- Top nibble E (R73): the low byte is the sub-opcode. -/
def decodeKey (op : Word) : Instr :=
  match (fieldNN op).toNat with
  | 0x9E => .skp (fieldX op)
  | 0xA1 => .sknp (fieldX op)
  | _ => .unknown op

/-- Top nibble F (R73): the low byte is the sub-opcode. -/
def decodeMisc (op : Word) : Instr :=
  match (fieldNN op).toNat with
  | 0x07 => .ldVxDT (fieldX op)
  | 0x0A => .ldVxK (fieldX op)
  | 0x15 => .ldDTVx (fieldX op)
  | 0x18 => .ldSTVx (fieldX op)
  | 0x1E => .addIVx (fieldX op)
  | 0x29 => .ldFVx (fieldX op)
  | 0x33 => .ldBVx (fieldX op)
  | 0x55 => .storeRegs (fieldX op)
  | 0x65 => .loadRegs (fieldX op)
  | _ => .unknown op

/-- R73, with `strict` for DECODE_STRICT (R77): every word decodes to exactly one instruction or to UNKNOWN.
The last arm is the top nibble F. -/
def decodeWord (strict : Bool) (op : Word) : Instr :=
  match (fieldT op).toNat with
  | 0x0 => decodeSys strict op
  | 0x1 => .jp (fieldNNN op)
  | 0x2 => .call (fieldNNN op)
  | 0x3 => .seImm (fieldX op) (fieldNN op)
  | 0x4 => .sneImm (fieldX op) (fieldNN op)
  | 0x5 => if (fieldN op).toNat = 0 ∨ strict = false then .seReg (fieldX op) (fieldY op) else .unknown op
  | 0x6 => .ldImm (fieldX op) (fieldNN op)
  | 0x7 => .addImm (fieldX op) (fieldNN op)
  | 0x8 => decodeAlu op
  | 0x9 => if (fieldN op).toNat = 0 ∨ strict = false then .sneReg (fieldX op) (fieldY op) else .unknown op
  | 0xA => .ldI (fieldNNN op)
  | 0xB => .jpV0 (fieldNNN op)
  | 0xC => .rnd (fieldX op) (fieldNN op)
  | 0xD => .drw (fieldX op) (fieldY op) (fieldN op)
  | 0xE => decodeKey op
  | _ => decodeMisc op

/-- The big-endian word of two bytes (R54): the first byte holds bits 15..8. -/
def wordOfBytes (hi lo : Byte) : Word := hi ++ lo

/-- The first byte of a word in memory (R54). -/
def highByte (op : Word) : Byte := op.extractLsb' 8 8

/-- The second byte of a word in memory (R54). -/
def lowByte (op : Word) : Byte := op.extractLsb' 0 8

/-- Why a byte sequence is no instruction: the one reason is that it ends too soon (R70, R74). -/
inductive DecodeError where
  /-- fewer than the 2 bytes of an instruction are left -/
  | truncated
  deriving DecidableEq, Repr

/-- Decode the instruction at the front of a byte sequence and return the bytes after it (R70, R73). -/
def decode (strict : Bool) (bytes : List Byte) : Except DecodeError (Instr × List Byte) :=
  match bytes with
  | hi :: lo :: rest => .ok (decodeWord strict (wordOfBytes hi lo), rest)
  | _ => .error .truncated

/-- A word of four nibbles, first nibble highest (R70). -/
def ofNibbles (a b c d : BitVec 4) : Word := a ++ b ++ c ++ d

/-- Format ADDR of R71. -/
def formatAddr (t : BitVec 4) (nnn : BitVec 12) : Word := t ++ nnn

/-- Format REG_IMM of R71. -/
def formatRegImm (t : BitVec 4) (x : Reg) (nn : Byte) : Word := t ++ BitVec.ofFin (w := 4) x ++ nn

/-- Formats REG_REG and REG_REG_N of R71; the last nibble is a sub-opcode, 0, or the row count. -/
def formatRegReg (t : BitVec 4) (x y : Reg) (n : BitVec 4) : Word :=
  ofNibbles t (BitVec.ofFin (w := 4) x) (BitVec.ofFin (w := 4) y) n

/-- Format REG_SUB of R71: the low byte is the sub-opcode. -/
def formatRegSub (t : BitVec 4) (x : Reg) (sub : Byte) : Word := t ++ BitVec.ofFin (w := 4) x ++ sub

/-- The word of an instruction, from the patterns of 30_encoding.md section 6. -/
def encode (i : Instr) : Word :=
  match i with
  | .cls => 0x00E0
  | .ret => 0x00EE
  | .jp nnn => formatAddr 0x1 nnn
  | .call nnn => formatAddr 0x2 nnn
  | .seImm x nn => formatRegImm 0x3 x nn
  | .sneImm x nn => formatRegImm 0x4 x nn
  | .seReg x y => formatRegReg 0x5 x y 0x0
  | .ldImm x nn => formatRegImm 0x6 x nn
  | .addImm x nn => formatRegImm 0x7 x nn
  | .ldReg x y => formatRegReg 0x8 x y 0x0
  | .orReg x y => formatRegReg 0x8 x y 0x1
  | .andReg x y => formatRegReg 0x8 x y 0x2
  | .xorReg x y => formatRegReg 0x8 x y 0x3
  | .addReg x y => formatRegReg 0x8 x y 0x4
  | .subReg x y => formatRegReg 0x8 x y 0x5
  | .shr x y => formatRegReg 0x8 x y 0x6
  | .subn x y => formatRegReg 0x8 x y 0x7
  | .shl x y => formatRegReg 0x8 x y 0xE
  | .sneReg x y => formatRegReg 0x9 x y 0x0
  | .ldI nnn => formatAddr 0xA nnn
  | .jpV0 nnn => formatAddr 0xB nnn
  | .rnd x nn => formatRegImm 0xC x nn
  | .drw x y n => formatRegReg 0xD x y n
  | .skp x => formatRegSub 0xE x 0x9E
  | .sknp x => formatRegSub 0xE x 0xA1
  | .ldVxDT x => formatRegSub 0xF x 0x07
  | .ldVxK x => formatRegSub 0xF x 0x0A
  | .ldDTVx x => formatRegSub 0xF x 0x15
  | .ldSTVx x => formatRegSub 0xF x 0x18
  | .addIVx x => formatRegSub 0xF x 0x1E
  | .ldFVx x => formatRegSub 0xF x 0x29
  | .ldBVx x => formatRegSub 0xF x 0x33
  | .storeRegs x => formatRegSub 0xF x 0x55
  | .loadRegs x => formatRegSub 0xF x 0x65
  | .unknown op => op

/-- The two bytes of an instruction as memory holds them (R54, R70). -/
def encodeBytes (i : Instr) : List Byte := [highByte (encode i), lowByte (encode i)]

/-- One row of spec/opcode_table.json: a word is the row's when `word &&& mask = pattern`. -/
structure OpcodeRow where
  mnemonic : String
  mask : Word
  pattern : Word
  deriving DecidableEq, Repr

/-- The rows of top nibbles 0 to 7. -/
def opcodeRowsLow : List OpcodeRow :=
  [⟨"CLS", 0xFFFF, 0x00E0⟩, ⟨"RET", 0xFFFF, 0x00EE⟩, ⟨"JP_NNN", 0xF000, 0x1000⟩, ⟨"CALL_NNN", 0xF000, 0x2000⟩,
   ⟨"SE_Vx__NN", 0xF000, 0x3000⟩, ⟨"SNE_Vx__NN", 0xF000, 0x4000⟩, ⟨"SE_Vx__Vy", 0xF00F, 0x5000⟩,
   ⟨"LD_Vx__NN", 0xF000, 0x6000⟩, ⟨"ADD_Vx__NN", 0xF000, 0x7000⟩]

/-- The rows of top nibbles 8 to D. -/
def opcodeRowsMid : List OpcodeRow :=
  [⟨"LD_Vx__Vy", 0xF00F, 0x8000⟩, ⟨"OR_Vx__Vy", 0xF00F, 0x8001⟩, ⟨"AND_Vx__Vy", 0xF00F, 0x8002⟩,
   ⟨"XOR_Vx__Vy", 0xF00F, 0x8003⟩, ⟨"ADD_Vx__Vy", 0xF00F, 0x8004⟩, ⟨"SUB_Vx__Vy", 0xF00F, 0x8005⟩,
   ⟨"SHR_Vx____Vy", 0xF00F, 0x8006⟩, ⟨"SUBN_Vx__Vy", 0xF00F, 0x8007⟩, ⟨"SHL_Vx____Vy", 0xF00F, 0x800E⟩,
   ⟨"SNE_Vx__Vy", 0xF00F, 0x9000⟩, ⟨"LD_I__NNN", 0xF000, 0xA000⟩, ⟨"JP_V0__NNN", 0xF000, 0xB000⟩,
   ⟨"RND_Vx__NN", 0xF000, 0xC000⟩, ⟨"DRW_Vx__Vy__N", 0xF000, 0xD000⟩]

/-- The rows of top nibbles E and F. -/
def opcodeRowsHigh : List OpcodeRow :=
  [⟨"SKP_Vx", 0xF0FF, 0xE09E⟩, ⟨"SKNP_Vx", 0xF0FF, 0xE0A1⟩, ⟨"LD_Vx__DT", 0xF0FF, 0xF007⟩,
   ⟨"LD_Vx__K", 0xF0FF, 0xF00A⟩, ⟨"LD_DT__Vx", 0xF0FF, 0xF015⟩, ⟨"LD_ST__Vx", 0xF0FF, 0xF018⟩,
   ⟨"ADD_I__Vx", 0xF0FF, 0xF01E⟩, ⟨"LD_F__Vx", 0xF0FF, 0xF029⟩, ⟨"LD_B__Vx", 0xF0FF, 0xF033⟩,
   ⟨"LD__I___Vx", 0xF0FF, 0xF055⟩, ⟨"LD_Vx___I", 0xF0FF, 0xF065⟩]

/-- The 34 instruction rows of the opcode table (R2, R74); UNKNOWN is what none of them takes. -/
def opcodeTable : List OpcodeRow := opcodeRowsLow ++ opcodeRowsMid ++ opcodeRowsHigh

/-- The word is one of the row's words under strict decoding (R73). -/
def OpcodeRow.takes (row : OpcodeRow) (op : Word) : Bool := op &&& row.mask == row.pattern

/-- The name an instruction's row has in spec/opcode_table.json. -/
def mnemonicOf (i : Instr) : String :=
  match i with
  | .cls => "CLS"
  | .ret => "RET"
  | .jp _ => "JP_NNN"
  | .call _ => "CALL_NNN"
  | .seImm _ _ => "SE_Vx__NN"
  | .sneImm _ _ => "SNE_Vx__NN"
  | .seReg _ _ => "SE_Vx__Vy"
  | .ldImm _ _ => "LD_Vx__NN"
  | .addImm _ _ => "ADD_Vx__NN"
  | .ldReg _ _ => "LD_Vx__Vy"
  | .orReg _ _ => "OR_Vx__Vy"
  | .andReg _ _ => "AND_Vx__Vy"
  | .xorReg _ _ => "XOR_Vx__Vy"
  | .addReg _ _ => "ADD_Vx__Vy"
  | .subReg _ _ => "SUB_Vx__Vy"
  | .shr _ _ => "SHR_Vx____Vy"
  | .subn _ _ => "SUBN_Vx__Vy"
  | .shl _ _ => "SHL_Vx____Vy"
  | .sneReg _ _ => "SNE_Vx__Vy"
  | .ldI _ => "LD_I__NNN"
  | .jpV0 _ => "JP_V0__NNN"
  | .rnd _ _ => "RND_Vx__NN"
  | .drw _ _ _ => "DRW_Vx__Vy__N"
  | .skp _ => "SKP_Vx"
  | .sknp _ => "SKNP_Vx"
  | .ldVxDT _ => "LD_Vx__DT"
  | .ldVxK _ => "LD_Vx__K"
  | .ldDTVx _ => "LD_DT__Vx"
  | .ldSTVx _ => "LD_ST__Vx"
  | .addIVx _ => "ADD_I__Vx"
  | .ldFVx _ => "LD_F__Vx"
  | .ldBVx _ => "LD_B__Vx"
  | .storeRegs _ => "LD__I___Vx"
  | .loadRegs _ => "LD_Vx___I"
  | .unknown _ => "UNKNOWN"

/-- The instruction the decoder reads from a table word: `w` is the 16-bit word, bit 0 its least significant bit; the
bits above `nbits` are 0. Its two bytes are laid out big-endian (R54) and given to `decode` with R7's default strictness. -/
def decodeTableWord (nbits w : Nat) : Option Instr :=
  if nbits ≤ 16 then
    let op : Word := BitVec.ofNat 16 (w % 2 ^ nbits)
    match decode Config.default.decodeStrict [highByte op, lowByte op] with
    | .ok (i, _) => some i
    | .error _ => none
  else none

end Sys2Proof
end

