-- ==== Sys2Proof/Machine/Operands.lean ====
section
/-! DEFINITION. The operand forms: register snapshots (R12) with the UNWRITTEN_READ check (R36, R215), zero-extended
immediates and addresses (R72), I-indexed addresses (R156), the shift operand (R129, R131), register blocks (R154, R155). -/

namespace Sys2Proof.Machine

/-- V[r] is unwritten, which can be only under `RESET_REGS = unwritten` (R36). -/
def State.unwrittenReg (s : State) (r : Reg) : Bool := s.config.resetRegs == .unwritten && s.unwrittenV[r]

/-- I is unwritten, which can be only under `RESET_REGS = unwritten` (R38). -/
def State.unwrittenIndex (s : State) : Bool := s.config.resetRegs == .unwritten && s.unwrittenI

/-- R215 step 3: the lowest-numbered unwritten V register among those the instruction takes a snapshot of, then I. -/
def State.firstUnwritten (s : State) (vs : List Reg) (usesI : Bool) : Option RegName :=
  match (List.finRange 16).find? (fun r => vs.contains r && s.unwrittenReg r) with
  | some r => some (.v r)
  | none => if usesI && s.unwrittenIndex then some .i else none

/-- R12 and R36: take the snapshots of the registers `vs`, and of I when `usesI`; a register not yet written faults. -/
def State.snapshot (s : State) (vs : List Reg) (usesI : Bool) : Except Fault Unit :=
  match s.firstUnwritten vs usesI with
  | none => .ok ()
  | some r => .error (.unwrittenRead r s.pc)

/-- NNN zero-extended to 16 bits (R72). -/
def addressOf (nnn : BitVec 12) : Word := nnn.setWidth 16

/-- BNNN's target `V0 + NNN`: at most 0x10FE, so exact in 16 bits (R72, R104). -/
def offsetTarget (v0 : Byte) (nnn : BitVec 12) : Word := v0.setWidth 16 + nnn.setWidth 16

/-- The effective address `I + k`, exact (R51, R156). -/
def State.effectiveAddr (s : State) (k : Nat) : Nat := s.i.toNat + k

/-- The register 8XY6 and 8XYE shift: Vx, or Vy under `SHIFT_SOURCE = vy` (R129, R131). -/
def State.shiftReg (s : State) (x y : Reg) : Reg :=
  match s.config.shiftSource with
  | .vx => x
  | .vy => y

/-- The registers V0..Vx (R154, R155). -/
def blockRegs (x : Reg) : List Reg := (List.finRange 16).take (x.val + 1)

/-- The bytes of V0..Vx in order (R154). -/
def State.blockBytes (s : State) (x : Reg) : List Byte := (blockRegs x).map (fun r => s.v[r])

/-- `V[k] <- M[a + k]` for k = 0..X (R155). -/
def State.loadBlock (s : State) (a : Nat) (x : Reg) : State :=
  (blockRegs x).foldl (fun t r => t.setV r (s.byteAt (a + r.val))) s

/-- `if MEM_INCREMENTS_I then I <- (i0 + X + 1) mod 65536`, with i0 the I of the state (R154, R155). -/
def State.bumpI (s : State) (x : Reg) : State :=
  if s.config.memIncrementsI then s.setI (s.i + BitVec.ofNat 16 (x.val + 1)) else s

/-- The decimal digits of a byte: hundreds, tens, ones (R153). -/
def decimalDigits (b : Byte) : List Byte :=
  [BitVec.ofNat 8 (b.toNat / 100), BitVec.ofNat 8 (b.toNat / 10 % 10), BitVec.ofNat 8 (b.toNat % 10)]

end Sys2Proof.Machine
end

