-- ==== Sys2Proof/Machine/Flags.lean ====
section
/-! DEFINITION. Every flag computation: the carry, the no-borrow, the bit shifted out, FX1E's range flag, and the order in
which a result and its flag are written (R120). DXYN's collision is in Display.lean. -/

namespace Sys2Proof.Machine

/-- A flag as VF holds it: 1 or 0. -/
def flagValue (c : Bool) : Byte := if c then 1 else 0

/-- 8XY4: `1 if vy > 255 - vx else 0` (R127). -/
def carryFlag (vx vy : Byte) : Bool := 255 - vx.toNat < vy.toNat

/-- 8XY5: NOT borrow of `a - b`: `0 if b > a else 1` (R128); 8XY7 uses it with the operands swapped (R130). -/
def noBorrowFlag (a b : Byte) : Bool := !(a.toNat < b.toNat)

/-- 8XY6: the least significant bit before the shift (R129). -/
def lowBitFlag (b : Byte) : Bool := b.getLsbD 0

/-- 8XYE: bit 7 before the shift (R131). -/
def highBitFlag (b : Byte) : Bool := b.getLsbD 7

/-- FX1E: the new I exceeds 0xFFF (R151). -/
def rangeFlag (w : Word) : Bool := 0xFFF < w.toNat

/-- R120: `V[X] <- result`, then `V[15] <- flag`; under `FLAG_ORDER = flag_any` and X = 0xF, VF is instead an
unconstrained draw. -/
def State.writeResultAndFlag (s : State) (x : Reg) (result : Byte) (flag : Bool) : State :=
  let t := s.setV x result
  match s.config.flagOrder with
  | .flagLast => t.setV regF (flagValue flag)
  | .flagAny => if x = regF then t.drawFlagByte.2.setV regF t.drawFlagByte.1 else t.setV regF (flagValue flag)

end Sys2Proof.Machine
end

