-- ==== Sys2Proof/Machine/Alu.lean ====
section
/-! DEFINITION. Register loads, the ALU and the random byte (41_alu.md). -/

namespace Sys2Proof.Machine

/-- 6XNN, R121. -/
def execLdImm (x : Reg) (nn : Byte) (s : State) : Result := s.settle (.ok (s.setV x nn).advance)

/-- 7XNN, R122. -/
def execAddImm (x : Reg) (nn : Byte) (s : State) : Result := s.settle do
  s.snapshot [x] false
  pure (s.setV x (s.v[x] + nn)).advance

/-- 8XY0, R123. -/
def execLdReg (x y : Reg) (s : State) : Result := s.settle do
  s.snapshot [y] false
  pure (s.setV x s.v[y]).advance

/-- 8XY1, R124. -/
def execOrReg (x y : Reg) (s : State) : Result := s.settle do
  s.snapshot [x, y] false
  pure (s.setV x (s.v[x] ||| s.v[y])).advance

/-- 8XY2, R125. -/
def execAndReg (x y : Reg) (s : State) : Result := s.settle do
  s.snapshot [x, y] false
  pure (s.setV x (s.v[x] &&& s.v[y])).advance

/-- 8XY3, R126. -/
def execXorReg (x y : Reg) (s : State) : Result := s.settle do
  s.snapshot [x, y] false
  pure (s.setV x (s.v[x] ^^^ s.v[y])).advance

/-- 8XY4, R127. -/
def execAddReg (x y : Reg) (s : State) : Result := s.settle do
  s.snapshot [x, y] false
  pure (s.writeResultAndFlag x (s.v[x] + s.v[y]) (carryFlag s.v[x] s.v[y])).advance

/-- 8XY5, R128. -/
def execSubReg (x y : Reg) (s : State) : Result := s.settle do
  s.snapshot [x, y] false
  pure (s.writeResultAndFlag x (s.v[x] - s.v[y]) (noBorrowFlag s.v[x] s.v[y])).advance

/-- 8XY6, R129. -/
def execShr (x y : Reg) (s : State) : Result := s.settle do
  s.snapshot [s.shiftReg x y] false
  let b := s.v[s.shiftReg x y]
  pure (s.writeResultAndFlag x (b >>> 1) (lowBitFlag b)).advance

/-- 8XY7, R130. -/
def execSubn (x y : Reg) (s : State) : Result := s.settle do
  s.snapshot [x, y] false
  pure (s.writeResultAndFlag x (s.v[y] - s.v[x]) (noBorrowFlag s.v[y] s.v[x])).advance

/-- 8XYE, R131. -/
def execShl (x y : Reg) (s : State) : Result := s.settle do
  s.snapshot [s.shiftReg x y] false
  let b := s.v[s.shiftReg x y]
  pure (s.writeResultAndFlag x (b <<< 1) (highBitFlag b)).advance

/-- CXNN, R133. -/
def execRnd (x : Reg) (nn : Byte) (s : State) : Result :=
  s.settle (.ok (s.rand8.2.setV x (s.rand8.1 &&& nn)).advance)

end Sys2Proof.Machine
end

