-- ==== Sys2Proof/Machine/Display.lean ====
section
/-! DEFINITION. The display: clear and the XOR blitter (43_display.md). -/

namespace Sys2Proof.Machine

/-- One pixel of a sprite drawn somewhere: its exact coordinates, which may be off the screen, and its sprite bit. -/
structure Pixel where
  x : Nat
  y : Nat
  on : Bool
  deriving DecidableEq, Repr

/-- Off the screen: `x > 63` or `y > 31` (R174). -/
def Pixel.offScreen (p : Pixel) : Bool := 63 < p.x || 31 < p.y

/-- The eight pixels of a sprite row at (x0, y): bit 7 is the leftmost (R172). -/
def rowPixels (x0 y : Nat) (row : Byte) : List Pixel :=
  (List.range 8).map (fun c => ⟨x0 + c, y, row.getLsbD (7 - c)⟩)

/-- All pixels of a sprite at (x0, y0), in row-major order (R172, R174). -/
def spritePixels (x0 y0 : Nat) (rows : List Byte) : List Pixel :=
  match rows with
  | [] => []
  | row :: rest => rowPixels x0 y0 row ++ spritePixels x0 (y0 + 1) rest

/-- Whether R174 faults: some pixel is off the screen, and has its bit set when the scope is `set_bits`. -/
def faultsOffScreen (scope : DrawOobScope) (ps : List Pixel) : Bool :=
  ps.any (fun p => p.offScreen && (scope == .box || p.on))

/-- The pixel R174 reports where it faults: in both scopes the first pixel off the screen, in row-major order, whatever its
bit (R174, R213). -/
def firstOffScreen (scope : DrawOobScope) (ps : List Pixel) : Option Pixel :=
  if faultsOffScreen scope ps then ps.find? Pixel.offScreen else none

/-- R174's check. -/
def State.checkOnScreen (s : State) (ps : List Pixel) : Except Fault Unit :=
  match firstOffScreen s.config.drawOobScope ps with
  | none => .ok ()
  | some p => .error (.drawRange p.x p.y s.pc)

/-- One step of R171's loop: a pixel whose bit is 1 flips its cell, and an on cell is a collision. -/
def blitPixel (acc : FrameBuffer × Bool) (p : Pixel) : FrameBuffer × Bool :=
  if p.on then
    (acc.1.flip (cellIndex p.x p.y), acc.2 || acc.1.cell (cellIndex p.x p.y))
  else acc

/-- R171's loops over the pixels: the new frame buffer, and whether any pixel that was on was turned off. -/
def blit (fb : FrameBuffer) (ps : List Pixel) : FrameBuffer × Bool := ps.foldl blitPixel (fb, false)

/-- The sprite's N bytes at `I .. I+N-1` (R53, R171). -/
def State.spriteRows (s : State) (n : Nat) : List Byte :=
  (List.range n).map (fun r => s.byteAt (s.effectiveAddr r))

/-- 00E0, R170. -/
def execCls (s : State) : Result := s.settle (.ok ({ s with fb := 0 } : State).emitDraw.advance)

/-- DXYN, R171: the memory check comes before the screen check, and both before any change. -/
def execDrw (x y : Reg) (n : BitVec 4) (s : State) : Result := s.settle do
  s.snapshot [x, y] true
  s.checkRange (s.effectiveAddr 0) n.toNat
  let ps := spritePixels s.v[x].toNat s.v[y].toNat (s.spriteRows n.toNat)
  s.checkOnScreen ps
  let r := blit s.fb ps
  pure ((({ s with fb := r.1 } : State).setV regF (flagValue r.2)).emitDraw).advance

end Sys2Proof.Machine
end

