-- ==== Sys2Proof/Machine/Flow.lean ====
section
/-! DEFINITION. Control transfer and skips (40_flow.md), and the UNKNOWN word (30_encoding.md R75). -/

namespace Sys2Proof.Machine

/-- 00EE, R101. -/
def execRet (s : State) : Result := s.settle do
  let (target, t) ← s.pop
  pure (t.setPc target)

/-- 1NNN, R102. -/
def execJp (nnn : BitVec 12) (s : State) : Result := s.settle (.ok (s.setPc (addressOf nnn)))

/-- 2NNN, R103: the pushed value is `PC + 2` (C1). -/
def execCall (nnn : BitVec 12) (s : State) : Result := s.settle do
  let t ← s.push (s.pc + 2)
  pure (t.setPc (addressOf nnn))

/-- BNNN, R104: the register is always V0. -/
def execJpV0 (nnn : BitVec 12) (s : State) : Result := s.settle do
  s.snapshot [reg0] false
  pure (s.setPc (offsetTarget s.v[reg0] nnn))

/-- 3XNN, R105. -/
def execSeImm (x : Reg) (nn : Byte) (s : State) : Result := s.settle do
  s.snapshot [x] false
  pure (s.skipIf (s.v[x] == nn))

/-- 4XNN, R106: it skips when the two differ (C5). -/
def execSneImm (x : Reg) (nn : Byte) (s : State) : Result := s.settle do
  s.snapshot [x] false
  pure (s.skipIf (s.v[x] != nn))

/-- 5XY0, R107. -/
def execSeReg (x y : Reg) (s : State) : Result := s.settle do
  s.snapshot [x, y] false
  pure (s.skipIf (s.v[x] == s.v[y]))

/-- 9XY0, R108. -/
def execSneReg (x y : Reg) (s : State) : Result := s.settle do
  s.snapshot [x, y] false
  pure (s.skipIf (s.v[x] != s.v[y]))

/-- UNKNOWN, R75: a no-op that advances the PC; the log line is not architectural (log 16). -/
def execUnknown (_op : Word) (s : State) : Result := s.settle (.ok s.advance)

end Sys2Proof.Machine
end

