-- ==== Sys2Proof/Machine/IndexMemory.lean ====
section
/-! DEFINITION. The index register and the memory transfers (42_index_memory.md). -/

namespace Sys2Proof.Machine

/-- ANNN, R150. -/
def execLdI (nnn : BitVec 12) (s : State) : Result := s.settle (.ok (s.setI (addressOf nnn)).advance)

/-- FX1E, R151: the sum wraps at 16 bits and VF tests the wrapped result. -/
def execAddIVx (x : Reg) (s : State) : Result := s.settle do
  s.snapshot [x] true
  let w := s.i + s.v[x].setWidth 16
  pure ((s.setI w).setV regF (flagValue (rangeFlag w))).advance

/-- FX29, R152: all of Vx is multiplied, with no masking. -/
def execLdFVx (x : Reg) (s : State) : Result := s.settle do
  s.snapshot [x] false
  pure (s.setI (BitVec.ofNat 16 (s.v[x].toNat * 5))).advance

/-- FX33, R153. -/
def execLdBVx (x : Reg) (s : State) : Result := s.settle do
  s.snapshot [x] true
  s.checkRange (s.effectiveAddr 0) 3
  pure (s.storeBytes (s.effectiveAddr 0) (decimalDigits s.v[x])).advance

/-- FX55, R154. -/
def execStoreRegs (x : Reg) (s : State) : Result := s.settle do
  s.snapshot (blockRegs x) true
  s.checkRange (s.effectiveAddr 0) (x.val + 1)
  pure ((s.storeBytes (s.effectiveAddr 0) (s.blockBytes x)).bumpI x).advance

/-- FX65, R155. -/
def execLoadRegs (x : Reg) (s : State) : Result := s.settle do
  s.snapshot [] true
  s.checkRange (s.effectiveAddr 0) (x.val + 1)
  pure ((s.loadBlock (s.effectiveAddr 0) x).bumpI x).advance

end Sys2Proof.Machine
end

