-- ==== Sys2Proof/Machine/KeysTimers.lean ====
section
/-! DEFINITION. The keyboard and timer instructions (44_keys_timers.md). -/

namespace Sys2Proof.Machine

/-- EX9E, R190. -/
def execSkp (x : Reg) (s : State) : Result := s.settle do
  s.snapshot [x] false
  pure (s.skipIf (s.isKeyPressed s.v[x]))

/-- EXA1, R191. -/
def execSknp (x : Reg) (s : State) : Result := s.settle do
  s.snapshot [x] false
  pure (s.skipIf (!s.isKeyPressed s.v[x]))

/-- FX07, R192. -/
def execLdVxDT (x : Reg) (s : State) : Result := s.settle (.ok (s.setV x s.getDelay).advance)

/-- FX0A, R193: a key handed to the held core completes it; else a buffered token does (R230); else the core is held with
the PC at this instruction. -/
def execLdVxK (x : Reg) (s : State) : Result := s.settle
  (match s.coreMode, s.token with
   | .wakeKey _ k, _ => .ok (({ s with coreMode := .running } : State).setV x (keyByte k)).advance
   | _, some k => .ok (({ s with token := none } : State).setV x (keyByte k)).advance
   | _, none => .ok { s with coreMode := .heldKey x })

/-- FX15, R194. -/
def execLdDTVx (x : Reg) (s : State) : Result := s.settle do
  s.snapshot [x] false
  pure (s.setDelay s.v[x]).advance

/-- FX18, R195. -/
def execLdSTVx (x : Reg) (s : State) : Result := s.settle do
  s.snapshot [x] false
  pure (s.setSound s.v[x]).advance

end Sys2Proof.Machine
end

