-- ==== Sys2Proof/Machine/Schedule.lean ====
section
/-! DEFINITION. The core's step (R222) and the step of any agent (R220, R221). -/

namespace Sys2Proof.Machine

/-- `CoreStep` (R222). A core that is held, faulted or stopped has no step. -/
def coreStep (s : State) : Result :=
  match s.coreMode with
  | .wakeKey x _ => exec (.ldVxK x) s
  | .running =>
    if s.cancelled then .next { s with coreMode := .stopped }
    else
      match s.fetchWord with
      | .ok op => exec (decodeWord s.config.decodeStrict op) s
      | .error f => .next (s.raise f)
  | .heldKey _ => .refused .coreHeld
  | .faulted f => .fault f
  | .stopped => .refused .coreStopped

/-- The step of one agent (R220). -/
def agentStep (a : AgentStep) (s : State) : Result :=
  match a with
  | .core => coreStep s
  | .timerTick => timerTick s
  | .handOff => handOff s
  | .sinkReceive => sinkReceive s
  | .keyPressed k => keyPressed k s
  | .clearKeys => clearKeys s
  | .cancel => cancel s

/-- The agent whose turn it is, and the state with that turn taken off the schedule; the core when nothing is scheduled
(R221, log 1). -/
def State.takeTurn (s : State) : AgentStep × State :=
  match s.schedule with
  | [] => (.core, s)
  | a :: rest => (a, { s with schedule := rest })

/-- A PC the fetch succeeds at: both bytes lie inside memory (R54). -/
def fetchable (pc : Word) : Bool := pc.toNat ≤ 4094

/-- `s` with the core about to fetch: running, not cancelled, its own turn, and the PC at a fetchable address, the reset
vector where it is not (log 17). -/
def State.aboutToFetch (s : State) : State :=
  { s with
    coreMode := .running
    cancelled := false
    schedule := []
    pc := if fetchable s.pc then s.pc else 0x200 }

/-- The word stored big-endian at the PC (R54). -/
def State.placeWord (s : State) (op : Word) : State := s.storeBytes s.pc.toNat [highByte op, lowByte op]

end Sys2Proof.Machine
end

