-- ==== Sys2Proof/Machine/Step.lean ====
section
/-! DEFINITION. The machine's step (R221), and the placing of an instruction where the step fetches. -/

namespace Sys2Proof.Machine

/-- One step: of the agent whose turn it is. -/
def step (s : State) : Host.Outcome State Fault Refusal := agentStep s.takeTurn.1 s.takeTurn.2

/-- `s` with the instruction of a table word (bits above `nbits` 0) stored where the next step fetches it. -/
def State.withFetchWord (s : State) (nbits w : Nat) : State :=
  s.aboutToFetch.placeWord (BitVec.ofNat 16 (w % 2 ^ nbits))

end Sys2Proof.Machine
end

