-- ==== Sys2Proof/Machine/Boot.lean ====
section
/-! DEFINITION. The boot sequence (R250): memory with its font, the ROM image, then every other reset value. -/

namespace Sys2Proof.Machine

/-- The most bytes of a ROM that fit: 4096 - 512 (R6). -/
def romMax : Nat := 3584

/-- `InitMemory()` (R250 step 1): zero, with the font at 0..79. This is what memory with no cell listed reads as. -/
def State.initMemory (s : State) : State := { s with mem := [] }

/-- `LoadMemory(bytes)` (R64): byte k goes to 512 + k while that is at most 4095; the rest is not written. -/
def State.loadMemory (s : State) (rom : List Byte) : State := s.storeBytes 512 (rom.take romMax)

/-- A session's start (R250) under parameters `p` with the ROM image `rom`; `ROM_OVERSIZE = refuse` refuses one that is
too long (R65). -/
def boot (p : Config) (rom : List Byte) : Result :=
  if p.romOversize = .refuse ∧ romMax < rom.length then .refused .romTooLong
  else .next ((State.resetWith p).initMemory.loadMemory rom)

end Sys2Proof.Machine
end

