-- ==== Sys2Proof/Safety.lean ====
section
/-! DEFINITION. The terms statements are written in: readable operands (R36), what an instruction leaves unchanged, when an
agent's step is enabled (R220-R231), runs and their end (R221, R236), fairness (R237), and the machine's invariant. -/

namespace Sys2Proof.Machine

/-! ### Operands -/

/-- Every register of `vs`, and I when `usesI`, may be read: always under `RESET_REGS = zero`, and otherwise when each has
been written (R36, R38). -/
abbrev State.Readable (s : State) (vs : List Reg) (usesI : Bool) : Prop :=
  s.config.resetRegs = .zero ∨ ((∀ r ∈ vs, s.unwrittenV[r] = false) ∧ (usesI = true → s.unwrittenI = false))

/-- The V registers an instruction takes a snapshot of (R12), rule by rule. -/
def snapshotRegs (p : Config) (i : Instr) : List Reg :=
  match i with
  | .cls => []
  | .ret => []
  | .jp _ => []
  | .call _ => []
  | .seImm x _ => [x]
  | .sneImm x _ => [x]
  | .seReg x y => [x, y]
  | .ldImm _ _ => []
  | .addImm x _ => [x]
  | .ldReg _ y => [y]
  | .orReg x y => [x, y]
  | .andReg x y => [x, y]
  | .xorReg x y => [x, y]
  | .addReg x y => [x, y]
  | .subReg x y => [x, y]
  | .shr x y => if p.shiftSource = .vx then [x] else [y]
  | .subn x y => [x, y]
  | .shl x y => if p.shiftSource = .vx then [x] else [y]
  | .sneReg x y => [x, y]
  | .ldI _ => []
  | .jpV0 _ => [0]
  | .rnd _ _ => []
  | .drw x y _ => [x, y]
  | .skp x => [x]
  | .sknp x => [x]
  | .ldVxDT _ => []
  | .ldVxK _ => []
  | .ldDTVx x => [x]
  | .ldSTVx x => [x]
  | .addIVx x => [x]
  | .ldFVx x => [x]
  | .ldBVx x => [x]
  | .storeRegs x => (List.finRange 16).filter (· ≤ x)
  | .loadRegs _ => []
  | .unknown _ => []

/-- Whether an instruction takes a snapshot of I (R12, R24). -/
def snapshotsI (i : Instr) : Bool :=
  match i with
  | .cls => false
  | .ret => false
  | .jp _ => false
  | .call _ => false
  | .seImm _ _ => false
  | .sneImm _ _ => false
  | .seReg _ _ => false
  | .ldImm _ _ => false
  | .addImm _ _ => false
  | .ldReg _ _ => false
  | .orReg _ _ => false
  | .andReg _ _ => false
  | .xorReg _ _ => false
  | .addReg _ _ => false
  | .subReg _ _ => false
  | .shr _ _ => false
  | .subn _ _ => false
  | .shl _ _ => false
  | .sneReg _ _ => false
  | .ldI _ => false
  | .jpV0 _ => false
  | .rnd _ _ => false
  | .drw _ _ _ => true
  | .skp _ => false
  | .sknp _ => false
  | .ldVxDT _ => false
  | .ldVxK _ => false
  | .ldDTVx _ => false
  | .ldSTVx _ => false
  | .addIVx _ => true
  | .ldFVx _ => false
  | .ldBVx _ => true
  | .storeRegs _ => true
  | .loadRegs _ => true
  | .unknown _ => false

/-- The V registers a completed instruction may write (R21), rule by rule. -/
def writtenRegs (i : Instr) : List Reg :=
  match i with
  | .cls => []
  | .ret => []
  | .jp _ => []
  | .call _ => []
  | .seImm _ _ => []
  | .sneImm _ _ => []
  | .seReg _ _ => []
  | .ldImm x _ => [x]
  | .addImm x _ => [x]
  | .ldReg x _ => [x]
  | .orReg x _ => [x]
  | .andReg x _ => [x]
  | .xorReg x _ => [x]
  | .addReg x _ => [x, regF]
  | .subReg x _ => [x, regF]
  | .shr x _ => [x, regF]
  | .subn x _ => [x, regF]
  | .shl x _ => [x, regF]
  | .sneReg _ _ => []
  | .ldI _ => []
  | .jpV0 _ => []
  | .rnd x _ => [x]
  | .drw _ _ _ => [regF]
  | .skp _ => []
  | .sknp _ => []
  | .ldVxDT x => [x]
  | .ldVxK x => [x]
  | .ldDTVx _ => []
  | .ldSTVx _ => []
  | .addIVx _ => [regF]
  | .ldFVx _ => []
  | .ldBVx _ => []
  | .storeRegs _ => []
  | .loadRegs x => (List.finRange 16).filter (· ≤ x)
  | .unknown _ => []

/-- Whether a completed instruction writes I (R24): ANNN, FX1E, FX29, and FX55 and FX65 where `MEM_INCREMENTS_I` says so. -/
def writesI (p : Config) (i : Instr) : Bool :=
  match i with
  | .cls => false
  | .ret => false
  | .jp _ => false
  | .call _ => false
  | .seImm _ _ => false
  | .sneImm _ _ => false
  | .seReg _ _ => false
  | .ldImm _ _ => false
  | .addImm _ _ => false
  | .ldReg _ _ => false
  | .orReg _ _ => false
  | .andReg _ _ => false
  | .xorReg _ _ => false
  | .addReg _ _ => false
  | .subReg _ _ => false
  | .shr _ _ => false
  | .subn _ _ => false
  | .shl _ _ => false
  | .sneReg _ _ => false
  | .ldI _ => true
  | .jpV0 _ => false
  | .rnd _ _ => false
  | .drw _ _ _ => false
  | .skp _ => false
  | .sknp _ => false
  | .ldVxDT _ => false
  | .ldVxK _ => false
  | .ldDTVx _ => false
  | .ldSTVx _ => false
  | .addIVx _ => true
  | .ldFVx _ => true
  | .ldBVx _ => false
  | .storeRegs _ => p.memIncrementsI
  | .loadRegs _ => p.memIncrementsI
  | .unknown _ => false

/-! ### Frames -/

/-- What an instruction may change, beside the PC. Everything not named is unchanged. -/
structure Footprint where
  /-- V registers -/
  regs : List Reg := []
  index : Bool := false
  stack : Bool := false
  /-- the stored bytes: how many from which address -/
  bytes : Option (Nat × Nat) := none
  /-- FB and the Draw events -/
  screen : Bool := false
  delay : Bool := false
  sound : Bool := false
  token : Bool := false
  coreMode : Bool := false
  freeIndex : Bool := false

/-- An address is one of the stored bytes' (first component: the lowest address; second: how many). -/
abbrev Footprint.stores (f : Footprint) (a : Nat) : Prop :=
  match f.bytes with
  | none => False
  | some (base, n) => base ≤ a ∧ a < base + n

/-- `t` differs from `s` at most in the PC and in what the footprint names: every other register, flag, special register,
stack entry, byte of memory, pixel, device and control field is as before. -/
structure Unchanged (f : Footprint) (s t : State) : Prop where
  regs : ∀ r, r ∉ f.regs → t.v[r] = s.v[r] ∧ t.unwrittenV[r] = s.unwrittenV[r]
  index : f.index = false → t.i = s.i ∧ t.unwrittenI = s.unwrittenI
  stack : f.stack = false → t.stack = s.stack ∧ t.depth = s.depth
  bytes : ∀ a, ¬ f.stores a → t.byteAt a = s.byteAt a
  screen : f.screen = false → t.fb = s.fb ∧ t.drawLog = s.drawLog
  delay : f.delay = false → t.dt = s.dt
  sound : f.sound = false → t.st = s.st
  token : f.token = false → t.token = s.token
  coreMode : f.coreMode = false → t.coreMode = s.coreMode
  freeIndex : f.freeIndex = false → t.freeIndex = s.freeIndex
  config : t.config = s.config
  latch : t.latch = s.latch
  sound_path : t.pending = s.pending ∧ t.chan = s.chan ∧ t.sampleLog = s.sampleLog
  control : t.cancelled = s.cancelled ∧ t.timerStopped = s.timerStopped ∧ t.schedule = s.schedule

/-! ### Results -/

/-- A skip instruction's whole effect (R105-R108, R190, R191): it completes, PC goes 4 on when the condition holds and 2 on
when it does not, and nothing else changes. -/
def Skips (i : Instr) (s : State) (c : Prop) : Prop :=
  ∃ t, exec i s = .next t ∧ (c → t.pc = s.pc + 4) ∧ (¬c → t.pc = s.pc + 2) ∧ Unchanged {} s t

/-- A load of one register (R121-R126, R133, R192): it completes with `V[X]` the byte, PC goes 2 on, and nothing else changes. -/
def Loads (i : Instr) (s : State) (x : Reg) (b : Byte) : Prop :=
  ∃ t, exec i s = .next t ∧ t.v[x] = b ∧ t.pc = s.pc + 2 ∧ Unchanged { regs := [x] } s t

/-- A flag-writing ALU instruction's whole effect (R120): `V[X]` the result, VF the flag; for X = 0xF, VF ends as the flag
under `flag_last` and as the free draw under `flag_any`, the next draw then being another free value (log 5). -/
def WritesResultAndFlag (i : Instr) (s : State) (x : Reg) (result : Nat) (flag : Prop) : Prop :=
  ∃ t, exec i s = .next t ∧
    (x ≠ regF → t.v[x].toNat = result) ∧
    (x ≠ regF ∨ s.config.flagOrder = .flagLast → (flag → t.v[regF] = 1) ∧ (¬flag → t.v[regF] = 0)) ∧
    (x = regF ∧ s.config.flagOrder = .flagAny →
      t.v[regF] = Config.flagByte s.freeIndex ∧ t.freeIndex = s.freeIndex + 1) ∧
    t.pc = s.pc + 2 ∧
    Unchanged { regs := [x, regF], freeIndex := x == regF && s.config.flagOrder == .flagAny } s t

/-- The instruction raises a fault (R211): the core's mode is all that changes. -/
def Raises (i : Instr) (s : State) (f : Fault) : Prop := exec i s = .next { s with coreMode := .faulted f }

/-- The PC R213 records with a fault. -/
def faultPc (f : Fault) : Word :=
  match f with
  | .memRange _ pc => pc
  | .stackOverflow pc => pc
  | .stackUnderflow pc => pc
  | .drawRange _ _ pc => pc
  | .unwrittenRead _ pc => pc

/-- Bit c of row r of the sprite at I, c counted from the left (R172). -/
def spriteBit (s : State) (r c : Nat) : Bool := (s.byteAt (s.i.toNat + r)).getLsbD (7 - c)

/-- A sprite of n rows at (x0, y0) has its bit set at screen place (px, py) (R171, R172). -/
def SpriteCovers (s : State) (x0 y0 n px py : Nat) : Prop :=
  ∃ r c, r < n ∧ c < 8 ∧ spriteBit s r c = true ∧ px = x0 + c ∧ py = y0 + r

/-- Screen place (px, py) is off the screen (R174). -/
abbrev OffScreen (px py : Nat) : Prop := 63 < px ∨ 31 < py

/-- Column c of row r of a sprite at (x0, y0) is a pixel R174 faults on. -/
def PixelFaults (s : State) (x0 y0 r c : Nat) : Prop :=
  (s.config.drawOobScope = .box ∨ spriteBit s r c = true) ∧ OffScreen (x0 + c) (y0 + r)

/-- DXYN's conditions: its operands are readable, the sprite lies in memory, and no pixel R174 faults on is off the screen. -/
structure DrawFits (s : State) (x y : Reg) (n : Nat) : Prop where
  readable : s.Readable [x, y] true
  in_memory : n = 0 ∨ s.i.toNat + n ≤ 4096
  on_screen : ∀ r c, r < n → c < 8 → ¬PixelFaults s s.v[x].toNat s.v[y].toNat r c

/-- The word at the PC, big-endian (R54). -/
def wordAtPc (s : State) : Word := wordOfBytes (s.byteAt s.pc.toNat) (s.byteAt (s.pc.toNat + 1))

/-- The core is about to fetch and run `i` (R222): running, not cancelled, both bytes in memory, the word decoding to `i`. -/
structure Fetches (s : State) (i : Instr) : Prop where
  running : s.coreMode = .running
  not_cancelled : s.cancelled = false
  in_memory : s.pc.toNat ≤ 4094
  word : decodeWord s.config.decodeStrict (wordAtPc s) = i

/-! ### Agents -/

/-- When a step of an agent is enabled (R222, R225-R228, R231, R234, R235). -/
def enabled (a : AgentStep) (s : State) : Bool :=
  match a with
  | .core =>
    match s.coreMode with
    | .running => true
    | .wakeKey _ _ => true
    | .heldKey _ => false
    | .faulted _ => false
    | .stopped => false
  | .timerTick => !s.timerStopped && s.pending.isNone
  | .handOff => s.pending.isSome && (s.cancelled || s.chan.length < s.config.soundChannelCapacity)
  | .sinkReceive => !s.chan.isEmpty || (s.config.soundChannelCapacity == 0 && s.pending.isSome)
  | .keyPressed k => !s.cancelled && k < 16
  | .clearKeys => !s.cancelled
  | .cancel => !s.cancelled

/-- The steps of a list of agents, one after another (R221). -/
def runAgents (l : List AgentStep) (s : State) : Result :=
  match l with
  | [] => .next s
  | a :: rest =>
    match agentStep a s with
    | .next t => runAgents rest t
    | .fault f => .fault f
    | .refused r => .refused r

/-- No core step of these agent steps, run from `s`, is about to run FX15 (R225: no set of DT intervenes). -/
def SetsNoDelay (l : List AgentStep) (s : State) : Prop :=
  match l with
  | [] => True
  | a :: rest =>
    (a = .core → ∀ x, ¬Fetches s (.ldDTVx x)) ∧ ∀ t, agentStep a s = .next t → SetsNoDelay rest t

/-- The states of a session: the boot's, and what any sequence of agent steps makes of it (R221, R250). -/
inductive Reachable (p : Config) (rom : List Byte) : State → Prop where
  | boot {s : State} : boot p rom = .next s → Reachable p rom s
  | step {s t : State} (a : AgentStep) : Reachable p rom s → agentStep a s = .next t → Reachable p rom t

/-- R236: cancelled, and neither the core nor the timer has an enabled step. DESIGN CHOICE (log 26): R236 lets the run end when
the sink has nothing to receive or the stream is closed, and no rule says when it closes; here it is closed once the timer has
stopped, so samples may be left in the channel and the sink's receive still be enabled. -/
def runEnded (s : State) : Bool :=
  s.cancelled && !enabled .core s && !enabled .timerTick s && !enabled .handOff s

/-- A faulted run's state (R212, R236): no claim of success holds for it. -/
def State.isFaulted (s : State) : Bool :=
  match s.coreMode with
  | .faulted _ => true
  | .running => false
  | .heldKey _ => false
  | .wakeKey _ _ => false
  | .stopped => false

/-- The observation of a run (R236): the state at its end, the Draw events and the Sample events. -/
structure Observation where
  /-- none for a register not yet written (R36) -/
  v : Vector (Option Byte) 16
  /-- none when I is not yet written (R38) -/
  i : Option Word
  pc : Word
  sp : Int
  stack : Vector Word 16
  bytes : List Byte
  fb : FrameBuffer
  dt : Byte
  st : Byte
  latch : Option Key
  token : Option Key
  coreMode : CoreMode
  draws : List FrameBuffer
  samples : List Byte
  deriving DecidableEq, Repr

/-- What R236 lets an outside reader see of a state. -/
def State.observe (s : State) : Observation where
  v := Vector.ofFn (fun r => if s.unwrittenV[r] then none else some s.v[r])
  i := if s.unwrittenI then none else some s.i
  pc := s.pc
  sp := s.sp
  stack := s.stack
  bytes := (List.range 4096).map s.byteAt
  fb := s.fb
  dt := s.dt
  st := s.st
  latch := s.latch
  token := s.token
  coreMode := s.coreMode
  draws := s.drawLog
  samples := s.sampleLog

/-- An infinite run: one enabled step of one agent after another (R221). -/
structure InfiniteRun where
  states : Nat → State
  moves : Nat → AgentStep
  valid : ∀ n, agentStep (moves n) (states n) = .next (states (n + 1))

/-- R237: an infinite run in which every step of the core, the timer and the audio sink that stays enabled is taken. -/
def InfiniteRun.WeaklyFair (run : InfiniteRun) : Prop :=
  ∀ a ∈ [AgentStep.core, .timerTick, .handOff, .sinkReceive], ∀ n,
    (∀ m, n ≤ m → enabled a (run.states m) = true) → ∃ m, n ≤ m ∧ run.moves m = a

/-! ### The invariant -/

/-- The PC the core stopped at inside FX0A is one it fetched from (R23, R193). -/
def State.waitingPcOk (s : State) : Prop :=
  match s.coreMode with
  | .heldKey _ => s.pc.toNat ≤ 4094
  | .wakeKey _ _ => s.pc.toNat ≤ 4094
  | .running => True
  | .faulted _ => True
  | .stopped => True

/-- The register a waiting core's mode carries is the one of the FX0A at PC (R193, R222, log 7). -/
def State.waitingInstrOk (s : State) : Prop :=
  match s.coreMode with
  | .heldKey x => decodeWord s.config.decodeStrict (wordAtPc s) = .ldVxK x
  | .wakeKey x _ => decodeWord s.config.decodeStrict (wordAtPc s) = .ldVxK x
  | .running => True
  | .faulted _ => True
  | .stopped => True

/-- A core held for a key has found no token, and none is buffered while it waits (R193, R228). -/
def State.heldWithoutToken (s : State) : Prop :=
  match s.coreMode with
  | .heldKey _ => s.token = none
  | .wakeKey _ _ => True
  | .running => True
  | .faulted _ => True
  | .stopped => True

/-- What holds in every state of a session. -/
structure State.Inv (s : State) : Prop where
  /-- memory is in canonical form, inside the address space (R50) -/
  memory : Memory.wf s.config.font s.mem = true
  /-- every PC value lies in 0..4350 (R23) -/
  pc_range : s.pc.toNat ≤ 4350
  waiting_pc : s.waitingPcOk
  waiting_instr : s.waitingInstrOk
  /-- a return address in use is at most 4096 (R26) -/
  returns : ∀ k, ∀ h : k < 16, k < s.depth.val → (s.stack[k]).toNat ≤ 4096
  /-- the channel is never longer than its capacity (R32) -/
  channel : s.chan.length ≤ s.config.soundChannelCapacity
  /-- a stopped timer holds no sample, and has seen the cancellation (R225, R226, R234) -/
  stopped_timer : s.timerStopped = true → s.pending = none ∧ s.cancelled = true
  /-- a stopped core has seen the cancellation (R234) -/
  stopped_core : s.coreMode = .stopped → s.cancelled = true
  held : s.heldWithoutToken

end Sys2Proof.Machine
end

