-- ==== Sys2Proof/Certificates/Slice0/Obligations.lean ====
section
/-! DEFINITION. The statements about the machine, each from the numbered rules of spec/ its docstring names. -/

open Sys2Proof Sys2Proof.Machine

/-! ### Encoding -/

/-- Words of every family decode as 95_test_vectors.md section 2.1 and R73's patterns say, under both settings. -/
def Obligations.SampleWordsDecode : Prop :=
  decodeWord true 0x00E0 = .cls ∧ decodeWord true 0x00EE = .ret ∧ decodeWord true 0x01E0 = .unknown 0x01E0 ∧
  decodeWord false 0x01E0 = .cls ∧ decodeWord false 0x0FEE = .ret ∧
  decodeWord true 0x5120 = .seReg 1 2 ∧ decodeWord true 0x5121 = .unknown 0x5121 ∧ decodeWord false 0x5121 = .seReg 1 2 ∧
  decodeWord true 0x9AB0 = .sneReg 0xA 0xB ∧ decodeWord false 0x9AB7 = .sneReg 0xA 0xB ∧
  decodeWord true 0x8ABE = .shl 0xA 0xB ∧ decodeWord true 0x8AB8 = .unknown 0x8AB8 ∧
  decodeWord true 0x7505 = .addImm 5 5 ∧ decodeWord true 0xC30F = .rnd 3 0x0F ∧
  decodeWord true 0xB123 = .jpV0 0x123 ∧ decodeWord true 0xA300 = .ldI 0x300 ∧
  decodeWord true 0xD015 = .drw 0 1 5 ∧ decodeWord true 0xE19E = .skp 1 ∧ decodeWord true 0xE09F = .unknown 0xE09F ∧
  decodeWord true 0xF165 = .loadRegs 1 ∧ decodeWord true 0xFF1E = .addIVx 0xF ∧ decodeWord true 0xF000 = .unknown 0xF000

/-- Decode and encode agree, both ways: every instruction the decoder can answer is read back from its word and from its two
big-endian bytes, with every operand at every value (R70-R73), and under strict decoding every word is read to an
instruction whose word it is (R74). -/
def Obligations.DecodeAndEncodeAgree : Prop :=
  (∀ strict i, i.wellFormed strict = true →
    decodeWord strict (encode i) = i ∧ decode strict (encodeBytes i) = .ok (i, [])) ∧
  (∀ op, encode (decodeWord true op) = op) ∧
  (∀ strict op, (decodeWord strict op).wellFormed strict = true)

/-- R76 (derived by the spec from R73): the words that decode to UNKNOWN under strict decoding are exactly the listed ones. -/
def Obligations.UnknownWordsAreTheListedOnes : Prop :=
  (∀ op, decodeWord true op = .unknown op ↔
    ((op.toNat ≤ 0x0FFF ∧ op ≠ 0x00E0 ∧ op ≠ 0x00EE) ∨
     (op.toNat / 0x1000 = 5 ∧ op.toNat % 0x10 ≠ 0) ∨
     (op.toNat / 0x1000 = 8 ∧ op.toNat % 0x10 ∈ [0x8, 0x9, 0xA, 0xB, 0xC, 0xD, 0xF]) ∨
     (op.toNat / 0x1000 = 9 ∧ op.toNat % 0x10 ≠ 0) ∨
     (op.toNat / 0x1000 = 0xE ∧ op.toNat % 0x100 ∉ [0x9E, 0xA1]) ∨
     (op.toNat / 0x1000 = 0xF ∧
       op.toNat % 0x100 ∉ [0x07, 0x0A, 0x15, 0x18, 0x1E, 0x29, 0x33, 0x55, 0x65]))) ∧
  (∀ op w, decodeWord true op = .unknown w → w = op)

/-- R77: `DECODE_STRICT = false` changes only the listed words, to CLS, RET, SE and SNE. -/
def Obligations.LooseDecodingChangesOnlyTheListedWords : Prop :=
  (∀ x : BitVec 4, decodeWord false (ofNibbles 0 x 0xE 0) = .cls ∧ decodeWord false (ofNibbles 0 x 0xE 0xE) = .ret) ∧
  (∀ (x y : Reg) n, decodeWord false (formatRegReg 5 x y n) = .seReg x y) ∧
  (∀ (x y : Reg) n, decodeWord false (formatRegReg 9 x y n) = .sneReg x y) ∧
  (∀ op, decodeWord false op ≠ decodeWord true op →
    (op.toNat / 0x1000 = 0 ∧ op.toNat % 0x100 ∈ [0xE0, 0xEE]) ∨ op.toNat / 0x1000 = 5 ∨ op.toNat / 0x1000 = 9)

/-- R74: the rows of the opcode table are pairwise disjoint under their masks, and a word decodes to a row's instruction
exactly when the row takes it. -/
def Obligations.OpcodeRowsAreDisjoint : Prop :=
  opcodeTable.Pairwise (fun a b => ∀ op, ¬(a.takes op = true ∧ b.takes op = true)) ∧
  (∀ row ∈ opcodeTable, ∀ op, row.takes op = true ↔ mnemonicOf (decodeWord true op) = row.mnemonic)

/-! ### The core's step -/

/-- R222: when the bytes at PC decode to a well-formed instruction, the step is `exec` of it; the model's schedule (log 1)
takes the core's turn off its front and adds nothing else, and another agent at its front has its own step. -/
def Obligations.StepRunsTheDecodedInstruction : Prop :=
  (∀ s i, s.coreMode = .running → s.cancelled = false → s.pc.toNat ≤ 4094 →
    decode s.config.decodeStrict [s.byteAt s.pc.toNat, s.byteAt (s.pc.toNat + 1)] = .ok (i, []) →
    (s.schedule = [] → step s = exec i s) ∧
    (∀ rest, s.schedule = .core :: rest → step s = exec i { s with schedule := rest })) ∧
  (∀ s a rest, s.schedule = a :: rest → step s = agentStep a { s with schedule := rest })

/-- R54: a fetch whose first or second byte lies outside memory faults with MEM_RANGE at that byte. -/
def Obligations.FetchOutsideMemoryFaults : Prop :=
  ∀ s, s.coreMode = .running → s.cancelled = false →
    (4095 < s.pc.toNat →
      coreStep s = .next { s with coreMode := .faulted (.memRange s.pc.toNat s.pc) }) ∧
    (s.pc.toNat = 4095 →
      coreStep s = .next { s with coreMode := .faulted (.memRange 4096 s.pc) })

/-- R74, R222: every instruction answers a next state in every state, so an enabled core step always takes place. R13 lists
completing, faulting and holding as an instruction's outcomes; that a fault and a hold are next states, told apart by
`coreMode`, is the model's form (log 2). -/
def Obligations.NoInstructionIsRefused : Prop :=
  (∀ i s, ∃ t, exec i s = .next t) ∧ (∀ s, enabled .core s = true → ∃ t, coreStep s = .next t)

/-- R211, R213: a core step that faults changes nothing but the core's mode, and the PC it records is the instruction's. -/
def Obligations.FaultChangesOnlyTheMode : Prop :=
  ∀ s t f, coreStep s = .next t → t.coreMode = .faulted f →
    t = { s with coreMode := .faulted f } ∧ faultPc f = s.pc

/-- R212: a faulted core has no step and stays faulted whatever the other agents do, and it withholds no step of theirs
(that its step answers `Outcome.fault` is the model's form: log 2). -/
def Obligations.FaultIsTerminal : Prop :=
  ∀ s f, s.coreMode = .faulted f →
    coreStep s = .fault f ∧
    (∀ a t, agentStep a s = .next t → t.coreMode = .faulted f) ∧
    (∀ a, a ≠ .core → enabled a s = enabled a { s with coreMode := .running })

/-- R193, R232: while the core is held for a key it has no step, no agent changes its registers, memory, stack, screen or
PC, and only KeyPressed(k) lifts the hold, with k handed to the core. -/
def Obligations.HeldCoreWaitsForAKey : Prop :=
  ∀ s x, s.coreMode = .heldKey x → enabled .core s = false ∧
    ∀ a t, agentStep a s = .next t →
      (t.v = s.v ∧ t.i = s.i ∧ t.pc = s.pc ∧ t.stack = s.stack ∧ t.depth = s.depth ∧ t.mem = s.mem ∧ t.fb = s.fb) ∧
      (t.coreMode = .heldKey x ∨ ∃ k : Key, a = .keyPressed k.val ∧ t.coreMode = .wakeKey x k)

/-! ### Control transfer -/

/-- R101: RET goes to the popped address and decrements SP, leaving the entries; with the stack empty it faults. -/
def Obligations.ReturnPopsItsTarget : Prop :=
  (∀ strict, decodeWord strict 0x00EE = .ret) ∧
  ∀ s, (0 ≤ s.sp →
      ∃ t, exec .ret s = .next t ∧ s.stack[s.depth.val - 1]? = some t.pc ∧ t.sp = s.sp - 1 ∧ t.stack = s.stack ∧
        Unchanged { stack := true } s t) ∧
    (s.sp = -1 → Raises .ret s (.stackUnderflow s.pc))

/-- R102: JP goes to NNN and changes nothing else. -/
def Obligations.JumpGoesToItsAddress : Prop :=
  (∀ strict nnn, decodeWord strict (formatAddr 1 nnn) = .jp nnn) ∧
  ∀ nnn s, ∃ t, exec (.jp nnn) s = .next t ∧ t.pc.toNat = nnn.toNat ∧ Unchanged {} s t

/-- R103: CALL pushes PC + 2 and goes to NNN; the 17th nested call faults. -/
def Obligations.CallPushesTheNextAddress : Prop :=
  (∀ strict nnn, decodeWord strict (formatAddr 2 nnn) = .call nnn) ∧
  ∀ nnn s, (s.sp < 15 →
      ∃ t, exec (.call nnn) s = .next t ∧ t.pc.toNat = nnn.toNat ∧ t.sp = s.sp + 1 ∧
        t.stack[t.depth.val - 1]? = some (s.pc + 2) ∧
        (∀ k, k ≠ t.depth.val - 1 → t.stack[k]? = s.stack[k]?) ∧
        Unchanged { stack := true } s t) ∧
    (s.sp = 15 → Raises (.call nnn) s (.stackOverflow s.pc))

/-- R104: JP V0 goes to the exact sum V0 + NNN, never masked to 12 bits. -/
def Obligations.OffsetJumpAddsV0 : Prop :=
  (∀ strict nnn, decodeWord strict (formatAddr 0xB nnn) = .jpV0 nnn) ∧
  ∀ nnn s, s.Readable [0] false →
    ∃ t, exec (.jpV0 nnn) s = .next t ∧ t.pc.toNat = (s.v[0]).toNat + nnn.toNat ∧ Unchanged {} s t

/-- R105, R106: SE skips when Vx = NN, SNE when it is not. -/
def Obligations.ImmediateSkips : Prop :=
  (∀ strict x nn, decodeWord strict (formatRegImm 3 x nn) = .seImm x nn ∧
    decodeWord strict (formatRegImm 4 x nn) = .sneImm x nn) ∧
  ∀ x nn s, s.Readable [x] false →
    Skips (.seImm x nn) s (s.v[x] = nn) ∧ Skips (.sneImm x nn) s (s.v[x] ≠ nn)

/-- R107, R108: SE skips when Vx = Vy, SNE when they differ; the low nibble is 0, or any under loose decoding. -/
def Obligations.RegisterSkips : Prop :=
  (∀ strict x y, decodeWord strict (formatRegReg 5 x y 0) = .seReg x y ∧
    decodeWord strict (formatRegReg 9 x y 0) = .sneReg x y) ∧
  (∀ x y n, decodeWord false (formatRegReg 5 x y n) = .seReg x y ∧
    decodeWord false (formatRegReg 9 x y n) = .sneReg x y) ∧
  ∀ x y s, s.Readable [x, y] false →
    Skips (.seReg x y) s (s.v[x] = s.v[y]) ∧ Skips (.sneReg x y) s (s.v[x] ≠ s.v[y])

/-- R75: the words R76 and R77 leave to UNKNOWN decode to it, and it is a no-op that advances PC by 2. -/
def Obligations.UnknownWordIsANoOp : Prop :=
  (∀ strict op, isUnknownWord strict op = true → decodeWord strict op = .unknown op) ∧
  ∀ op s, ∃ t, exec (.unknown op) s = .next t ∧ t.pc = s.pc + 2 ∧ Unchanged {} s t

/-- A RET after a CALL, with the stack as the call left it, goes to the instruction after the call and restores SP
(95_test_vectors.md S2). -/
def Obligations.CallThenReturn : Prop :=
  ∀ nnn s t u, exec (.call nnn) s = .next t → s.sp < 15 → u.stack = t.stack → u.depth = t.depth →
    ∃ w, exec .ret u = .next w ∧ w.pc = s.pc + 2 ∧ w.sp = s.sp

/-! ### Loads and the ALU -/

/-- R121, R122: LD Vx, NN loads the byte; ADD Vx, NN adds it modulo 256 and writes no flag. -/
def Obligations.ImmediateLoadsAndAdds : Prop :=
  (∀ strict x nn, decodeWord strict (formatRegImm 6 x nn) = .ldImm x nn ∧
    decodeWord strict (formatRegImm 7 x nn) = .addImm x nn) ∧
  ∀ x nn s, Loads (.ldImm x nn) s x nn ∧
    (s.Readable [x] false → Loads (.addImm x nn) s x (BitVec.ofNat 8 ((s.v[x].toNat + nn.toNat) % 256)))

/-- R123-R126: the copy and the three bitwise operations, bit by bit; VF is written only as the destination. -/
def Obligations.CopyAndBitwiseOperations : Prop :=
  (∀ strict x y, decodeWord strict (formatRegReg 8 x y 0) = .ldReg x y ∧ decodeWord strict (formatRegReg 8 x y 1) = .orReg x y ∧
    decodeWord strict (formatRegReg 8 x y 2) = .andReg x y ∧ decodeWord strict (formatRegReg 8 x y 3) = .xorReg x y) ∧
  ∀ x y s,
    (s.Readable [y] false → Loads (.ldReg x y) s x s.v[y]) ∧
    (s.Readable [x, y] false →
      (∃ b : Byte, (∀ k, b.getLsbD k = (s.v[x].getLsbD k || s.v[y].getLsbD k)) ∧ Loads (.orReg x y) s x b) ∧
      (∃ b : Byte, (∀ k, b.getLsbD k = (s.v[x].getLsbD k && s.v[y].getLsbD k)) ∧ Loads (.andReg x y) s x b) ∧
      (∃ b : Byte, (∀ k, b.getLsbD k = (s.v[x].getLsbD k ^^ s.v[y].getLsbD k)) ∧ Loads (.xorReg x y) s x b))

/-- R120, R127: ADD Vx, Vy adds modulo 256 with the carry in VF, from the snapshots (under `flag_any` with X = 0xF, VF is the
next free draw: log 5). -/
def Obligations.AddSetsTheCarry : Prop :=
  (∀ strict x y, decodeWord strict (formatRegReg 8 x y 4) = .addReg x y) ∧
  ∀ x y s, s.Readable [x, y] false →
    WritesResultAndFlag (.addReg x y) s x ((s.v[x].toNat + s.v[y].toNat) % 256) (255 < s.v[x].toNat + s.v[y].toNat)

/-- R120, R128, R130: SUB and SUBN subtract modulo 256 with NOT borrow in VF (under `flag_any` with X = 0xF, VF is the next
free draw: log 5). -/
def Obligations.SubtractionsSetNotBorrow : Prop :=
  (∀ strict x y, decodeWord strict (formatRegReg 8 x y 5) = .subReg x y ∧
    decodeWord strict (formatRegReg 8 x y 7) = .subn x y) ∧
  ∀ x y s, s.Readable [x, y] false →
    WritesResultAndFlag (.subReg x y) s x ((s.v[x].toNat + 256 - s.v[y].toNat) % 256) (¬ s.v[x].toNat < s.v[y].toNat) ∧
    WritesResultAndFlag (.subn x y) s x ((s.v[y].toNat + 256 - s.v[x].toNat) % 256) (¬ s.v[y].toNat < s.v[x].toNat)

/-- R120, R129, R131: SHR and SHL shift Vx, or Vy into Vx under `SHIFT_SOURCE = vy`, by one, with the bit shifted out in VF
(under `flag_any` with X = 0xF, VF is the next free draw: log 5). -/
def Obligations.ShiftsSetTheBitShiftedOut : Prop :=
  (∀ strict x y, decodeWord strict (formatRegReg 8 x y 6) = .shr x y ∧
    decodeWord strict (formatRegReg 8 x y 0xE) = .shl x y) ∧
  ∀ x y z s, ((s.config.shiftSource = .vx ∧ z = x) ∨ (s.config.shiftSource = .vy ∧ z = y)) → s.Readable [z] false →
    WritesResultAndFlag (.shr x y) s x (s.v[z].toNat / 2) (s.v[z].toNat % 2 = 1) ∧
    WritesResultAndFlag (.shl x y) s x (s.v[z].toNat * 2 % 256) (128 ≤ s.v[z].toNat)

/-- R133, R134: RND masks a draw under no law; every bit NN masks off is 0, and the next draw is another free value (the draw
index is the model's own, log 5). -/
def Obligations.RandomByteIsMasked : Prop :=
  (∀ strict x nn, decodeWord strict (formatRegImm 0xC x nn) = .rnd x nn) ∧
  ∀ x nn s, ∃ t, exec (.rnd x nn) s = .next t ∧
    (∀ k, t.v[x].getLsbD k = ((Config.rand8 s.freeIndex).getLsbD k && nn.getLsbD k)) ∧
    t.freeIndex = s.freeIndex + 1 ∧ t.pc = s.pc + 2 ∧ Unchanged { regs := [x], freeIndex := true } s t

/-! ### The index register and memory -/

/-- R150, R152: LD I, NNN loads the address; LD F, Vx multiplies all of Vx by 5. -/
def Obligations.IndexLoads : Prop :=
  (∀ strict nnn, decodeWord strict (formatAddr 0xA nnn) = .ldI nnn) ∧
  (∀ strict x, decodeWord strict (formatRegSub 0xF x 0x29) = .ldFVx x) ∧
  (∀ nnn s, ∃ t, exec (.ldI nnn) s = .next t ∧ t.i.toNat = nnn.toNat ∧ t.pc = s.pc + 2 ∧ Unchanged { index := true } s t) ∧
  ∀ x s, s.Readable [x] false →
    ∃ t, exec (.ldFVx x) s = .next t ∧ t.i.toNat = s.v[x].toNat * 5 ∧ t.pc = s.pc + 2 ∧ Unchanged { index := true } s t

/-- R151: ADD I, Vx wraps at 16 bits and VF says whether the new I exceeds 0xFFF. -/
def Obligations.IndexAddTestsItsRange : Prop :=
  (∀ strict x, decodeWord strict (formatRegSub 0xF x 0x1E) = .addIVx x) ∧
  ∀ x s, s.Readable [x] true →
    ∃ t, exec (.addIVx x) s = .next t ∧ t.i.toNat = (s.i.toNat + s.v[x].toNat) % 65536 ∧
      (0xFFF < t.i.toNat → t.v[regF] = 1) ∧ (t.i.toNat ≤ 0xFFF → t.v[regF] = 0) ∧ t.pc = s.pc + 2 ∧
      Unchanged { regs := [regF], index := true } s t

/-- R149, R153: LD B, Vx stores the hundreds, tens and ones at I, I+1, I+2; outside memory it faults and stores nothing. -/
def Obligations.DecimalDigitsAreStored : Prop :=
  (∀ strict x, decodeWord strict (formatRegSub 0xF x 0x33) = .ldBVx x) ∧
  ∀ x s, s.Readable [x] true →
    (s.i.toNat + 2 ≤ 4095 →
      ∃ t, exec (.ldBVx x) s = .next t ∧
        (t.byteAt s.i.toNat).toNat = s.v[x].toNat / 100 ∧
        (t.byteAt (s.i.toNat + 1)).toNat = s.v[x].toNat / 10 % 10 ∧
        (t.byteAt (s.i.toNat + 2)).toNat = s.v[x].toNat % 10 ∧
        t.pc = s.pc + 2 ∧ Unchanged { bytes := some (s.i.toNat, 3) } s t) ∧
    (4095 < s.i.toNat + 2 → Raises (.ldBVx x) s (.memRange (max s.i.toNat 4096) s.pc))

/-- R149, R154: LD [I], Vx stores V0..Vx from I up, and moves I only under `MEM_INCREMENTS_I = true`; outside memory it
faults and stores nothing. -/
def Obligations.RegistersAreStored : Prop :=
  (∀ strict x, decodeWord strict (formatRegSub 0xF x 0x55) = .storeRegs x) ∧
  ∀ (x : Reg) s, s.Readable ((List.finRange 16).filter (· ≤ x)) true →
    (s.i.toNat + x.val ≤ 4095 →
      ∃ t, exec (.storeRegs x) s = .next t ∧
        (∀ k : Reg, k ≤ x → t.byteAt (s.i.toNat + k.val) = s.v[k]) ∧
        (s.config.memIncrementsI = true → t.i.toNat = (s.i.toNat + x.val + 1) % 65536) ∧
        t.pc = s.pc + 2 ∧
        Unchanged { index := s.config.memIncrementsI, bytes := some (s.i.toNat, x.val + 1) } s t) ∧
    (4095 < s.i.toNat + x.val → Raises (.storeRegs x) s (.memRange (max s.i.toNat 4096) s.pc))

/-- R149, R155: LD Vx, [I] loads V0..Vx from I up, leaves the registers above, and moves I only under
`MEM_INCREMENTS_I = true`; outside memory it faults and loads nothing. -/
def Obligations.RegistersAreLoaded : Prop :=
  (∀ strict x, decodeWord strict (formatRegSub 0xF x 0x65) = .loadRegs x) ∧
  ∀ (x : Reg) s, s.Readable [] true →
    (s.i.toNat + x.val ≤ 4095 →
      ∃ t, exec (.loadRegs x) s = .next t ∧
        (∀ k : Reg, k ≤ x → t.v[k] = s.byteAt (s.i.toNat + k.val)) ∧
        (s.config.memIncrementsI = true → t.i.toNat = (s.i.toNat + x.val + 1) % 65536) ∧
        t.pc = s.pc + 2 ∧
        Unchanged { regs := (List.finRange 16).filter (· ≤ x), index := s.config.memIncrementsI } s t) ∧
    (4095 < s.i.toNat + x.val → Raises (.loadRegs x) s (.memRange (max s.i.toNat 4096) s.pc))

/-- FX65 after FX55 with the same I, X and memory restores V0..Vx and leaves the registers above (95_test_vectors.md S7). -/
def Obligations.StoreThenLoadRestores : Prop :=
  ∀ (x : Reg) s t u, s.Readable ((List.finRange 16).filter (· ≤ x)) true → s.i.toNat + x.val ≤ 4095 →
    exec (.storeRegs x) s = .next t → u.config = s.config → u.mem = t.mem → u.i = s.i → u.Readable [] true →
    ∃ w, exec (.loadRegs x) u = .next w ∧ ∀ k : Reg, w.v[k] = if k ≤ x then s.v[k] else u.v[k]

/-- R51, R52: a byte written inside 0..4095 reads back and every other byte is as before; an access outside faults at its
address and writes nothing. -/
def Obligations.BytesReadBackAsWritten : Prop :=
  ∀ (s : State) (a : Nat) (b : Byte),
    (a ≤ 4095 → ∃ t, s.memWrite a b = .ok t ∧ t.memRead a = .ok b ∧ (∀ c, c ≠ a → t.memRead c = s.memRead c)) ∧
    (4095 < a → s.memWrite a b = .error (.memRange a s.pc) ∧ s.memRead a = .error (.memRange a s.pc))

/-- R63, R255: bytes that FX55 stored where the core goes next are the instruction the very next core step runs. -/
def Obligations.StoredCodeRunsNext : Prop :=
  ∀ (x k : Reg) s t, s.Readable ((List.finRange 16).filter (· ≤ x)) true → s.i.toNat + x.val ≤ 4095 →
    s.coreMode = .running → s.cancelled = false → exec (.storeRegs x) s = .next t →
    ∀ l : Reg, l.val = k.val + 1 → l ≤ x → t.pc.toNat = s.i.toNat + k.val →
      coreStep t = exec (decodeWord s.config.decodeStrict (wordOfBytes s.v[k] s.v[l])) t

/-! ### The display -/

/-- R170, R173: CLS turns every pixel off and emits one Draw of the cleared screen. -/
def Obligations.ClearTurnsEveryPixelOff : Prop :=
  (∀ strict, decodeWord strict 0x00E0 = .cls) ∧
  (∀ x : BitVec 4, decodeWord false (ofNibbles 0 x 0xE 0) = .cls) ∧
  ∀ s, ∃ t, exec .cls s = .next t ∧ (∀ idx, idx < 2048 → t.fb.cell idx = false) ∧ t.drawLog = s.drawLog ++ [t.fb] ∧
    t.pc = s.pc + 2 ∧ Unchanged { screen := true } s t

/-- R171-R173: DXYN flips exactly the cells under the sprite's set bits, sets VF to whether one of them was on, and emits one
Draw of the result. -/
def Obligations.DrawFlipsTheSpritesPixels : Prop :=
  (∀ strict x y n, decodeWord strict (formatRegReg 0xD x y n) = .drw x y n) ∧
  ∀ x y (n : BitVec 4) s, DrawFits s x y n.toNat →
    ∃ t, exec (.drw x y n) s = .next t ∧
      (∀ px py, px ≤ 63 → py ≤ 31 →
        (SpriteCovers s s.v[x].toNat s.v[y].toNat n.toNat px py → t.fb.cell (px + 64 * py) = !s.fb.cell (px + 64 * py)) ∧
        (¬SpriteCovers s s.v[x].toNat s.v[y].toNat n.toNat px py → t.fb.cell (px + 64 * py) = s.fb.cell (px + 64 * py))) ∧
      ((∃ px py, SpriteCovers s s.v[x].toNat s.v[y].toNat n.toNat px py ∧ s.fb.cell (px + 64 * py) = true) →
        t.v[regF] = 1) ∧
      ((¬∃ px py, SpriteCovers s s.v[x].toNat s.v[y].toNat n.toNat px py ∧ s.fb.cell (px + 64 * py) = true) →
        t.v[regF] = 0) ∧
      t.drawLog = s.drawLog ++ [t.fb] ∧ t.pc = s.pc + 2 ∧ Unchanged { regs := [regF], screen := true } s t

/-- R171, R174, R215: a sprite byte outside memory faults first, with MEM_RANGE at the lowest address; then, where a pixel of
the scope is off the screen, DRAW_RANGE, under both scopes with the first pixel off the screen in row-major order. -/
def Obligations.DrawFaultsInOrder : Prop :=
  ∀ x y (n : BitVec 4) s, s.Readable [x, y] true →
    (n.toNat ≠ 0 → 4096 < s.i.toNat + n.toNat → Raises (.drw x y n) s (.memRange (max s.i.toNat 4096) s.pc)) ∧
    (n.toNat = 0 ∨ s.i.toNat + n.toNat ≤ 4096 →
      (∃ r c, r < n.toNat ∧ c < 8 ∧ PixelFaults s s.v[x].toNat s.v[y].toNat r c) →
      ∀ r c, r < n.toNat → c < 8 → OffScreen (s.v[x].toNat + c) (s.v[y].toNat + r) →
        (∀ r' c', r' < n.toNat → c' < 8 → OffScreen (s.v[x].toNat + c') (s.v[y].toNat + r') →
          r < r' ∨ (r = r' ∧ c ≤ c')) →
        Raises (.drw x y n) s (.drawRange (s.v[x].toNat + c) (s.v[y].toNat + r) s.pc))

/-- Drawing the same sprite twice at the same place restores the screen, and the second VF is 1 exactly when the first draw
turned a pixel on, that is, when a set bit of the sprite lay on an off cell (R171; 95_test_vectors.md S5, as its quoted source
sentence has it: log 25). -/
def Obligations.DrawingTwiceRestores : Prop :=
  ∀ x y (n : BitVec 4) s t, x ≠ regF → y ≠ regF → DrawFits s x y n.toNat → exec (.drw x y n) s = .next t →
    ∃ u, exec (.drw x y n) t = .next u ∧ u.fb = s.fb ∧
      (u.v[regF] = 1 ↔
        ∃ px py, SpriteCovers s s.v[x].toNat s.v[y].toNat n.toNat px py ∧ s.fb.cell (px + 64 * py) = false)

/-- R28, R173: only CLS and DXYN change the frame buffer or emit a Draw event, and each emits one, of the screen as it leaves
it. -/
def Obligations.OnlyClearAndDrawTouchTheScreen : Prop :=
  ∀ a s t, agentStep a s = .next t →
    (t.fb = s.fb ∧ t.drawLog = s.drawLog) ∨
    (a = .core ∧ (Fetches s .cls ∨ ∃ x y n, Fetches s (.drw x y n)) ∧ t.drawLog = s.drawLog ++ [t.fb])

/-! ### Keys and timers -/

/-- R190, R191: SKP skips when the latch holds Vx, SKNP when it does not; Vx above 15 and NoKey match nothing. -/
def Obligations.KeySkips : Prop :=
  (∀ strict x, decodeWord strict (formatRegSub 0xE x 0x9E) = .skp x ∧ decodeWord strict (formatRegSub 0xE x 0xA1) = .sknp x) ∧
  ∀ x s, s.Readable [x] false →
    Skips (.skp x) s (∃ k : Key, s.latch = some k ∧ s.v[x].toNat = k.val) ∧
    Skips (.sknp x) s (¬∃ k : Key, s.latch = some k ∧ s.v[x].toNat = k.val)

/-- R193: FX0A completes with a key handed to the held core, else with the buffered token; else the core is held with
nothing changed but its mode (the modes carry FX0A's register: log 7). -/
def Obligations.KeyWaitTakesAKeyOrHolds : Prop :=
  (∀ strict x, decodeWord strict (formatRegSub 0xF x 0x0A) = .ldVxK x) ∧
  (∀ x y (k : Key) s, s.coreMode = .wakeKey y k →
    ∃ t, exec (.ldVxK x) s = .next t ∧ t.v[x].toNat = k.val ∧ t.coreMode = .running ∧ t.pc = s.pc + 2 ∧
      Unchanged { regs := [x], coreMode := true } s t) ∧
  (∀ x (k : Key) s, s.coreMode = .running → s.token = some k →
    ∃ t, exec (.ldVxK x) s = .next t ∧ t.v[x].toNat = k.val ∧ t.token = none ∧ t.pc = s.pc + 2 ∧
      Unchanged { regs := [x], token := true } s t) ∧
  (∀ x s, s.coreMode = .running → s.token = none →
    exec (.ldVxK x) s = .next { s with coreMode := .heldKey x }) ∧
  (∀ x (k : Key) s, s.coreMode = .wakeKey x k → coreStep s = exec (.ldVxK x) s)

/-- R192, R194, R195: FX07 reads DT; FX15 and FX18 set DT and ST. -/
def Obligations.TimerInstructions : Prop :=
  (∀ strict x, decodeWord strict (formatRegSub 0xF x 0x07) = .ldVxDT x ∧
    decodeWord strict (formatRegSub 0xF x 0x15) = .ldDTVx x ∧ decodeWord strict (formatRegSub 0xF x 0x18) = .ldSTVx x) ∧
  ∀ x s, Loads (.ldVxDT x) s x s.dt ∧
    (s.Readable [x] false →
      (∃ t, exec (.ldDTVx x) s = .next t ∧ t.dt = s.v[x] ∧ t.pc = s.pc + 2 ∧ Unchanged { delay := true } s t) ∧
      (∃ t, exec (.ldSTVx x) s = .next t ∧ t.st = s.v[x] ∧ t.pc = s.pc + 2 ∧ Unchanged { sound := true } s t))

/-- R29: no instruction reads ST: two states that differ in ST alone answer states that differ in ST at most, and after FX18
not even there. The two states have the same `freeIndex`, so CXNN and `flag_any` take equal draws in both: the free values are
held equal, which is no claim about them (log 5). -/
def Obligations.NoInstructionReadsTheSoundTimer : Prop :=
  ∀ i s (b : Byte) t, exec i s = .next t →
    ∃ u, exec i { s with st := b } = .next u ∧ { u with st := t.st } = t ∧
      ((∃ x, i = .ldSTVx x ∧ s.Readable [x] false) → u = t) ∧ ((∀ x, i ≠ .ldSTVx x) → t.st = s.st ∧ u.st = b)

/-- R29: between sets neither counter rises: a step that raises DT is the core running FX15, and one that raises ST is the
core running FX18. -/
def Obligations.CountersFallBetweenSets : Prop :=
  ∀ a s t, agentStep a s = .next t →
    (s.dt.toNat < t.dt.toNat → a = .core ∧ ∃ x, Fetches s (.ldDTVx x)) ∧
    (s.st.toNat < t.st.toNat → a = .core ∧ ∃ x, Fetches s (.ldSTVx x))

/-- After N ticks from DT = D, with no FX15 between and no cancellation, DT is max(0, D - N), whatever else the core and the
other agents do (R225; 95_test_vectors.md S9). -/
def Obligations.DelayAfterTicks : Prop :=
  ∀ l s t, runAgents l s = .next t → SetsNoDelay l s → t.cancelled = false →
    t.dt.toNat = s.dt.toNat - l.count .timerTick

/-! ### Whole-machine rules of the registers -/

/-- R20, R21, R24: an instruction writes no V register but its destination and, for the flag writers, VF, and it writes I only
where `writesI` says; and R36, R38: what it writes is written from then on, unless it faulted or holds (the marks: log 9). The
FX0A that completes with a handed key is one of these instructions (R193). -/
def Obligations.OnlyDestinationsAreWritten : Prop :=
  ∀ i s t, (s.coreMode = .running ∨ ∃ x y k, i = .ldVxK x ∧ s.coreMode = .wakeKey y k) → exec i s = .next t →
    (∀ r, r ∉ writtenRegs i → t.v[r] = s.v[r] ∧ t.unwrittenV[r] = s.unwrittenV[r]) ∧
    (writesI s.config i = false → t.i = s.i ∧ t.unwrittenI = s.unwrittenI) ∧
    (t.coreMode = .running →
      (∀ r ∈ writtenRegs i, t.unwrittenV[r] = false) ∧ (writesI s.config i = true → t.unwrittenI = false))

/-- R36, R38, R215: under `RESET_REGS = unwritten` an instruction that takes a snapshot of an unwritten register faults with
UNWRITTEN_READ before its other checks, at the lowest such V register, then I; under `zero` no instruction faults so. Which
reads count (`snapshotRegs`, `snapshotsI`) is the model's reading (log 9). -/
def Obligations.UnwrittenReadComesFirst : Prop :=
  (∀ i s r, s.config.resetRegs = .unwritten → r ∈ snapshotRegs s.config i → s.unwrittenV[r] = true →
    (∀ q, q < r → q ∈ snapshotRegs s.config i → s.unwrittenV[q] = false) →
    Raises i s (.unwrittenRead (.v r) s.pc)) ∧
  (∀ i s, s.config.resetRegs = .unwritten → (∀ q ∈ snapshotRegs s.config i, s.unwrittenV[q] = false) →
    snapshotsI i = true → s.unwrittenI = true → Raises i s (.unwrittenRead .i s.pc)) ∧
  (∀ i s t r pc, s.config.resetRegs = .zero → s.coreMode = .running → exec i s = .next t →
    t.coreMode ≠ .faulted (.unwrittenRead r pc))

/-- R24, R25, R34, R53: memory changes only by FX33 and FX55, the stack only by CALL and RET, I only by ANNN, FX1E and FX29 (and
FX55 and FX65 under `MEM_INCREMENTS_I = true`), and the latch only by the keyboard host. -/
def Obligations.StateHasItsWriters : Prop :=
  ∀ a s t, agentStep a s = .next t →
    (t.mem = s.mem ∨ (a = .core ∧ ∃ x, Fetches s (.ldBVx x) ∨ Fetches s (.storeRegs x))) ∧
    ((t.stack = s.stack ∧ t.depth = s.depth) ∨ (a = .core ∧ (Fetches s .ret ∨ ∃ nnn, Fetches s (.call nnn)))) ∧
    (t.i = s.i ∨ (a = .core ∧ ((∃ nnn, Fetches s (.ldI nnn)) ∨ (∃ x, Fetches s (.addIVx x) ∨ Fetches s (.ldFVx x)) ∨
      (s.config.memIncrementsI = true ∧ ∃ x, Fetches s (.storeRegs x) ∨ Fetches s (.loadRegs x))))) ∧
    (t.latch = s.latch ∨ (∃ k, a = .keyPressed k) ∨ a = .clearKeys)

/-- R100, R211: an instruction that is no jump, call or return advances PC by exactly 2 where it completes, or by 4 where it is
a skip; an instruction that faults or holds leaves PC where it was. -/
def Obligations.PcAdvancesByTwo : Prop :=
  ∀ i s t, s.coreMode = .running → exec i s = .next t →
    (t.coreMode ≠ .running → t.pc = s.pc) ∧
    (t.coreMode = .running → i ≠ .ret → (∀ nnn, i ≠ .jp nnn ∧ i ≠ .call nnn ∧ i ≠ .jpV0 nnn) →
      t.pc = s.pc + 2 ∨
      (t.pc = s.pc + 4 ∧ ∃ x y nn, i = .seImm x nn ∨ i = .sneImm x nn ∨ i = .seReg x y ∨ i = .sneReg x y ∨ i = .skp x ∨
        i = .sknp x))

/-- R7: the configuration parameters are the machine's own constants: no step changes one (State carries them: log 6). -/
def Obligations.ParametersNeverChange : Prop :=
  ∀ s t, step s = .next t → t.config = s.config

/-! ### Invariants -/

/-- Every step of every agent keeps the invariant: memory canonical and inside 0..4095, PC in 0..4350, return addresses at
most 4096, the register a waiting core carries the one of the FX0A at PC (log 7), the channel within its capacity, a stopped timer without a sample, a held core without a token. -/
def Obligations.StepKeepsTheInvariant : Prop :=
  ∀ s t, s.Inv → step s = .next t → t.Inv

/-- The invariant holds right after reset, and after a boot with any parameters and any ROM the boot accepts. -/
def Obligations.ResetMeetsTheInvariant : Prop :=
  State.reset.Inv ∧ ∀ p rom s, boot p rom = .next s → s.Inv

/-- R23: in every state of every session, with any parameters, ROM and interleaving of the agents, PC lies in 0..4350, and
at most at 4094 while the core waits in FX0A. -/
def Obligations.PcStaysInRange : Prop :=
  ∀ p rom s, Reachable p rom s → s.pc.toNat ≤ 4350 ∧
    ∀ x, (s.coreMode = .heldKey x ∨ ∃ k, s.coreMode = .wakeKey x k) → s.pc.toNat ≤ 4094

/-! ### Reset and boot -/

/-- R36-R42, R44: the reset values after a boot with any parameters and ROM (`State.reset` is the one with the defaults and no
ROM). V, I, FB, DT, ST, the latch and the token are the spec's decision D19 (log 19); under `RESET_REGS = unwritten` every V
register and I is unwritten (the marks: log 9). -/
def Obligations.ResetValues : Prop :=
  boot Config.default [] = .next State.reset ∧
  ∀ p rom s, boot p rom = .next s →
    s.pc = 512 ∧ s.sp = -1 ∧
    (p.resetRegs = .zero → (∀ r : Reg, s.v[r] = 0 ∧ s.unwrittenV[r] = false) ∧ s.i = 0 ∧ s.unwrittenI = false) ∧
    (p.resetRegs = .unwritten → (∀ r : Reg, s.unwrittenV[r] = true) ∧ s.unwrittenI = true) ∧
    (∀ idx, idx < 2048 → s.fb.cell idx = false) ∧ s.drawLog = [] ∧
    s.dt = 0 ∧ s.st = 0 ∧ s.pending = none ∧ s.chan = [] ∧ s.sampleLog = [] ∧
    s.latch = none ∧ s.token = none ∧
    s.coreMode = .running ∧ s.cancelled = false ∧ s.timerStopped = false

/-- R43, R64, R65: the boot leaves the font at 0..79, the ROM from 512 (what does not fit is not written) and 0 elsewhere;
under `ROM_OVERSIZE = refuse` it refuses a ROM longer than 3584 bytes. -/
def Obligations.BootLoadsFontAndRom : Prop :=
  ∀ p (rom : List Byte),
    (p.romOversize = .refuse → 3584 < rom.length → boot p rom = .refused .romTooLong) ∧
    (p.romOversize = .truncate ∨ rom.length ≤ 3584 →
      ∃ s, boot p rom = .next s ∧ s.config = p ∧ s.pc = 512 ∧ s.coreMode = .running ∧
        (∀ a, ∀ h : a < 80, s.byteAt a = p.font[a]) ∧
        (∀ k, ∀ h : k < rom.length, 512 + k ≤ 4095 → s.byteAt (512 + k) = rom[k]) ∧
        (∀ a, 80 ≤ a → a < 512 ∨ 512 + rom.length ≤ a → a ≤ 4095 → s.byteAt a = 0))

/-! ### The other agents -/

/-- R225: an enabled tick takes both counters down by one with a floor of 0 and leaves the new ST pending; after cancellation
it stops the timer; otherwise there is no tick. -/
def Obligations.TimerTickCountsDown : Prop :=
  ∀ s, (s.timerStopped = false → s.pending = none → s.cancelled = false →
      ∃ t, agentStep .timerTick s = .next t ∧ t.dt.toNat = s.dt.toNat - 1 ∧ t.st.toNat = s.st.toNat - 1 ∧
        t.pending = some t.st ∧ { t with dt := s.dt, st := s.st, pending := none } = s) ∧
    (s.timerStopped = false → s.pending = none → s.cancelled = true →
      agentStep .timerTick s = .next { s with timerStopped := true, pending := none }) ∧
    (s.timerStopped = true ∨ s.pending ≠ none → ∀ t, agentStep .timerTick s ≠ .next t)

/-- R226, R227: the pending sample goes to a channel with room, or with capacity 0 straight to the sink, and the Sample event
is emitted (the log of them: log 13); after cancellation it is dropped, at capacity 0 by the sink's receive too (the model's
reading: log 14); the sink removes the oldest sample of the channel, whatever is pending. -/
def Obligations.SamplesGoThroughTheChannel : Prop :=
  (∀ s b, s.pending = some b →
    (s.cancelled = false → s.chan.length < s.config.soundChannelCapacity →
      agentStep .handOff s =
        .next { s with chan := s.chan ++ [b], pending := none, sampleLog := s.sampleLog ++ [b] }) ∧
    (s.cancelled = false → s.config.soundChannelCapacity ≤ s.chan.length → ∀ t, agentStep .handOff s ≠ .next t) ∧
    (s.cancelled = true → agentStep .handOff s = .next { s with timerStopped := true, pending := none }) ∧
    (s.config.soundChannelCapacity = 0 → s.chan = [] →
      (s.cancelled = false →
        agentStep .sinkReceive s = .next { s with pending := none, sampleLog := s.sampleLog ++ [b] }) ∧
      (s.cancelled = true → agentStep .sinkReceive s = .next { s with timerStopped := true, pending := none }))) ∧
  (∀ s c rest, s.chan = c :: rest → agentStep .sinkReceive s = .next { s with chan := rest }) ∧
  (∀ s, s.pending = none → ∀ t, agentStep .handOff s ≠ .next t) ∧
  (∀ s, s.chan = [] → s.pending = none ∨ s.config.soundChannelCapacity ≠ 0 → ∀ t, agentStep .sinkReceive s ≠ .next t)

/-- R228, R231, R235: KeyPressed(k) sets the latch and gives k to a held core, else to the token; Clear() empties both and
takes nothing from a core already handed a key; k > 15, and any key event after cancellation, is no move.
That a press on a held core leaves the token as it is (R228: it stays empty) is log 20, and that the mode keeps FX0A's register
log 7. -/
def Obligations.KeyEvents : Prop :=
  (∀ s (k : Key) x, s.cancelled = false → s.coreMode = .heldKey x →
    agentStep (.keyPressed k.val) s = .next { s with latch := some k, coreMode := .wakeKey x k }) ∧
  (∀ s (k : Key), s.cancelled = false → (∀ x, s.coreMode ≠ .heldKey x) →
    agentStep (.keyPressed k.val) s = .next { s with latch := some k, token := some k }) ∧
  (∀ s, s.cancelled = false → agentStep .clearKeys s = .next { s with latch := none, token := none }) ∧
  (∀ s k, 15 < k → ∀ t, agentStep (.keyPressed k) s ≠ .next t) ∧
  (∀ s k, s.cancelled = true → (∀ t, agentStep (.keyPressed k) s ≠ .next t) ∧ ∀ t, agentStep .clearKeys s ≠ .next t)

/-- R234: cancellation is set once and never cleared; after it the core's next step from Running stops it with no
instruction run, a core handed a key first completes its FX0A, a held core stays held, and the timer's next step stops
it. That the completed FX0A writes the register the mode carries is log 7. -/
def Obligations.CancellationStopsTheLoops : Prop :=
  (∀ s, s.cancelled = false → agentStep .cancel s = .next { s with cancelled := true }) ∧
  (∀ a s t, agentStep a s = .next t → s.cancelled = true → t.cancelled = true) ∧
  (∀ s, s.cancelled = true → s.coreMode = .running → agentStep .core s = .next { s with coreMode := .stopped }) ∧
  (∀ s x (k : Key), s.cancelled = true → s.coreMode = .wakeKey x k →
    ∃ t, agentStep .core s = .next t ∧ t.v[x].toNat = k.val ∧ t.coreMode = .running) ∧
  (∀ a s t x, s.cancelled = true → s.coreMode = .heldKey x → agentStep a s = .next t → t.coreMode = .heldKey x) ∧
  (∀ s, s.cancelled = true → s.timerStopped = false →
    ∃ a, (a = .timerTick ∨ a = .handOff) ∧
      agentStep a s = .next { s with timerStopped := true, pending := none })

/-- R222, R225-R228, R231, R234, R235: an agent's step takes place exactly when it is enabled (a refusal is the model's form
of no step: log 3). -/
def Obligations.AgentsStepExactlyWhenEnabled : Prop :=
  ∀ a s, enabled a s = true ↔ ∃ t, agentStep a s = .next t

/-- R237: in every weakly fair run without cancellation that starts with the timer not stopped, the timer ticks again and
again, whatever the capacity of the sound channel. -/
def Obligations.FairRunsKeepTicking : Prop :=
  ∀ run : InfiniteRun, run.WeaklyFair → (∀ n, (run.states n).cancelled = false) → (run.states 0).timerStopped = false →
    ∀ n, ∃ m, n ≤ m ∧ run.moves m = .timerTick
end

