-- ==== Sys2Proof/Laws/State.lean ====
section
/-! SUPPORT. One lemma per field per named update of the state, true by rfl, so that no proof unfolds an update. -/

namespace Sys2Proof.Machine

/-! ### `State.raise` -/

@[simp] theorem State.raise_config (s : State) (f : Fault) : (s.raise f).config = s.config := rfl
@[simp] theorem State.raise_v (s : State) (f : Fault) : (s.raise f).v = s.v := rfl
@[simp] theorem State.raise_i (s : State) (f : Fault) : (s.raise f).i = s.i := rfl
@[simp] theorem State.raise_pc (s : State) (f : Fault) : (s.raise f).pc = s.pc := rfl
@[simp] theorem State.raise_stack (s : State) (f : Fault) : (s.raise f).stack = s.stack := rfl
@[simp] theorem State.raise_depth (s : State) (f : Fault) : (s.raise f).depth = s.depth := rfl
@[simp] theorem State.raise_mem (s : State) (f : Fault) : (s.raise f).mem = s.mem := rfl
@[simp] theorem State.raise_fb (s : State) (f : Fault) : (s.raise f).fb = s.fb := rfl
@[simp] theorem State.raise_dt (s : State) (f : Fault) : (s.raise f).dt = s.dt := rfl
@[simp] theorem State.raise_st (s : State) (f : Fault) : (s.raise f).st = s.st := rfl
@[simp] theorem State.raise_latch (s : State) (f : Fault) : (s.raise f).latch = s.latch := rfl
@[simp] theorem State.raise_token (s : State) (f : Fault) : (s.raise f).token = s.token := rfl
@[simp] theorem State.raise_pending (s : State) (f : Fault) : (s.raise f).pending = s.pending := rfl
@[simp] theorem State.raise_chan (s : State) (f : Fault) : (s.raise f).chan = s.chan := rfl
@[simp] theorem State.raise_coreMode (s : State) (f : Fault) : (s.raise f).coreMode = .faulted f := rfl
@[simp] theorem State.raise_cancelled (s : State) (f : Fault) : (s.raise f).cancelled = s.cancelled := rfl
@[simp] theorem State.raise_timerStopped (s : State) (f : Fault) : (s.raise f).timerStopped = s.timerStopped := rfl
@[simp] theorem State.raise_unwrittenV (s : State) (f : Fault) : (s.raise f).unwrittenV = s.unwrittenV := rfl
@[simp] theorem State.raise_unwrittenI (s : State) (f : Fault) : (s.raise f).unwrittenI = s.unwrittenI := rfl
@[simp] theorem State.raise_freeIndex (s : State) (f : Fault) : (s.raise f).freeIndex = s.freeIndex := rfl
@[simp] theorem State.raise_drawLog (s : State) (f : Fault) : (s.raise f).drawLog = s.drawLog := rfl
@[simp] theorem State.raise_sampleLog (s : State) (f : Fault) : (s.raise f).sampleLog = s.sampleLog := rfl
@[simp] theorem State.raise_schedule (s : State) (f : Fault) : (s.raise f).schedule = s.schedule := rfl

/-! ### `State.setV` -/

@[simp] theorem State.setV_config (s : State) (r : Reg) (b : Byte) : (s.setV r b).config = s.config := rfl
@[simp] theorem State.setV_v (s : State) (r : Reg) (b : Byte) : (s.setV r b).v = s.v.set r b := rfl
@[simp] theorem State.setV_i (s : State) (r : Reg) (b : Byte) : (s.setV r b).i = s.i := rfl
@[simp] theorem State.setV_pc (s : State) (r : Reg) (b : Byte) : (s.setV r b).pc = s.pc := rfl
@[simp] theorem State.setV_stack (s : State) (r : Reg) (b : Byte) : (s.setV r b).stack = s.stack := rfl
@[simp] theorem State.setV_depth (s : State) (r : Reg) (b : Byte) : (s.setV r b).depth = s.depth := rfl
@[simp] theorem State.setV_mem (s : State) (r : Reg) (b : Byte) : (s.setV r b).mem = s.mem := rfl
@[simp] theorem State.setV_fb (s : State) (r : Reg) (b : Byte) : (s.setV r b).fb = s.fb := rfl
@[simp] theorem State.setV_dt (s : State) (r : Reg) (b : Byte) : (s.setV r b).dt = s.dt := rfl
@[simp] theorem State.setV_st (s : State) (r : Reg) (b : Byte) : (s.setV r b).st = s.st := rfl
@[simp] theorem State.setV_latch (s : State) (r : Reg) (b : Byte) : (s.setV r b).latch = s.latch := rfl
@[simp] theorem State.setV_token (s : State) (r : Reg) (b : Byte) : (s.setV r b).token = s.token := rfl
@[simp] theorem State.setV_pending (s : State) (r : Reg) (b : Byte) : (s.setV r b).pending = s.pending := rfl
@[simp] theorem State.setV_chan (s : State) (r : Reg) (b : Byte) : (s.setV r b).chan = s.chan := rfl
@[simp] theorem State.setV_coreMode (s : State) (r : Reg) (b : Byte) : (s.setV r b).coreMode = s.coreMode := rfl
@[simp] theorem State.setV_cancelled (s : State) (r : Reg) (b : Byte) : (s.setV r b).cancelled = s.cancelled := rfl
@[simp] theorem State.setV_timerStopped (s : State) (r : Reg) (b : Byte) : (s.setV r b).timerStopped = s.timerStopped := rfl
@[simp] theorem State.setV_unwrittenV (s : State) (r : Reg) (b : Byte) : (s.setV r b).unwrittenV = s.unwrittenV.set r false := rfl
@[simp] theorem State.setV_unwrittenI (s : State) (r : Reg) (b : Byte) : (s.setV r b).unwrittenI = s.unwrittenI := rfl
@[simp] theorem State.setV_freeIndex (s : State) (r : Reg) (b : Byte) : (s.setV r b).freeIndex = s.freeIndex := rfl
@[simp] theorem State.setV_drawLog (s : State) (r : Reg) (b : Byte) : (s.setV r b).drawLog = s.drawLog := rfl
@[simp] theorem State.setV_sampleLog (s : State) (r : Reg) (b : Byte) : (s.setV r b).sampleLog = s.sampleLog := rfl
@[simp] theorem State.setV_schedule (s : State) (r : Reg) (b : Byte) : (s.setV r b).schedule = s.schedule := rfl

/-! ### `State.setI` -/

@[simp] theorem State.setI_config (s : State) (w : Word) : (s.setI w).config = s.config := rfl
@[simp] theorem State.setI_v (s : State) (w : Word) : (s.setI w).v = s.v := rfl
@[simp] theorem State.setI_i (s : State) (w : Word) : (s.setI w).i = w := rfl
@[simp] theorem State.setI_pc (s : State) (w : Word) : (s.setI w).pc = s.pc := rfl
@[simp] theorem State.setI_stack (s : State) (w : Word) : (s.setI w).stack = s.stack := rfl
@[simp] theorem State.setI_depth (s : State) (w : Word) : (s.setI w).depth = s.depth := rfl
@[simp] theorem State.setI_mem (s : State) (w : Word) : (s.setI w).mem = s.mem := rfl
@[simp] theorem State.setI_fb (s : State) (w : Word) : (s.setI w).fb = s.fb := rfl
@[simp] theorem State.setI_dt (s : State) (w : Word) : (s.setI w).dt = s.dt := rfl
@[simp] theorem State.setI_st (s : State) (w : Word) : (s.setI w).st = s.st := rfl
@[simp] theorem State.setI_latch (s : State) (w : Word) : (s.setI w).latch = s.latch := rfl
@[simp] theorem State.setI_token (s : State) (w : Word) : (s.setI w).token = s.token := rfl
@[simp] theorem State.setI_pending (s : State) (w : Word) : (s.setI w).pending = s.pending := rfl
@[simp] theorem State.setI_chan (s : State) (w : Word) : (s.setI w).chan = s.chan := rfl
@[simp] theorem State.setI_coreMode (s : State) (w : Word) : (s.setI w).coreMode = s.coreMode := rfl
@[simp] theorem State.setI_cancelled (s : State) (w : Word) : (s.setI w).cancelled = s.cancelled := rfl
@[simp] theorem State.setI_timerStopped (s : State) (w : Word) : (s.setI w).timerStopped = s.timerStopped := rfl
@[simp] theorem State.setI_unwrittenV (s : State) (w : Word) : (s.setI w).unwrittenV = s.unwrittenV := rfl
@[simp] theorem State.setI_unwrittenI (s : State) (w : Word) : (s.setI w).unwrittenI = false := rfl
@[simp] theorem State.setI_freeIndex (s : State) (w : Word) : (s.setI w).freeIndex = s.freeIndex := rfl
@[simp] theorem State.setI_drawLog (s : State) (w : Word) : (s.setI w).drawLog = s.drawLog := rfl
@[simp] theorem State.setI_sampleLog (s : State) (w : Word) : (s.setI w).sampleLog = s.sampleLog := rfl
@[simp] theorem State.setI_schedule (s : State) (w : Word) : (s.setI w).schedule = s.schedule := rfl

/-! ### `State.setPc` -/

@[simp] theorem State.setPc_config (s : State) (w : Word) : (s.setPc w).config = s.config := rfl
@[simp] theorem State.setPc_v (s : State) (w : Word) : (s.setPc w).v = s.v := rfl
@[simp] theorem State.setPc_i (s : State) (w : Word) : (s.setPc w).i = s.i := rfl
@[simp] theorem State.setPc_pc (s : State) (w : Word) : (s.setPc w).pc = w := rfl
@[simp] theorem State.setPc_stack (s : State) (w : Word) : (s.setPc w).stack = s.stack := rfl
@[simp] theorem State.setPc_depth (s : State) (w : Word) : (s.setPc w).depth = s.depth := rfl
@[simp] theorem State.setPc_mem (s : State) (w : Word) : (s.setPc w).mem = s.mem := rfl
@[simp] theorem State.setPc_fb (s : State) (w : Word) : (s.setPc w).fb = s.fb := rfl
@[simp] theorem State.setPc_dt (s : State) (w : Word) : (s.setPc w).dt = s.dt := rfl
@[simp] theorem State.setPc_st (s : State) (w : Word) : (s.setPc w).st = s.st := rfl
@[simp] theorem State.setPc_latch (s : State) (w : Word) : (s.setPc w).latch = s.latch := rfl
@[simp] theorem State.setPc_token (s : State) (w : Word) : (s.setPc w).token = s.token := rfl
@[simp] theorem State.setPc_pending (s : State) (w : Word) : (s.setPc w).pending = s.pending := rfl
@[simp] theorem State.setPc_chan (s : State) (w : Word) : (s.setPc w).chan = s.chan := rfl
@[simp] theorem State.setPc_coreMode (s : State) (w : Word) : (s.setPc w).coreMode = s.coreMode := rfl
@[simp] theorem State.setPc_cancelled (s : State) (w : Word) : (s.setPc w).cancelled = s.cancelled := rfl
@[simp] theorem State.setPc_timerStopped (s : State) (w : Word) : (s.setPc w).timerStopped = s.timerStopped := rfl
@[simp] theorem State.setPc_unwrittenV (s : State) (w : Word) : (s.setPc w).unwrittenV = s.unwrittenV := rfl
@[simp] theorem State.setPc_unwrittenI (s : State) (w : Word) : (s.setPc w).unwrittenI = s.unwrittenI := rfl
@[simp] theorem State.setPc_freeIndex (s : State) (w : Word) : (s.setPc w).freeIndex = s.freeIndex := rfl
@[simp] theorem State.setPc_drawLog (s : State) (w : Word) : (s.setPc w).drawLog = s.drawLog := rfl
@[simp] theorem State.setPc_sampleLog (s : State) (w : Word) : (s.setPc w).sampleLog = s.sampleLog := rfl
@[simp] theorem State.setPc_schedule (s : State) (w : Word) : (s.setPc w).schedule = s.schedule := rfl

/-! ### `State.advance` -/

@[simp] theorem State.advance_config (s : State) : (s.advance).config = s.config := rfl
@[simp] theorem State.advance_v (s : State) : (s.advance).v = s.v := rfl
@[simp] theorem State.advance_i (s : State) : (s.advance).i = s.i := rfl
@[simp] theorem State.advance_pc (s : State) : (s.advance).pc = s.pc + 2 := rfl
@[simp] theorem State.advance_stack (s : State) : (s.advance).stack = s.stack := rfl
@[simp] theorem State.advance_depth (s : State) : (s.advance).depth = s.depth := rfl
@[simp] theorem State.advance_mem (s : State) : (s.advance).mem = s.mem := rfl
@[simp] theorem State.advance_fb (s : State) : (s.advance).fb = s.fb := rfl
@[simp] theorem State.advance_dt (s : State) : (s.advance).dt = s.dt := rfl
@[simp] theorem State.advance_st (s : State) : (s.advance).st = s.st := rfl
@[simp] theorem State.advance_latch (s : State) : (s.advance).latch = s.latch := rfl
@[simp] theorem State.advance_token (s : State) : (s.advance).token = s.token := rfl
@[simp] theorem State.advance_pending (s : State) : (s.advance).pending = s.pending := rfl
@[simp] theorem State.advance_chan (s : State) : (s.advance).chan = s.chan := rfl
@[simp] theorem State.advance_coreMode (s : State) : (s.advance).coreMode = s.coreMode := rfl
@[simp] theorem State.advance_cancelled (s : State) : (s.advance).cancelled = s.cancelled := rfl
@[simp] theorem State.advance_timerStopped (s : State) : (s.advance).timerStopped = s.timerStopped := rfl
@[simp] theorem State.advance_unwrittenV (s : State) : (s.advance).unwrittenV = s.unwrittenV := rfl
@[simp] theorem State.advance_unwrittenI (s : State) : (s.advance).unwrittenI = s.unwrittenI := rfl
@[simp] theorem State.advance_freeIndex (s : State) : (s.advance).freeIndex = s.freeIndex := rfl
@[simp] theorem State.advance_drawLog (s : State) : (s.advance).drawLog = s.drawLog := rfl
@[simp] theorem State.advance_sampleLog (s : State) : (s.advance).sampleLog = s.sampleLog := rfl
@[simp] theorem State.advance_schedule (s : State) : (s.advance).schedule = s.schedule := rfl

/-! ### `State.skipIf` -/

@[simp] theorem State.skipIf_config (s : State) (c : Bool) : (s.skipIf c).config = s.config := rfl
@[simp] theorem State.skipIf_v (s : State) (c : Bool) : (s.skipIf c).v = s.v := rfl
@[simp] theorem State.skipIf_i (s : State) (c : Bool) : (s.skipIf c).i = s.i := rfl
@[simp] theorem State.skipIf_pc (s : State) (c : Bool) : (s.skipIf c).pc = if c then s.pc + 4 else s.pc + 2 := rfl
@[simp] theorem State.skipIf_stack (s : State) (c : Bool) : (s.skipIf c).stack = s.stack := rfl
@[simp] theorem State.skipIf_depth (s : State) (c : Bool) : (s.skipIf c).depth = s.depth := rfl
@[simp] theorem State.skipIf_mem (s : State) (c : Bool) : (s.skipIf c).mem = s.mem := rfl
@[simp] theorem State.skipIf_fb (s : State) (c : Bool) : (s.skipIf c).fb = s.fb := rfl
@[simp] theorem State.skipIf_dt (s : State) (c : Bool) : (s.skipIf c).dt = s.dt := rfl
@[simp] theorem State.skipIf_st (s : State) (c : Bool) : (s.skipIf c).st = s.st := rfl
@[simp] theorem State.skipIf_latch (s : State) (c : Bool) : (s.skipIf c).latch = s.latch := rfl
@[simp] theorem State.skipIf_token (s : State) (c : Bool) : (s.skipIf c).token = s.token := rfl
@[simp] theorem State.skipIf_pending (s : State) (c : Bool) : (s.skipIf c).pending = s.pending := rfl
@[simp] theorem State.skipIf_chan (s : State) (c : Bool) : (s.skipIf c).chan = s.chan := rfl
@[simp] theorem State.skipIf_coreMode (s : State) (c : Bool) : (s.skipIf c).coreMode = s.coreMode := rfl
@[simp] theorem State.skipIf_cancelled (s : State) (c : Bool) : (s.skipIf c).cancelled = s.cancelled := rfl
@[simp] theorem State.skipIf_timerStopped (s : State) (c : Bool) : (s.skipIf c).timerStopped = s.timerStopped := rfl
@[simp] theorem State.skipIf_unwrittenV (s : State) (c : Bool) : (s.skipIf c).unwrittenV = s.unwrittenV := rfl
@[simp] theorem State.skipIf_unwrittenI (s : State) (c : Bool) : (s.skipIf c).unwrittenI = s.unwrittenI := rfl
@[simp] theorem State.skipIf_freeIndex (s : State) (c : Bool) : (s.skipIf c).freeIndex = s.freeIndex := rfl
@[simp] theorem State.skipIf_drawLog (s : State) (c : Bool) : (s.skipIf c).drawLog = s.drawLog := rfl
@[simp] theorem State.skipIf_sampleLog (s : State) (c : Bool) : (s.skipIf c).sampleLog = s.sampleLog := rfl
@[simp] theorem State.skipIf_schedule (s : State) (c : Bool) : (s.skipIf c).schedule = s.schedule := rfl

/-! ### `State.setByte` -/

@[simp] theorem State.setByte_config (s : State) (a : Nat) (b : Byte) : (s.setByte a b).config = s.config := rfl
@[simp] theorem State.setByte_v (s : State) (a : Nat) (b : Byte) : (s.setByte a b).v = s.v := rfl
@[simp] theorem State.setByte_i (s : State) (a : Nat) (b : Byte) : (s.setByte a b).i = s.i := rfl
@[simp] theorem State.setByte_pc (s : State) (a : Nat) (b : Byte) : (s.setByte a b).pc = s.pc := rfl
@[simp] theorem State.setByte_stack (s : State) (a : Nat) (b : Byte) : (s.setByte a b).stack = s.stack := rfl
@[simp] theorem State.setByte_depth (s : State) (a : Nat) (b : Byte) : (s.setByte a b).depth = s.depth := rfl
@[simp] theorem State.setByte_mem (s : State) (a : Nat) (b : Byte) : (s.setByte a b).mem = Memory.write s.config.font s.mem a b := rfl
@[simp] theorem State.setByte_fb (s : State) (a : Nat) (b : Byte) : (s.setByte a b).fb = s.fb := rfl
@[simp] theorem State.setByte_dt (s : State) (a : Nat) (b : Byte) : (s.setByte a b).dt = s.dt := rfl
@[simp] theorem State.setByte_st (s : State) (a : Nat) (b : Byte) : (s.setByte a b).st = s.st := rfl
@[simp] theorem State.setByte_latch (s : State) (a : Nat) (b : Byte) : (s.setByte a b).latch = s.latch := rfl
@[simp] theorem State.setByte_token (s : State) (a : Nat) (b : Byte) : (s.setByte a b).token = s.token := rfl
@[simp] theorem State.setByte_pending (s : State) (a : Nat) (b : Byte) : (s.setByte a b).pending = s.pending := rfl
@[simp] theorem State.setByte_chan (s : State) (a : Nat) (b : Byte) : (s.setByte a b).chan = s.chan := rfl
@[simp] theorem State.setByte_coreMode (s : State) (a : Nat) (b : Byte) : (s.setByte a b).coreMode = s.coreMode := rfl
@[simp] theorem State.setByte_cancelled (s : State) (a : Nat) (b : Byte) : (s.setByte a b).cancelled = s.cancelled := rfl
@[simp] theorem State.setByte_timerStopped (s : State) (a : Nat) (b : Byte) : (s.setByte a b).timerStopped = s.timerStopped := rfl
@[simp] theorem State.setByte_unwrittenV (s : State) (a : Nat) (b : Byte) : (s.setByte a b).unwrittenV = s.unwrittenV := rfl
@[simp] theorem State.setByte_unwrittenI (s : State) (a : Nat) (b : Byte) : (s.setByte a b).unwrittenI = s.unwrittenI := rfl
@[simp] theorem State.setByte_freeIndex (s : State) (a : Nat) (b : Byte) : (s.setByte a b).freeIndex = s.freeIndex := rfl
@[simp] theorem State.setByte_drawLog (s : State) (a : Nat) (b : Byte) : (s.setByte a b).drawLog = s.drawLog := rfl
@[simp] theorem State.setByte_sampleLog (s : State) (a : Nat) (b : Byte) : (s.setByte a b).sampleLog = s.sampleLog := rfl
@[simp] theorem State.setByte_schedule (s : State) (a : Nat) (b : Byte) : (s.setByte a b).schedule = s.schedule := rfl

/-! ### `State.emitDraw` -/

@[simp] theorem State.emitDraw_config (s : State) : (s.emitDraw).config = s.config := rfl
@[simp] theorem State.emitDraw_v (s : State) : (s.emitDraw).v = s.v := rfl
@[simp] theorem State.emitDraw_i (s : State) : (s.emitDraw).i = s.i := rfl
@[simp] theorem State.emitDraw_pc (s : State) : (s.emitDraw).pc = s.pc := rfl
@[simp] theorem State.emitDraw_stack (s : State) : (s.emitDraw).stack = s.stack := rfl
@[simp] theorem State.emitDraw_depth (s : State) : (s.emitDraw).depth = s.depth := rfl
@[simp] theorem State.emitDraw_mem (s : State) : (s.emitDraw).mem = s.mem := rfl
@[simp] theorem State.emitDraw_fb (s : State) : (s.emitDraw).fb = s.fb := rfl
@[simp] theorem State.emitDraw_dt (s : State) : (s.emitDraw).dt = s.dt := rfl
@[simp] theorem State.emitDraw_st (s : State) : (s.emitDraw).st = s.st := rfl
@[simp] theorem State.emitDraw_latch (s : State) : (s.emitDraw).latch = s.latch := rfl
@[simp] theorem State.emitDraw_token (s : State) : (s.emitDraw).token = s.token := rfl
@[simp] theorem State.emitDraw_pending (s : State) : (s.emitDraw).pending = s.pending := rfl
@[simp] theorem State.emitDraw_chan (s : State) : (s.emitDraw).chan = s.chan := rfl
@[simp] theorem State.emitDraw_coreMode (s : State) : (s.emitDraw).coreMode = s.coreMode := rfl
@[simp] theorem State.emitDraw_cancelled (s : State) : (s.emitDraw).cancelled = s.cancelled := rfl
@[simp] theorem State.emitDraw_timerStopped (s : State) : (s.emitDraw).timerStopped = s.timerStopped := rfl
@[simp] theorem State.emitDraw_unwrittenV (s : State) : (s.emitDraw).unwrittenV = s.unwrittenV := rfl
@[simp] theorem State.emitDraw_unwrittenI (s : State) : (s.emitDraw).unwrittenI = s.unwrittenI := rfl
@[simp] theorem State.emitDraw_freeIndex (s : State) : (s.emitDraw).freeIndex = s.freeIndex := rfl
@[simp] theorem State.emitDraw_drawLog (s : State) : (s.emitDraw).drawLog = s.drawLog ++ [s.fb] := rfl
@[simp] theorem State.emitDraw_sampleLog (s : State) : (s.emitDraw).sampleLog = s.sampleLog := rfl
@[simp] theorem State.emitDraw_schedule (s : State) : (s.emitDraw).schedule = s.schedule := rfl

/-! ### `State.setDelay` -/

@[simp] theorem State.setDelay_config (s : State) (b : Byte) : (s.setDelay b).config = s.config := rfl
@[simp] theorem State.setDelay_v (s : State) (b : Byte) : (s.setDelay b).v = s.v := rfl
@[simp] theorem State.setDelay_i (s : State) (b : Byte) : (s.setDelay b).i = s.i := rfl
@[simp] theorem State.setDelay_pc (s : State) (b : Byte) : (s.setDelay b).pc = s.pc := rfl
@[simp] theorem State.setDelay_stack (s : State) (b : Byte) : (s.setDelay b).stack = s.stack := rfl
@[simp] theorem State.setDelay_depth (s : State) (b : Byte) : (s.setDelay b).depth = s.depth := rfl
@[simp] theorem State.setDelay_mem (s : State) (b : Byte) : (s.setDelay b).mem = s.mem := rfl
@[simp] theorem State.setDelay_fb (s : State) (b : Byte) : (s.setDelay b).fb = s.fb := rfl
@[simp] theorem State.setDelay_dt (s : State) (b : Byte) : (s.setDelay b).dt = b := rfl
@[simp] theorem State.setDelay_st (s : State) (b : Byte) : (s.setDelay b).st = s.st := rfl
@[simp] theorem State.setDelay_latch (s : State) (b : Byte) : (s.setDelay b).latch = s.latch := rfl
@[simp] theorem State.setDelay_token (s : State) (b : Byte) : (s.setDelay b).token = s.token := rfl
@[simp] theorem State.setDelay_pending (s : State) (b : Byte) : (s.setDelay b).pending = s.pending := rfl
@[simp] theorem State.setDelay_chan (s : State) (b : Byte) : (s.setDelay b).chan = s.chan := rfl
@[simp] theorem State.setDelay_coreMode (s : State) (b : Byte) : (s.setDelay b).coreMode = s.coreMode := rfl
@[simp] theorem State.setDelay_cancelled (s : State) (b : Byte) : (s.setDelay b).cancelled = s.cancelled := rfl
@[simp] theorem State.setDelay_timerStopped (s : State) (b : Byte) : (s.setDelay b).timerStopped = s.timerStopped := rfl
@[simp] theorem State.setDelay_unwrittenV (s : State) (b : Byte) : (s.setDelay b).unwrittenV = s.unwrittenV := rfl
@[simp] theorem State.setDelay_unwrittenI (s : State) (b : Byte) : (s.setDelay b).unwrittenI = s.unwrittenI := rfl
@[simp] theorem State.setDelay_freeIndex (s : State) (b : Byte) : (s.setDelay b).freeIndex = s.freeIndex := rfl
@[simp] theorem State.setDelay_drawLog (s : State) (b : Byte) : (s.setDelay b).drawLog = s.drawLog := rfl
@[simp] theorem State.setDelay_sampleLog (s : State) (b : Byte) : (s.setDelay b).sampleLog = s.sampleLog := rfl
@[simp] theorem State.setDelay_schedule (s : State) (b : Byte) : (s.setDelay b).schedule = s.schedule := rfl

/-! ### `State.setSound` -/

@[simp] theorem State.setSound_config (s : State) (b : Byte) : (s.setSound b).config = s.config := rfl
@[simp] theorem State.setSound_v (s : State) (b : Byte) : (s.setSound b).v = s.v := rfl
@[simp] theorem State.setSound_i (s : State) (b : Byte) : (s.setSound b).i = s.i := rfl
@[simp] theorem State.setSound_pc (s : State) (b : Byte) : (s.setSound b).pc = s.pc := rfl
@[simp] theorem State.setSound_stack (s : State) (b : Byte) : (s.setSound b).stack = s.stack := rfl
@[simp] theorem State.setSound_depth (s : State) (b : Byte) : (s.setSound b).depth = s.depth := rfl
@[simp] theorem State.setSound_mem (s : State) (b : Byte) : (s.setSound b).mem = s.mem := rfl
@[simp] theorem State.setSound_fb (s : State) (b : Byte) : (s.setSound b).fb = s.fb := rfl
@[simp] theorem State.setSound_dt (s : State) (b : Byte) : (s.setSound b).dt = s.dt := rfl
@[simp] theorem State.setSound_st (s : State) (b : Byte) : (s.setSound b).st = b := rfl
@[simp] theorem State.setSound_latch (s : State) (b : Byte) : (s.setSound b).latch = s.latch := rfl
@[simp] theorem State.setSound_token (s : State) (b : Byte) : (s.setSound b).token = s.token := rfl
@[simp] theorem State.setSound_pending (s : State) (b : Byte) : (s.setSound b).pending = s.pending := rfl
@[simp] theorem State.setSound_chan (s : State) (b : Byte) : (s.setSound b).chan = s.chan := rfl
@[simp] theorem State.setSound_coreMode (s : State) (b : Byte) : (s.setSound b).coreMode = s.coreMode := rfl
@[simp] theorem State.setSound_cancelled (s : State) (b : Byte) : (s.setSound b).cancelled = s.cancelled := rfl
@[simp] theorem State.setSound_timerStopped (s : State) (b : Byte) : (s.setSound b).timerStopped = s.timerStopped := rfl
@[simp] theorem State.setSound_unwrittenV (s : State) (b : Byte) : (s.setSound b).unwrittenV = s.unwrittenV := rfl
@[simp] theorem State.setSound_unwrittenI (s : State) (b : Byte) : (s.setSound b).unwrittenI = s.unwrittenI := rfl
@[simp] theorem State.setSound_freeIndex (s : State) (b : Byte) : (s.setSound b).freeIndex = s.freeIndex := rfl
@[simp] theorem State.setSound_drawLog (s : State) (b : Byte) : (s.setSound b).drawLog = s.drawLog := rfl
@[simp] theorem State.setSound_sampleLog (s : State) (b : Byte) : (s.setSound b).sampleLog = s.sampleLog := rfl
@[simp] theorem State.setSound_schedule (s : State) (b : Byte) : (s.setSound b).schedule = s.schedule := rfl

/-! ### `State.stopTimer` -/

@[simp] theorem State.stopTimer_config (s : State) : (s.stopTimer).config = s.config := rfl
@[simp] theorem State.stopTimer_v (s : State) : (s.stopTimer).v = s.v := rfl
@[simp] theorem State.stopTimer_i (s : State) : (s.stopTimer).i = s.i := rfl
@[simp] theorem State.stopTimer_pc (s : State) : (s.stopTimer).pc = s.pc := rfl
@[simp] theorem State.stopTimer_stack (s : State) : (s.stopTimer).stack = s.stack := rfl
@[simp] theorem State.stopTimer_depth (s : State) : (s.stopTimer).depth = s.depth := rfl
@[simp] theorem State.stopTimer_mem (s : State) : (s.stopTimer).mem = s.mem := rfl
@[simp] theorem State.stopTimer_fb (s : State) : (s.stopTimer).fb = s.fb := rfl
@[simp] theorem State.stopTimer_dt (s : State) : (s.stopTimer).dt = s.dt := rfl
@[simp] theorem State.stopTimer_st (s : State) : (s.stopTimer).st = s.st := rfl
@[simp] theorem State.stopTimer_latch (s : State) : (s.stopTimer).latch = s.latch := rfl
@[simp] theorem State.stopTimer_token (s : State) : (s.stopTimer).token = s.token := rfl
@[simp] theorem State.stopTimer_pending (s : State) : (s.stopTimer).pending = none := rfl
@[simp] theorem State.stopTimer_chan (s : State) : (s.stopTimer).chan = s.chan := rfl
@[simp] theorem State.stopTimer_coreMode (s : State) : (s.stopTimer).coreMode = s.coreMode := rfl
@[simp] theorem State.stopTimer_cancelled (s : State) : (s.stopTimer).cancelled = s.cancelled := rfl
@[simp] theorem State.stopTimer_timerStopped (s : State) : (s.stopTimer).timerStopped = true := rfl
@[simp] theorem State.stopTimer_unwrittenV (s : State) : (s.stopTimer).unwrittenV = s.unwrittenV := rfl
@[simp] theorem State.stopTimer_unwrittenI (s : State) : (s.stopTimer).unwrittenI = s.unwrittenI := rfl
@[simp] theorem State.stopTimer_freeIndex (s : State) : (s.stopTimer).freeIndex = s.freeIndex := rfl
@[simp] theorem State.stopTimer_drawLog (s : State) : (s.stopTimer).drawLog = s.drawLog := rfl
@[simp] theorem State.stopTimer_sampleLog (s : State) : (s.stopTimer).sampleLog = s.sampleLog := rfl
@[simp] theorem State.stopTimer_schedule (s : State) : (s.stopTimer).schedule = s.schedule := rfl

/-! ### `State.rand8` -/

@[simp] theorem State.rand8_fst (s : State) : s.rand8.1 = Config.rand8 s.freeIndex := rfl
@[simp] theorem State.rand8_snd_config (s : State) : s.rand8.2.config = s.config := rfl
@[simp] theorem State.rand8_snd_v (s : State) : s.rand8.2.v = s.v := rfl
@[simp] theorem State.rand8_snd_i (s : State) : s.rand8.2.i = s.i := rfl
@[simp] theorem State.rand8_snd_pc (s : State) : s.rand8.2.pc = s.pc := rfl
@[simp] theorem State.rand8_snd_stack (s : State) : s.rand8.2.stack = s.stack := rfl
@[simp] theorem State.rand8_snd_depth (s : State) : s.rand8.2.depth = s.depth := rfl
@[simp] theorem State.rand8_snd_mem (s : State) : s.rand8.2.mem = s.mem := rfl
@[simp] theorem State.rand8_snd_fb (s : State) : s.rand8.2.fb = s.fb := rfl
@[simp] theorem State.rand8_snd_dt (s : State) : s.rand8.2.dt = s.dt := rfl
@[simp] theorem State.rand8_snd_st (s : State) : s.rand8.2.st = s.st := rfl
@[simp] theorem State.rand8_snd_latch (s : State) : s.rand8.2.latch = s.latch := rfl
@[simp] theorem State.rand8_snd_token (s : State) : s.rand8.2.token = s.token := rfl
@[simp] theorem State.rand8_snd_pending (s : State) : s.rand8.2.pending = s.pending := rfl
@[simp] theorem State.rand8_snd_chan (s : State) : s.rand8.2.chan = s.chan := rfl
@[simp] theorem State.rand8_snd_coreMode (s : State) : s.rand8.2.coreMode = s.coreMode := rfl
@[simp] theorem State.rand8_snd_cancelled (s : State) : s.rand8.2.cancelled = s.cancelled := rfl
@[simp] theorem State.rand8_snd_timerStopped (s : State) : s.rand8.2.timerStopped = s.timerStopped := rfl
@[simp] theorem State.rand8_snd_unwrittenV (s : State) : s.rand8.2.unwrittenV = s.unwrittenV := rfl
@[simp] theorem State.rand8_snd_unwrittenI (s : State) : s.rand8.2.unwrittenI = s.unwrittenI := rfl
@[simp] theorem State.rand8_snd_freeIndex (s : State) : s.rand8.2.freeIndex = s.freeIndex + 1 := rfl
@[simp] theorem State.rand8_snd_drawLog (s : State) : s.rand8.2.drawLog = s.drawLog := rfl
@[simp] theorem State.rand8_snd_sampleLog (s : State) : s.rand8.2.sampleLog = s.sampleLog := rfl
@[simp] theorem State.rand8_snd_schedule (s : State) : s.rand8.2.schedule = s.schedule := rfl

/-! ### `State.drawFlagByte` -/

@[simp] theorem State.drawFlagByte_fst (s : State) : s.drawFlagByte.1 = Config.flagByte s.freeIndex := rfl
@[simp] theorem State.drawFlagByte_snd_config (s : State) : s.drawFlagByte.2.config = s.config := rfl
@[simp] theorem State.drawFlagByte_snd_v (s : State) : s.drawFlagByte.2.v = s.v := rfl
@[simp] theorem State.drawFlagByte_snd_i (s : State) : s.drawFlagByte.2.i = s.i := rfl
@[simp] theorem State.drawFlagByte_snd_pc (s : State) : s.drawFlagByte.2.pc = s.pc := rfl
@[simp] theorem State.drawFlagByte_snd_stack (s : State) : s.drawFlagByte.2.stack = s.stack := rfl
@[simp] theorem State.drawFlagByte_snd_depth (s : State) : s.drawFlagByte.2.depth = s.depth := rfl
@[simp] theorem State.drawFlagByte_snd_mem (s : State) : s.drawFlagByte.2.mem = s.mem := rfl
@[simp] theorem State.drawFlagByte_snd_fb (s : State) : s.drawFlagByte.2.fb = s.fb := rfl
@[simp] theorem State.drawFlagByte_snd_dt (s : State) : s.drawFlagByte.2.dt = s.dt := rfl
@[simp] theorem State.drawFlagByte_snd_st (s : State) : s.drawFlagByte.2.st = s.st := rfl
@[simp] theorem State.drawFlagByte_snd_latch (s : State) : s.drawFlagByte.2.latch = s.latch := rfl
@[simp] theorem State.drawFlagByte_snd_token (s : State) : s.drawFlagByte.2.token = s.token := rfl
@[simp] theorem State.drawFlagByte_snd_pending (s : State) : s.drawFlagByte.2.pending = s.pending := rfl
@[simp] theorem State.drawFlagByte_snd_chan (s : State) : s.drawFlagByte.2.chan = s.chan := rfl
@[simp] theorem State.drawFlagByte_snd_coreMode (s : State) : s.drawFlagByte.2.coreMode = s.coreMode := rfl
@[simp] theorem State.drawFlagByte_snd_cancelled (s : State) : s.drawFlagByte.2.cancelled = s.cancelled := rfl
@[simp] theorem State.drawFlagByte_snd_timerStopped (s : State) : s.drawFlagByte.2.timerStopped = s.timerStopped := rfl
@[simp] theorem State.drawFlagByte_snd_unwrittenV (s : State) : s.drawFlagByte.2.unwrittenV = s.unwrittenV := rfl
@[simp] theorem State.drawFlagByte_snd_unwrittenI (s : State) : s.drawFlagByte.2.unwrittenI = s.unwrittenI := rfl
@[simp] theorem State.drawFlagByte_snd_freeIndex (s : State) : s.drawFlagByte.2.freeIndex = s.freeIndex + 1 := rfl
@[simp] theorem State.drawFlagByte_snd_drawLog (s : State) : s.drawFlagByte.2.drawLog = s.drawLog := rfl
@[simp] theorem State.drawFlagByte_snd_sampleLog (s : State) : s.drawFlagByte.2.sampleLog = s.sampleLog := rfl
@[simp] theorem State.drawFlagByte_snd_schedule (s : State) : s.drawFlagByte.2.schedule = s.schedule := rfl

end Sys2Proof.Machine
end

