-- ==== Sys2Proof/Laws/Memory.lean ====
section
/-! SUPPORT. The laws of memory: a read after a write, and the canonical form that every write keeps. -/

namespace Sys2Proof.Machine

variable {font : Font}

theorem Memory.read_erase_same (m : Memory) (a : Nat) :
    Memory.read font (Memory.erase m a) a = Memory.unlisted font a := by
  induction m with
  | nil => rfl
  | cons c rest ih =>
    by_cases h : c.1 = a <;> simp_all [Memory.erase, Memory.read]

theorem Memory.read_erase_other (m : Memory) {a p : Nat} (h : p ≠ a) :
    Memory.read font (Memory.erase m a) p = Memory.read font m p := by
  induction m with
  | nil => rfl
  | cons c rest ih =>
    by_cases hc : c.1 = a
    · have : c.1 ≠ p := by omega
      simp_all [Memory.erase, Memory.read]
    · simp_all [Memory.erase, Memory.read]

theorem Memory.read_insert_same (m : Memory) (a : Nat) (b : Byte) (h : ∀ c ∈ m, c.1 ≠ a) :
    Memory.read font (Memory.insert m a b) a = b := by
  induction m with
  | nil => simp [Memory.insert, Memory.read]
  | cons c rest ih =>
    simp only [Memory.insert]
    split
    · simp [Memory.read]
    · simp_all [Memory.read]

theorem Memory.read_insert_other (m : Memory) {a p : Nat} (b : Byte) (h : p ≠ a) :
    Memory.read font (Memory.insert m a b) p = Memory.read font m p := by
  have h' : a ≠ p := Ne.symm h
  induction m with
  | nil => simp [Memory.insert, Memory.read, h']
  | cons c rest ih =>
    simp only [Memory.insert]
    split
    · simp [Memory.read, h']
    · simp [Memory.read, ih]

theorem Memory.not_mem_erase (m : Memory) (a : Nat) : ∀ c ∈ Memory.erase m a, c.1 ≠ a := by
  intro c hc
  simp_all [Memory.erase]

theorem Memory.read_write_same (m : Memory) (a : Nat) (b : Byte) :
    Memory.read font (Memory.write font m a b) a = b := by
  unfold Memory.write
  split
  · rename_i h; rw [Memory.read_erase_same, h]
  · exact Memory.read_insert_same _ _ _ (Memory.not_mem_erase m a)

theorem Memory.read_write_other (m : Memory) {a p : Nat} (b : Byte) (h : p ≠ a) :
    Memory.read font (Memory.write font m a b) p = Memory.read font m p := by
  unfold Memory.write
  split
  · exact Memory.read_erase_other m h
  · rw [Memory.read_insert_other _ _ h, Memory.read_erase_other m h]

theorem Memory.mem_insert (m : Memory) (a : Nat) (b : Byte) (c : Host.Cell) :
    c ∈ Memory.insert m a b ↔ c = (a, b) ∨ c ∈ m := by
  induction m with
  | nil => simp [Memory.insert]
  | cons d rest ih =>
    simp only [Memory.insert]
    split
    · simp
    · simp [ih]; tauto

theorem Memory.rising_erase (m : Memory) (a : Nat) (h : Memory.rising m = true) :
    Memory.rising (Memory.erase m a) = true := by
  induction m with
  | nil => rfl
  | cons c rest ih =>
    simp only [Memory.rising, Bool.and_eq_true, List.all_eq_true, decide_eq_true_eq] at h
    have ih' := ih h.2
    by_cases hc : c.1 = a
    · simpa [Memory.erase, hc] using ih'
    · simp only [Memory.erase] at ih' ⊢
      simp only [List.filter]
      simp only [show (c.1 != a) = true by simpa using hc, Memory.rising, Bool.and_eq_true, List.all_eq_true,
        decide_eq_true_eq]
      exact ⟨fun d hd => h.1 d (List.mem_filter.1 hd).1, ih'⟩

theorem Memory.rising_insert (m : Memory) (a : Nat) (b : Byte) (h : Memory.rising m = true)
    (hn : ∀ c ∈ m, c.1 ≠ a) : Memory.rising (Memory.insert m a b) = true := by
  induction m with
  | nil => rfl
  | cons c rest ih =>
    have h' := h
    simp only [Memory.rising, Bool.and_eq_true, List.all_eq_true, decide_eq_true_eq] at h
    simp only [Memory.insert]
    split
    · rename_i hlt
      simp only [Memory.rising, Bool.and_eq_true, List.all_eq_true, decide_eq_true_eq]
      refine ⟨fun d hd => ?_, h.1, h.2⟩
      rcases List.mem_cons.1 hd with rfl | hd
      · exact hlt
      · exact Nat.lt_trans hlt (h.1 d hd)
    · rename_i hge
      simp only [Memory.rising, Bool.and_eq_true, List.all_eq_true, decide_eq_true_eq]
      refine ⟨fun d hd => ?_, ih h.2 (fun d hd => hn d (List.mem_cons_of_mem _ hd))⟩
      have hne : c.1 ≠ a := hn c (by simp)
      rcases (Memory.mem_insert rest a b d).1 hd with rfl | hd
      · show c.1 < a
        omega
      · exact h.1 d hd

/-- Every write of a byte inside the address space keeps the canonical form. -/
theorem Memory.wf_write (m : Memory) (a : Nat) (b : Byte) (ha : a < 4096) (h : Memory.wf font m = true) :
    Memory.wf font (Memory.write font m a b) = true := by
  simp only [Memory.wf, Bool.and_eq_true, List.all_eq_true, decide_eq_true_eq, bne_iff_ne, ne_eq] at h ⊢
  have he : ∀ c ∈ Memory.erase m a, c.1 < 4096 ∧ ¬c.2 = Memory.unlisted font c.1 := fun c hc =>
    h.2 c (List.mem_filter.1 hc).1
  unfold Memory.write
  split
  · exact ⟨Memory.rising_erase m a h.1, he⟩
  · rename_i hb
    refine ⟨Memory.rising_insert _ a b (Memory.rising_erase m a h.1) (Memory.not_mem_erase m a), fun c hc => ?_⟩
    rcases (Memory.mem_insert _ a b c).1 hc with rfl | hc
    · exact ⟨ha, hb⟩
    · exact he c hc

/-! ### The same for the state's memory -/

@[simp] theorem State.byteAt_setByte_same (s : State) (a : Nat) (b : Byte) : (s.setByte a b).byteAt a = b := by
  simp [State.byteAt, Memory.read_write_same]

theorem State.byteAt_setByte_other (s : State) {a p : Nat} (b : Byte) (h : p ≠ a) :
    (s.setByte a b).byteAt p = s.byteAt p := by
  simp [State.byteAt, Memory.read_write_other _ _ h]

/-- Two states with the same parameters and memory hold the same bytes. -/
theorem State.byteAt_congr {s t : State} (hc : t.config.font = s.config.font) (hm : t.mem = s.mem) (a : Nat) :
    t.byteAt a = s.byteAt a := by
  simp [State.byteAt, hc, hm]

/-- Every field but memory is untouched by a store of several bytes. -/
theorem State.storeBytes_eq (s : State) (a : Nat) (bytes : List Byte) :
    s.storeBytes a bytes = { s with mem := (s.storeBytes a bytes).mem } := by
  induction bytes generalizing s a with
  | nil => rfl
  | cons b rest ih =>
    show (s.setByte a b).storeBytes (a + 1) rest = _
    rw [ih (s.setByte a b) (a + 1)]
    rfl

/-- What a store of several bytes leaves at an address. -/
theorem State.byteAt_storeBytes (s : State) (a : Nat) (bytes : List Byte) (p : Nat) :
    (s.storeBytes a bytes).byteAt p =
      if a ≤ p then (match bytes[p - a]? with | some b => b | none => s.byteAt p) else s.byteAt p := by
  induction bytes generalizing s a with
  | nil => simp [State.storeBytes]
  | cons b rest ih =>
    rw [State.storeBytes, ih]
    by_cases h : p = a
    · subst h; simp
    · rw [State.byteAt_setByte_other s b h]
      by_cases h2 : a ≤ p
      · have h3 : a + 1 ≤ p := by omega
        have h4 : p - a = (p - (a + 1)) + 1 := by omega
        simp only [if_pos h2, if_pos h3, h4, List.getElem?_cons_succ]
      · have h3 : ¬ a + 1 ≤ p := by omega
        simp only [if_neg h2, if_neg h3]

/-- A store of several bytes inside the address space keeps the canonical form. -/
theorem State.wf_storeBytes (s : State) (a : Nat) (bytes : List Byte) (ha : a + bytes.length ≤ 4096)
    (h : Memory.wf s.config.font s.mem = true) :
    Memory.wf s.config.font (s.storeBytes a bytes).mem = true := by
  induction bytes generalizing s a with
  | nil => exact h
  | cons b rest ih =>
    have hlen : a + (rest.length + 1) ≤ 4096 := by simpa using ha
    exact ih (s.setByte a b) (a + 1) (by omega) (Memory.wf_write s.mem a b (by omega) h)

end Sys2Proof.Machine
end

