-- ==== Sys2Proof/Laws/Ops.lean ====
section
/-! SUPPORT. One lemma for each shared operation: what it answers, and when. -/

namespace Sys2Proof.Machine

@[simp] theorem State.settle_ok (s t : State) : s.settle (.ok t) = .next t := rfl

@[simp] theorem State.settle_error (s : State) (f : Fault) : s.settle (.error f) = .next (s.raise f) := rfl

@[simp] theorem ok_bind {α β : Type} (a : α) (k : α → Except Fault β) : ((Except.ok a : Except Fault α) >>= k) = k a := rfl

@[simp] theorem error_bind {α β : Type} (f : Fault) (k : α → Except Fault β) :
    ((Except.error f : Except Fault α) >>= k) = .error f := rfl

@[simp] theorem pure_eq_ok {α : Type} (a : α) : (pure a : Except Fault α) = .ok a := rfl

/-- Whatever an instruction computed, its step answers a next state: what it computed, or the start state with the fault. -/
theorem State.settle_cases (s : State) (r : Except Fault State) :
    (∃ t, r = .ok t ∧ s.settle r = .next t) ∨ (∃ f, r = .error f ∧ s.settle r = .next (s.raise f)) := by
  cases r with
  | ok t => exact .inl ⟨t, rfl, rfl⟩
  | error f => exact .inr ⟨f, rfl, rfl⟩

/-! ### Snapshots -/

theorem State.firstUnwritten_eq_none (s : State) (vs : List Reg) (usesI : Bool) :
    s.firstUnwritten vs usesI = none ↔ s.Readable vs usesI := by
  unfold State.firstUnwritten State.Readable State.unwrittenReg State.unwrittenIndex
  cases hr : s.config.resetRegs with
  | zero =>
    have hf : (List.finRange 16).find? (fun _ => false) = none := List.find?_eq_none.2 (by simp)
    simp [hf, show (ResetRegs.zero == ResetRegs.unwritten) = false from rfl]
  | unwritten =>
    cases hf : (List.finRange 16).find?
        (fun r => vs.contains r && (ResetRegs.unwritten == ResetRegs.unwritten && s.unwrittenV[r])) with
    | none =>
      have hw := List.find?_eq_none.1 hf
      have hall : ∀ r ∈ vs, s.unwrittenV[r] = false := fun r hv => by simpa [hv] using hw r (List.mem_finRange r)
      cases usesI <;> cases s.unwrittenI <;> simp <;> simpa using hall
    | some r =>
      have hs := List.find?_some hf
      simp only [Bool.and_eq_true, List.contains_iff_mem, beq_self_eq_true, true_and] at hs
      simp only [reduceCtorEq, false_or, false_iff, not_and]
      exact fun h => absurd (h r hs.1) (by simp [hs.2])

/-- A snapshot of readable registers raises nothing. -/
theorem State.snapshot_of_readable {s : State} {vs : List Reg} {usesI : Bool} (h : s.Readable vs usesI) :
    s.snapshot vs usesI = .ok () := by
  simp [State.snapshot, (s.firstUnwritten_eq_none vs usesI).2 h]

/-- All a snapshot can answer: nothing raised, or UNWRITTEN_READ with the PC of the instruction. -/
theorem State.snapshot_cases (s : State) (vs : List Reg) (usesI : Bool) :
    (s.Readable vs usesI ∧ s.snapshot vs usesI = .ok ()) ∨
    (∃ r, s.firstUnwritten vs usesI = some r ∧ s.config.resetRegs = .unwritten ∧
      s.snapshot vs usesI = .error (.unwrittenRead r s.pc)) := by
  cases h : s.firstUnwritten vs usesI with
  | none => exact .inl ⟨(s.firstUnwritten_eq_none vs usesI).1 h, by simp [State.snapshot, h]⟩
  | some r =>
    refine .inr ⟨r, rfl, ?_, by simp [State.snapshot, h]⟩
    cases hr : s.config.resetRegs with
    | unwritten => rfl
    | zero => exact absurd ((s.firstUnwritten_eq_none vs usesI).2 (.inl hr)) (by simp [h])

/-! ### Range checks -/

/-- The lowest out-of-range address, in closed form. -/
theorem firstOutOfRange_eq (a n : Nat) :
    firstOutOfRange a n = if n = 0 ∨ a + n ≤ 4096 then none else some (max a 4096) := by
  unfold firstOutOfRange
  split
  · rename_i h
    rw [List.find?_eq_none]
    intro b hb
    simp only [List.mem_map, List.mem_range] at hb
    obtain ⟨k, hk, rfl⟩ := hb
    simp only [decide_eq_true_eq]
    omega
  · rename_i h
    obtain ⟨hn, ha⟩ := not_or.1 h
    have hsplit : List.range n = List.range (max a 4096 - a) ++ (max a 4096 - a) ::
        (List.range (n - (max a 4096 - a) - 1)).map (· + (max a 4096 - a) + 1) := by
      have h1 : n = (max a 4096 - a) + (1 + (n - (max a 4096 - a) - 1)) := by omega
      conv_lhs => rw [h1]
      rw [List.range_add, List.range_add]
      simp [List.map_map, Function.comp_def, Nat.add_assoc, Nat.add_comm, Nat.add_left_comm]
    rw [hsplit, List.map_append, List.find?_append]
    have hfirst : ((List.range (max a 4096 - a)).map (a + ·)).find? (fun b => decide (4095 < b)) = none := by
      rw [List.find?_eq_none]
      intro b hb
      simp only [List.mem_map, List.mem_range] at hb
      obtain ⟨k, hk, rfl⟩ := hb
      simp only [decide_eq_true_eq]
      omega
    have hmax : a + (max a 4096 - a) = max a 4096 := by omega
    rw [hfirst]
    simp only [Option.none_or, List.map_cons, List.find?_cons, hmax]
    rw [show decide (4095 < max a 4096) = true by simp]

/-- A transfer that lies inside memory passes the check. -/
theorem State.checkRange_of_inside {s : State} {a n : Nat} (h : n = 0 ∨ a + n ≤ 4096) : s.checkRange a n = .ok () := by
  simp [State.checkRange, firstOutOfRange_eq, h]

/-- A transfer that does not faults at the lowest address outside. -/
theorem State.checkRange_of_outside {s : State} {a n : Nat} (h : ¬(n = 0 ∨ a + n ≤ 4096)) :
    s.checkRange a n = .error (.memRange (max a 4096) s.pc) := by
  simp [State.checkRange, firstOutOfRange_eq, h]

/-- All a range check can answer. -/
theorem State.checkRange_cases (s : State) (a n : Nat) :
    ((n = 0 ∨ a + n ≤ 4096) ∧ s.checkRange a n = .ok ()) ∨
    (¬(n = 0 ∨ a + n ≤ 4096) ∧ s.checkRange a n = .error (.memRange (max a 4096) s.pc)) := by
  by_cases h : n = 0 ∨ a + n ≤ 4096
  · exact .inl ⟨h, State.checkRange_of_inside h⟩
  · exact .inr ⟨h, State.checkRange_of_outside h⟩

/-- The fetch: the word at PC where both bytes lie inside memory, else MEM_RANGE at the first byte that does not. -/
theorem State.fetchWord_eq (s : State) :
    s.fetchWord =
      if s.pc.toNat ≤ 4094 then .ok (s.byteAt s.pc.toNat ++ s.byteAt (s.pc.toNat + 1))
      else .error (.memRange (max s.pc.toNat 4096) s.pc) := by
  unfold State.fetchWord State.memRead
  by_cases h1 : s.pc.toNat ≤ 4094
  · have h2 : s.pc.toNat ≤ 4095 := by omega
    have h3 : s.pc.toNat + 1 ≤ 4095 := by omega
    rw [if_pos h2, if_pos h3, if_pos h1]
    rfl
  · by_cases h2 : s.pc.toNat ≤ 4095
    · have h3 : ¬ s.pc.toNat + 1 ≤ 4095 := by omega
      have h4 : max s.pc.toNat 4096 = s.pc.toNat + 1 := by omega
      rw [if_pos h2, if_neg h3, if_neg h1, h4]
      rfl
    · have h4 : max s.pc.toNat 4096 = s.pc.toNat := by omega
      rw [if_neg h2, if_neg h1, h4]
      rfl

/-! ### The stack -/

/-- All a push can answer. -/
theorem State.push_cases (s : State) (w : Word) :
    (∃ h : s.depth.val < 16, s.push w =
      .ok { s with stack := s.stack.set s.depth.val w, depth := ⟨s.depth.val + 1, by omega⟩ }) ∨
    (s.depth.val = 16 ∧ s.push w = .error (.stackOverflow s.pc)) := by
  unfold State.push
  by_cases h : s.depth.val < 16
  · exact .inl ⟨h, by simp [h]⟩
  · exact .inr ⟨by omega, by simp [h]⟩

/-- All a pop can answer. -/
theorem State.pop_cases (s : State) :
    (∃ _ : 0 < s.depth.val, s.pop =
      .ok (s.stack[s.depth.val - 1], { s with depth := ⟨s.depth.val - 1, by omega⟩ })) ∨
    (s.depth.val = 0 ∧ s.pop = .error (.stackUnderflow s.pc)) := by
  unfold State.pop
  by_cases h : 0 < s.depth.val
  · exact .inl ⟨h, by simp [h]⟩
  · exact .inr ⟨by omega, by simp [h]⟩

/-! ### Registers -/

theorem State.setV_get (s : State) (r q : Reg) (b : Byte) : (s.setV r b).v[q] = if q = r then b else s.v[q] := by
  by_cases h : q = r
  · subst h; simp [State.setV]
  · have : r.val ≠ q.val := fun e => h (Fin.ext e.symm)
    simp [State.setV, h, this]

theorem State.setV_unwritten (s : State) (r q : Reg) (b : Byte) :
    (s.setV r b).unwrittenV[q] = if q = r then false else s.unwrittenV[q] := by
  by_cases h : q = r
  · subst h; simp [State.setV]
  · have : r.val ≠ q.val := fun e => h (Fin.ext e.symm)
    simp [State.setV, h, this]

/-- R120 in one equation: what a flag-writing ALU instruction does to the state before its PC advance. -/
theorem State.writeResultAndFlag_cases (s : State) (x : Reg) (b : Byte) (c : Bool) :
    ((x ≠ regF ∨ s.config.flagOrder = .flagLast) ∧
      s.writeResultAndFlag x b c = (s.setV x b).setV regF (flagValue c)) ∨
    (x = regF ∧ s.config.flagOrder = .flagAny ∧
      s.writeResultAndFlag x b c =
        ({ s.setV x b with freeIndex := s.freeIndex + 1 } : State).setV regF (Config.flagByte s.freeIndex)) := by
  unfold State.writeResultAndFlag
  cases h : s.config.flagOrder with
  | flagLast => exact .inl ⟨.inr rfl, rfl⟩
  | flagAny =>
    by_cases hx : x = regF
    · exact .inr ⟨hx, rfl, by simp [hx]; rfl⟩
    · exact .inl ⟨.inl hx, by simp [hx]⟩

theorem mem_blockRegs (x r : Reg) : r ∈ blockRegs x ↔ r.val ≤ x.val := by
  revert x r; decide

theorem blockRegs_nodup (x : Reg) : (blockRegs x).Nodup := by
  revert x; decide

/-- A fold of register writes: a register of the list takes its new value, the others keep theirs. -/
theorem State.foldl_setV (l : List Reg) (f : Reg → Byte) (s : State) :
    (∀ q, (l.foldl (fun t r => t.setV r (f r)) s).v[q] = if q ∈ l then f q else s.v[q]) ∧
    (∀ q, (l.foldl (fun t r => t.setV r (f r)) s).unwrittenV[q] = if q ∈ l then false else s.unwrittenV[q]) ∧
    l.foldl (fun t r => t.setV r (f r)) s =
      { s with v := (l.foldl (fun t r => t.setV r (f r)) s).v
               unwrittenV := (l.foldl (fun t r => t.setV r (f r)) s).unwrittenV } := by
  induction l generalizing s with
  | nil => exact ⟨fun q => by simp, fun q => by simp, rfl⟩
  | cons r rest ih =>
    obtain ⟨h1, h2, h3⟩ := ih (s.setV r (f r))
    refine ⟨fun q => ?_, fun q => ?_, ?_⟩
    · rw [List.foldl_cons, h1, State.setV_get]
      by_cases hq : q ∈ rest <;> by_cases hr : q = r <;> simp [hq, hr]
    · rw [List.foldl_cons, h2, State.setV_unwritten]
      by_cases hq : q ∈ rest <;> by_cases hr : q = r <;> simp [hq, hr]
    · rw [List.foldl_cons, h3]
      rfl

/-- R155's loop: V0..Vx take the bytes, the registers above keep theirs, and nothing else changes. -/
theorem State.loadBlock_get (s : State) (a : Nat) (x q : Reg) :
    (s.loadBlock a x).v[q] = if q.val ≤ x.val then s.byteAt (a + q.val) else s.v[q] := by
  have h := (State.foldl_setV (blockRegs x) (fun r => s.byteAt (a + r.val)) s).1 q
  simp only [mem_blockRegs] at h
  exact h

theorem State.loadBlock_unwritten (s : State) (a : Nat) (x q : Reg) :
    (s.loadBlock a x).unwrittenV[q] = if q.val ≤ x.val then false else s.unwrittenV[q] := by
  have h := (State.foldl_setV (blockRegs x) (fun r => s.byteAt (a + r.val)) s).2.1 q
  simp only [mem_blockRegs] at h
  exact h

theorem State.loadBlock_eq (s : State) (a : Nat) (x : Reg) :
    s.loadBlock a x = { s with v := (s.loadBlock a x).v, unwrittenV := (s.loadBlock a x).unwrittenV } :=
  (State.foldl_setV (blockRegs x) (fun r => s.byteAt (a + r.val)) s).2.2

theorem State.blockBytes_length (s : State) (x : Reg) : (s.blockBytes x).length = x.val + 1 := by
  have := x.isLt
  simp only [State.blockBytes, blockRegs, List.length_map, List.length_take, List.length_finRange]
  omega

theorem State.blockBytes_get (s : State) (x k : Reg) (h : k.val ≤ x.val) :
    (s.blockBytes x)[k.val]? = some s.v[k] := by
  have hk := k.isLt
  have hl : k.val < (s.blockBytes x).length := by rw [State.blockBytes_length]; omega
  rw [List.getElem?_eq_getElem hl]
  simp [State.blockBytes, blockRegs]

/-- `bumpI` changes I alone, and only under `MEM_INCREMENTS_I = true`. -/
theorem State.bumpI_eq (s : State) (x : Reg) :
    s.bumpI x = { s with i := (s.bumpI x).i, unwrittenI := (s.bumpI x).unwrittenI } := by
  unfold State.bumpI
  split <;> rfl

end Sys2Proof.Machine
end

