-- ==== Sys2Proof/Laws/Display.lean ====
section
/-! SUPPORT. The blitter: which pixels a sprite has, and what the loop of R171 leaves in each cell. -/

namespace Sys2Proof.Machine

theorem FrameBuffer.cell_flip (fb : FrameBuffer) (i j : Nat) (hi : i < 2048) :
    (fb.flip i).cell j = (fb.cell j ^^ decide (j = i)) := by
  by_cases h : j = i
  · subst h; simp [FrameBuffer.cell, FrameBuffer.flip, hi]
  · have h' : i ≠ j := fun e => h e.symm
    simp [FrameBuffer.cell, FrameBuffer.flip, BitVec.getLsbD_twoPow, h, h']

theorem cellIndex_lt {x y : Nat} (hx : x ≤ 63) (hy : y ≤ 31) : cellIndex x y < 2048 := by
  unfold cellIndex; omega

/-- Two pixels of the screen share a cell only when they are the same pixel. -/
theorem cellIndex_inj {x y x' y' : Nat} (hx : x ≤ 63) (hx' : x' ≤ 63) (h : cellIndex x y = cellIndex x' y') :
    x = x' ∧ y = y' := by
  unfold cellIndex at h; omega

theorem mem_rowPixels (x0 y : Nat) (row : Byte) (p : Pixel) :
    p ∈ rowPixels x0 y row ↔ ∃ c, c < 8 ∧ p = ⟨x0 + c, y, row.getLsbD (7 - c)⟩ := by
  simp only [rowPixels, List.mem_map, List.mem_range]
  exact ⟨fun ⟨c, h, e⟩ => ⟨c, h, e.symm⟩, fun ⟨c, h, e⟩ => ⟨c, h, e.symm⟩⟩

/-- The pixels of a sprite: column c of row r lies at (x0 + c, y0 + r) and is on when bit 7 - c of the row's byte is (R172). -/
theorem mem_spritePixels (x0 y0 : Nat) (rows : List Byte) (p : Pixel) :
    p ∈ spritePixels x0 y0 rows ↔
      ∃ r c, ∃ h : r < rows.length, c < 8 ∧ p = ⟨x0 + c, y0 + r, (rows[r]).getLsbD (7 - c)⟩ := by
  induction rows generalizing y0 with
  | nil => simp [spritePixels]
  | cons row rest ih =>
    rw [spritePixels, List.mem_append, mem_rowPixels, ih]
    constructor
    · rintro (⟨c, hc, rfl⟩ | ⟨r, c, h, hc, rfl⟩)
      · exact ⟨0, c, by simp, hc, by simp⟩
      · exact ⟨r + 1, c, by simpa using h, hc, by simp [Nat.add_assoc, Nat.add_comm 1 r]⟩
    · rintro ⟨r, c, h, hc, rfl⟩
      cases r with
      | zero => exact .inl ⟨c, hc, by simp⟩
      | succ r => exact .inr ⟨r, c, by simpa using h, hc, by simp [Nat.add_assoc, Nat.add_comm 1 r]⟩

/-- No two entries of the list are at the same place. -/
def PlacesDistinct (ps : List Pixel) : Prop := ps.Pairwise (fun p q => ¬(p.x = q.x ∧ p.y = q.y))

theorem rowPixels_distinct (x0 y : Nat) (row : Byte) : PlacesDistinct (rowPixels x0 y row) := by
  unfold PlacesDistinct rowPixels
  rw [List.pairwise_map]
  exact List.nodup_range.imp (fun {a b} hab h => hab (by have := h.1; simp only at this; omega))

theorem spritePixels_distinct (x0 y0 : Nat) (rows : List Byte) : PlacesDistinct (spritePixels x0 y0 rows) := by
  induction rows generalizing y0 with
  | nil => exact List.Pairwise.nil
  | cons row rest ih =>
    refine List.pairwise_append.2 ⟨rowPixels_distinct x0 y0 row, ih (y0 + 1), ?_⟩
    intro p hp q hq h
    obtain ⟨c, _, rfl⟩ := (mem_rowPixels _ _ _ _).1 hp
    obtain ⟨r, d, hr, _, rfl⟩ := (mem_spritePixels _ _ _ _).1 hq
    have := h.2
    simp only at this
    omega

/-- The pixels stand in row-major order (R174). -/
theorem spritePixels_rowMajor (x0 y0 : Nat) (rows : List Byte) :
    (spritePixels x0 y0 rows).Pairwise (fun p q => p.y < q.y ∨ (p.y = q.y ∧ p.x < q.x)) := by
  induction rows generalizing y0 with
  | nil => exact List.Pairwise.nil
  | cons row rest ih =>
    refine List.pairwise_append.2 ⟨?_, ih (y0 + 1), ?_⟩
    · unfold rowPixels
      rw [List.pairwise_map]
      exact List.pairwise_lt_range.imp (fun {a b} hab => .inr ⟨rfl, by simp only; omega⟩)
    · intro p hp q hq
      obtain ⟨c, _, rfl⟩ := (mem_rowPixels _ _ _ _).1 hp
      obtain ⟨r, d, hr, _, rfl⟩ := (mem_spritePixels _ _ _ _).1 hq
      exact .inl (by simp only; omega)

/-- The pixel R174 reports is off the screen, and comes before every other pixel off the screen in row-major order. -/
theorem firstOffScreen_first {scope : DrawOobScope} {x0 y0 : Nat} {rows : List Byte} {p : Pixel}
    (h : firstOffScreen scope (spritePixels x0 y0 rows) = some p) :
    p ∈ spritePixels x0 y0 rows ∧ p.offScreen = true ∧
    ∀ q ∈ spritePixels x0 y0 rows, q.offScreen = true → p = q ∨ p.y < q.y ∨ (p.y = q.y ∧ p.x < q.x) := by
  unfold firstOffScreen at h
  split at h
  · obtain ⟨hp, as, bs, he, hno⟩ := List.find?_eq_some_iff_append.1 h
    refine ⟨List.mem_of_find?_eq_some h, hp, fun q hq hoff => ?_⟩
    have hord := spritePixels_rowMajor x0 y0 rows
    rw [he] at hq hord
    rcases List.mem_append.1 hq with hq | hq
    · simpa [hoff] using hno q hq
    · rcases List.mem_cons.1 hq with rfl | hq
      · exact .inl rfl
      · exact .inr ((List.pairwise_cons.1 (List.pairwise_append.1 hord).2.1).1 q hq)
  · cases h

/-- Every on pixel of the list is on the screen. -/
def OnPixelsOnScreen (ps : List Pixel) : Prop := ∀ p ∈ ps, p.on = true → p.x ≤ 63 ∧ p.y ≤ 31

/-- R171's loop, cell by cell: it flips exactly the cells of the on pixels, and it reports a collision exactly when one of
them was on before. -/
theorem foldl_blitPixel (ps : List Pixel) (acc : FrameBuffer × Bool) (hd : PlacesDistinct ps) (hs : OnPixelsOnScreen ps) :
    (∀ x y, x ≤ 63 → y ≤ 31 → ((ps.foldl blitPixel acc).1.cell (cellIndex x y) =
      (acc.1.cell (cellIndex x y) ^^ decide (∃ p ∈ ps, p.on = true ∧ p.x = x ∧ p.y = y)))) ∧
    ((ps.foldl blitPixel acc).2 =
      (acc.2 || decide (∃ p ∈ ps, p.on = true ∧ acc.1.cell (cellIndex p.x p.y) = true))) := by
  induction ps generalizing acc with
  | nil => simp
  | cons p rest ih =>
    have hd' := List.pairwise_cons.1 hd
    have hs' : OnPixelsOnScreen rest := fun q hq => hs q (List.mem_cons_of_mem _ hq)
    obtain ⟨ih1, ih2⟩ := ih (blitPixel acc p) hd'.2 hs'
    cases hp : p.on with
    | false =>
      have hb : blitPixel acc p = acc := by simp [blitPixel, hp]
      rw [hb] at ih1 ih2
      rw [List.foldl_cons, hb]
      refine ⟨fun x y hx hy => ?_, ?_⟩
      · rw [ih1 x y hx hy]; simp [hp]
      · rw [ih2]; simp [hp]
    | true =>
      obtain ⟨hpx, hpy⟩ := hs p (by simp) hp
      have hlt := cellIndex_lt hpx hpy
      have hb : blitPixel acc p =
          (acc.1.flip (cellIndex p.x p.y), acc.2 || acc.1.cell (cellIndex p.x p.y)) := by simp [blitPixel, hp]
      rw [hb] at ih1 ih2
      rw [List.foldl_cons, hb]
      refine ⟨fun x y hx hy => ?_, ?_⟩
      · rw [ih1 x y hx hy, FrameBuffer.cell_flip _ _ _ hlt]
        by_cases hxy : p.x = x ∧ p.y = y
        · have hno : ¬ ∃ q ∈ rest, q.on = true ∧ q.x = x ∧ q.y = y := by
            rintro ⟨q, hq, _, h1, h2⟩
            exact hd'.1 q hq ⟨hxy.1.trans h1.symm, hxy.2.trans h2.symm⟩
          simp [hno, hxy.1, hxy.2, hp]
        · have hne : cellIndex x y ≠ cellIndex p.x p.y := fun e =>
            hxy ⟨(cellIndex_inj hx hpx e).1.symm, (cellIndex_inj hx hpx e).2.symm⟩
          have hiff : (∃ q ∈ p :: rest, q.on = true ∧ q.x = x ∧ q.y = y) ↔
              ∃ q ∈ rest, q.on = true ∧ q.x = x ∧ q.y = y := by
            simp only [List.mem_cons, exists_eq_or_imp]
            exact or_iff_right (fun h => hxy h.2)
          simp only [hne, decide_false, Bool.xor_false, hiff]
      · rw [ih2]
        have hsame : ∀ q ∈ rest, q.on = true →
            (acc.1.flip (cellIndex p.x p.y)).cell (cellIndex q.x q.y) = acc.1.cell (cellIndex q.x q.y) := by
          intro q hq hqon
          have hqx := (hs' q hq hqon).1
          have hne : cellIndex q.x q.y ≠ cellIndex p.x p.y := fun e =>
            hd'.1 q hq ⟨(cellIndex_inj hqx hpx e).1.symm, (cellIndex_inj hqx hpx e).2.symm⟩
          simp [FrameBuffer.cell_flip _ _ _ hlt, hne]
        have hiff : (∃ q ∈ rest, q.on = true ∧
              (acc.1.flip (cellIndex p.x p.y)).cell (cellIndex q.x q.y) = true) ↔
            ∃ q ∈ rest, q.on = true ∧ acc.1.cell (cellIndex q.x q.y) = true := by
          constructor
          · rintro ⟨q, hq, h1, h2⟩; exact ⟨q, hq, h1, by rwa [hsame q hq h1] at h2⟩
          · rintro ⟨q, hq, h1, h2⟩; exact ⟨q, hq, h1, by rwa [hsame q hq h1]⟩
        simp only [hiff, List.mem_cons, exists_eq_or_imp, hp, true_and, Bool.decide_or, Bool.decide_eq_true,
          Bool.or_assoc]

/-- The same for a sprite drawn from no collision. -/
theorem blit_cell (fb : FrameBuffer) (ps : List Pixel) (hd : PlacesDistinct ps) (hs : OnPixelsOnScreen ps) {x y : Nat}
    (hx : x ≤ 63) (hy : y ≤ 31) :
    (blit fb ps).1.cell (cellIndex x y) =
      (fb.cell (cellIndex x y) ^^ decide (∃ p ∈ ps, p.on = true ∧ p.x = x ∧ p.y = y)) :=
  (foldl_blitPixel ps (fb, false) hd hs).1 x y hx hy

theorem blit_collision (fb : FrameBuffer) (ps : List Pixel) (hd : PlacesDistinct ps) (hs : OnPixelsOnScreen ps) :
    (blit fb ps).2 = decide (∃ p ∈ ps, p.on = true ∧ fb.cell (cellIndex p.x p.y) = true) := by
  have h := (foldl_blitPixel ps (fb, false) hd hs).2
  rw [Bool.false_or] at h
  exact h

/-- Every cell is a pixel's. -/
theorem FrameBuffer.ext_cells {f g : FrameBuffer}
    (h : ∀ x y, x ≤ 63 → y ≤ 31 → f.cell (cellIndex x y) = g.cell (cellIndex x y)) : f = g := by
  apply BitVec.eq_of_getLsbD_eq
  intro i hi
  have := h (i % 64) (i / 64) (by omega) (by omega)
  have hidx : cellIndex (i % 64) (i / 64) = i := by unfold cellIndex; omega
  rwa [hidx] at this

/-- R174 faults exactly when a pixel its scope takes is off the screen. -/
theorem faultsOffScreen_iff (scope : DrawOobScope) (ps : List Pixel) :
    faultsOffScreen scope ps = true ↔ ∃ p ∈ ps, (scope = .box ∨ p.on = true) ∧ (63 < p.x ∨ 31 < p.y) := by
  simp [faultsOffScreen, Pixel.offScreen, and_comm]

/-- A sprite passes R174's check exactly when no pixel it faults on is off the screen. -/
theorem firstOffScreen_eq_none (scope : DrawOobScope) (ps : List Pixel) :
    firstOffScreen scope ps = none ↔ ∀ p ∈ ps, (scope = .box ∨ p.on = true) → p.x ≤ 63 ∧ p.y ≤ 31 := by
  have hf := faultsOffScreen_iff scope ps
  unfold firstOffScreen
  split
  · next h =>
    obtain ⟨p, hp, hsc, hoff⟩ := hf.1 h
    refine iff_of_false (fun hn => ?_) (fun ha => by have := ha p hp hsc; omega)
    exact List.find?_eq_none.1 hn p hp (by simpa [Pixel.offScreen] using hoff)
  · next h => exact iff_of_true rfl (fun p hp hsc => by
      by_contra hc
      exact h (hf.2 ⟨p, hp, hsc, by omega⟩))

/-- All R174's check can answer. -/
theorem State.checkOnScreen_cases (s : State) (ps : List Pixel) :
    (firstOffScreen s.config.drawOobScope ps = none ∧ s.checkOnScreen ps = .ok ()) ∨
    (∃ p, firstOffScreen s.config.drawOobScope ps = some p ∧ s.checkOnScreen ps = .error (.drawRange p.x p.y s.pc)) := by
  unfold State.checkOnScreen
  cases h : firstOffScreen s.config.drawOobScope ps with
  | none => exact .inl ⟨rfl, rfl⟩
  | some p => exact .inr ⟨p, rfl, rfl⟩

end Sys2Proof.Machine
end

