-- ==== Sys2Proof/Laws/Exec.lean ====
section
/-! SUPPORT. For each instruction, everything its execution can answer: the state it leaves, or the fault it raises. -/

namespace Sys2Proof.Machine

/-- A snapshot at the head of an instruction: it is readable and the rest decides, or UNWRITTEN_READ is raised. -/
theorem State.settle_snapshot (s : State) (vs : List Reg) (usesI : Bool) (k : Unit → Except Fault State) :
    (s.Readable vs usesI ∧ s.settle (s.snapshot vs usesI >>= k) = s.settle (k ())) ∨
    (∃ r, s.firstUnwritten vs usesI = some r ∧ s.config.resetRegs = .unwritten ∧
      s.settle (s.snapshot vs usesI >>= k) = .next (s.raise (.unwrittenRead r s.pc))) := by
  rcases s.snapshot_cases vs usesI with ⟨h, e⟩ | ⟨r, h1, h2, e⟩
  · exact .inl ⟨h, by rw [e]; rfl⟩
  · exact .inr ⟨r, h1, h2, by rw [e]; rfl⟩

/-- What an instruction whose one check is its snapshot answers: the state `t`, or UNWRITTEN_READ. -/
abbrev ReadsThen (i : Instr) (s : State) (vs : List Reg) (usesI : Bool) (t : State) : Prop :=
  (s.Readable vs usesI ∧ exec i s = .next t) ∨
  (∃ r, s.firstUnwritten vs usesI = some r ∧ s.config.resetRegs = .unwritten ∧
    exec i s = .next (s.raise (.unwrittenRead r s.pc)))

section Instructions

variable (x y : Reg) (nn : Byte) (nnn : BitVec 12) (s : State)

theorem exec_cls : exec .cls s = .next ({ s with fb := 0 } : State).emitDraw.advance := rfl
theorem exec_jp : exec (.jp nnn) s = .next (s.setPc (addressOf nnn)) := rfl
theorem exec_ldImm : exec (.ldImm x nn) s = .next (s.setV x nn).advance := rfl
theorem exec_ldI : exec (.ldI nnn) s = .next (s.setI (addressOf nnn)).advance := rfl
theorem exec_rnd : exec (.rnd x nn) s = .next (s.rand8.2.setV x (s.rand8.1 &&& nn)).advance := rfl
theorem exec_ldVxDT : exec (.ldVxDT x) s = .next (s.setV x s.dt).advance := rfl
theorem exec_unknown (op : Word) : exec (.unknown op) s = .next s.advance := rfl

theorem exec_ret :
    (∃ _ : 0 < s.depth.val, exec .ret s =
      .next (({ s with depth := ⟨s.depth.val - 1, by omega⟩ } : State).setPc s.stack[s.depth.val - 1])) ∨
    (s.depth.val = 0 ∧ exec .ret s = .next (s.raise (.stackUnderflow s.pc))) := by
  rcases s.pop_cases with ⟨h, e⟩ | ⟨h, e⟩
  · exact .inl ⟨h, by show s.settle (s.pop >>= _) = _; rw [e]; rfl⟩
  · exact .inr ⟨h, by show s.settle (s.pop >>= _) = _; rw [e]; rfl⟩

theorem exec_call :
    (∃ h : s.depth.val < 16, exec (.call nnn) s =
      .next (({ s with stack := s.stack.set s.depth.val (s.pc + 2), depth := ⟨s.depth.val + 1, by omega⟩ } : State).setPc
        (addressOf nnn))) ∨
    (s.depth.val = 16 ∧ exec (.call nnn) s = .next (s.raise (.stackOverflow s.pc))) := by
  rcases s.push_cases (s.pc + 2) with ⟨h, e⟩ | ⟨h, e⟩
  · exact .inl ⟨h, by show s.settle (s.push _ >>= _) = _; rw [e]; rfl⟩
  · exact .inr ⟨h, by show s.settle (s.push _ >>= _) = _; rw [e]; rfl⟩

theorem exec_jpV0 : ReadsThen (.jpV0 nnn) s [reg0] false (s.setPc (offsetTarget s.v[reg0] nnn)) :=
  s.settle_snapshot [reg0] false (fun _ => .ok _)
theorem exec_seImm : ReadsThen (.seImm x nn) s [x] false (s.skipIf (s.v[x] == nn)) :=
  s.settle_snapshot [x] false (fun _ => .ok _)
theorem exec_sneImm : ReadsThen (.sneImm x nn) s [x] false (s.skipIf (s.v[x] != nn)) :=
  s.settle_snapshot [x] false (fun _ => .ok _)
theorem exec_seReg : ReadsThen (.seReg x y) s [x, y] false (s.skipIf (s.v[x] == s.v[y])) :=
  s.settle_snapshot [x, y] false (fun _ => .ok _)
theorem exec_sneReg : ReadsThen (.sneReg x y) s [x, y] false (s.skipIf (s.v[x] != s.v[y])) :=
  s.settle_snapshot [x, y] false (fun _ => .ok _)
theorem exec_addImm : ReadsThen (.addImm x nn) s [x] false (s.setV x (s.v[x] + nn)).advance :=
  s.settle_snapshot [x] false (fun _ => .ok _)
theorem exec_ldReg : ReadsThen (.ldReg x y) s [y] false (s.setV x s.v[y]).advance :=
  s.settle_snapshot [y] false (fun _ => .ok _)
theorem exec_orReg : ReadsThen (.orReg x y) s [x, y] false (s.setV x (s.v[x] ||| s.v[y])).advance :=
  s.settle_snapshot [x, y] false (fun _ => .ok _)
theorem exec_andReg : ReadsThen (.andReg x y) s [x, y] false (s.setV x (s.v[x] &&& s.v[y])).advance :=
  s.settle_snapshot [x, y] false (fun _ => .ok _)
theorem exec_xorReg : ReadsThen (.xorReg x y) s [x, y] false (s.setV x (s.v[x] ^^^ s.v[y])).advance :=
  s.settle_snapshot [x, y] false (fun _ => .ok _)
theorem exec_addReg : ReadsThen (.addReg x y) s [x, y] false
    (s.writeResultAndFlag x (s.v[x] + s.v[y]) (carryFlag s.v[x] s.v[y])).advance :=
  s.settle_snapshot [x, y] false (fun _ => .ok _)
theorem exec_subReg : ReadsThen (.subReg x y) s [x, y] false
    (s.writeResultAndFlag x (s.v[x] - s.v[y]) (noBorrowFlag s.v[x] s.v[y])).advance :=
  s.settle_snapshot [x, y] false (fun _ => .ok _)
theorem exec_subn : ReadsThen (.subn x y) s [x, y] false
    (s.writeResultAndFlag x (s.v[y] - s.v[x]) (noBorrowFlag s.v[y] s.v[x])).advance :=
  s.settle_snapshot [x, y] false (fun _ => .ok _)
theorem exec_shr : ReadsThen (.shr x y) s [s.shiftReg x y] false
    (s.writeResultAndFlag x (s.v[s.shiftReg x y] >>> 1) (lowBitFlag s.v[s.shiftReg x y])).advance :=
  s.settle_snapshot [s.shiftReg x y] false (fun _ => .ok _)
theorem exec_shl : ReadsThen (.shl x y) s [s.shiftReg x y] false
    (s.writeResultAndFlag x (s.v[s.shiftReg x y] <<< 1) (highBitFlag s.v[s.shiftReg x y])).advance :=
  s.settle_snapshot [s.shiftReg x y] false (fun _ => .ok _)
theorem exec_skp : ReadsThen (.skp x) s [x] false (s.skipIf (s.isKeyPressed s.v[x])) :=
  s.settle_snapshot [x] false (fun _ => .ok _)
theorem exec_sknp : ReadsThen (.sknp x) s [x] false (s.skipIf (!s.isKeyPressed s.v[x])) :=
  s.settle_snapshot [x] false (fun _ => .ok _)
theorem exec_ldDTVx : ReadsThen (.ldDTVx x) s [x] false (s.setDelay s.v[x]).advance :=
  s.settle_snapshot [x] false (fun _ => .ok _)
theorem exec_ldSTVx : ReadsThen (.ldSTVx x) s [x] false (s.setSound s.v[x]).advance :=
  s.settle_snapshot [x] false (fun _ => .ok _)
theorem exec_addIVx : ReadsThen (.addIVx x) s [x] true
    ((s.setI (s.i + s.v[x].setWidth 16)).setV regF (flagValue (rangeFlag (s.i + s.v[x].setWidth 16)))).advance :=
  s.settle_snapshot [x] true (fun _ => .ok _)
theorem exec_ldFVx : ReadsThen (.ldFVx x) s [x] false (s.setI (BitVec.ofNat 16 (s.v[x].toNat * 5))).advance :=
  s.settle_snapshot [x] false (fun _ => .ok _)

theorem exec_ldVxK :
    (∃ z k, s.coreMode = .wakeKey z k ∧
      exec (.ldVxK x) s = .next (({ s with coreMode := .running } : State).setV x (keyByte k)).advance) ∨
    ((∀ z k, s.coreMode ≠ .wakeKey z k) ∧ ∃ k, s.token = some k ∧
      exec (.ldVxK x) s = .next (({ s with token := none } : State).setV x (keyByte k)).advance) ∨
    ((∀ z k, s.coreMode ≠ .wakeKey z k) ∧ s.token = none ∧
      exec (.ldVxK x) s = .next { s with coreMode := .heldKey x }) := by
  cases hm : s.coreMode <;> cases ht : s.token <;> simp [exec, execLdVxK, hm, ht]

/-- What an instruction that transfers `n` bytes at I answers: the state `t`, MEM_RANGE at the lowest address outside, or
UNWRITTEN_READ. -/
abbrev TransfersThen (i : Instr) (s : State) (vs : List Reg) (n : Nat) (t : State) : Prop :=
  (s.Readable vs true ∧ (n = 0 ∨ s.i.toNat + n ≤ 4096) ∧ exec i s = .next t) ∨
  (s.Readable vs true ∧ ¬(n = 0 ∨ s.i.toNat + n ≤ 4096) ∧
    exec i s = .next (s.raise (.memRange (max s.i.toNat 4096) s.pc))) ∨
  (∃ r, s.firstUnwritten vs true = some r ∧ s.config.resetRegs = .unwritten ∧
    exec i s = .next (s.raise (.unwrittenRead r s.pc)))

theorem State.settle_transfer (vs : List Reg) (n : Nat) (k : Except Fault State) :
    (s.Readable vs true ∧ (n = 0 ∨ s.i.toNat + n ≤ 4096) ∧
      s.settle (s.snapshot vs true >>= fun _ => s.checkRange (s.effectiveAddr 0) n >>= fun _ => k) = s.settle k) ∨
    (s.Readable vs true ∧ ¬(n = 0 ∨ s.i.toNat + n ≤ 4096) ∧
      s.settle (s.snapshot vs true >>= fun _ => s.checkRange (s.effectiveAddr 0) n >>= fun _ => k) =
        .next (s.raise (.memRange (max s.i.toNat 4096) s.pc))) ∨
    (∃ r, s.firstUnwritten vs true = some r ∧ s.config.resetRegs = .unwritten ∧
      s.settle (s.snapshot vs true >>= fun _ => s.checkRange (s.effectiveAddr 0) n >>= fun _ => k) =
        .next (s.raise (.unwrittenRead r s.pc))) := by
  rcases s.settle_snapshot vs true (fun _ => s.checkRange (s.effectiveAddr 0) n >>= fun _ => k) with ⟨h, e⟩ | h
  · rw [e]
    rcases s.checkRange_cases (s.effectiveAddr 0) n with ⟨h', e'⟩ | ⟨h', e'⟩
    · exact .inl ⟨h, h', by rw [e']; rfl⟩
    · exact .inr (.inl ⟨h, h', by rw [e']; rfl⟩)
  · exact .inr (.inr h)

theorem exec_ldBVx : TransfersThen (.ldBVx x) s [x] 3 (s.storeBytes s.i.toNat (decimalDigits s.v[x])).advance :=
  s.settle_transfer [x] 3 (.ok _)
theorem exec_storeRegs : TransfersThen (.storeRegs x) s (blockRegs x) (x.val + 1)
    ((s.storeBytes s.i.toNat (s.blockBytes x)).bumpI x).advance :=
  s.settle_transfer (blockRegs x) (x.val + 1) (.ok _)
theorem exec_loadRegs : TransfersThen (.loadRegs x) s [] (x.val + 1) ((s.loadBlock s.i.toNat x).bumpI x).advance :=
  s.settle_transfer [] (x.val + 1) (.ok _)

/-- The pixels DXYN draws. -/
def State.drawnPixels (s : State) (x y : Reg) (n : BitVec 4) : List Pixel :=
  spritePixels s.v[x].toNat s.v[y].toNat (s.spriteRows n.toNat)

/-- The pixels DXYN draws: column c of row r lies at (Vx + c, Vy + r), with its bit of the sprite at I (R172). -/
theorem State.mem_drawnPixels (n : BitVec 4) (p : Pixel) :
    p ∈ s.drawnPixels x y n ↔
      ∃ r c, r < n.toNat ∧ c < 8 ∧ p = ⟨s.v[x].toNat + c, s.v[y].toNat + r, spriteBit s r c⟩ := by
  have hlen : (s.spriteRows n.toNat).length = n.toNat := by simp [State.spriteRows]
  have hget : ∀ r, ∀ h : r < (s.spriteRows n.toNat).length,
      (s.spriteRows n.toNat)[r] = s.byteAt (s.i.toNat + r) := by simp [State.spriteRows, State.effectiveAddr]
  unfold State.drawnPixels
  rw [mem_spritePixels]
  constructor
  · rintro ⟨r, c, h, hc, rfl⟩
    exact ⟨r, c, by rwa [hlen] at h, hc, by rw [hget]; rfl⟩
  · rintro ⟨r, c, h, hc, rfl⟩
    exact ⟨r, c, by rwa [hlen], hc, by rw [hget]; rfl⟩

theorem State.drawnPixels_distinct (n : BitVec 4) : PlacesDistinct (s.drawnPixels x y n) := spritePixels_distinct _ _ _

/-- What DXYN leaves where it completes. -/
def State.drawn (s : State) (x y : Reg) (n : BitVec 4) : State :=
  ((({ s with fb := (blit s.fb (s.drawnPixels x y n)).1 } : State).setV regF
    (flagValue (blit s.fb (s.drawnPixels x y n)).2)).emitDraw).advance

theorem exec_drw (n : BitVec 4) :
    (s.Readable [x, y] true ∧ (n.toNat = 0 ∨ s.i.toNat + n.toNat ≤ 4096) ∧
      firstOffScreen s.config.drawOobScope (s.drawnPixels x y n) = none ∧ exec (.drw x y n) s = .next (s.drawn x y n)) ∨
    (s.Readable [x, y] true ∧ (n.toNat = 0 ∨ s.i.toNat + n.toNat ≤ 4096) ∧
      ∃ p, firstOffScreen s.config.drawOobScope (s.drawnPixels x y n) = some p ∧
        exec (.drw x y n) s = .next (s.raise (.drawRange p.x p.y s.pc))) ∨
    (s.Readable [x, y] true ∧ ¬(n.toNat = 0 ∨ s.i.toNat + n.toNat ≤ 4096) ∧
      exec (.drw x y n) s = .next (s.raise (.memRange (max s.i.toNat 4096) s.pc))) ∨
    (∃ r, s.firstUnwritten [x, y] true = some r ∧ s.config.resetRegs = .unwritten ∧
      exec (.drw x y n) s = .next (s.raise (.unwrittenRead r s.pc))) := by
  have hx : exec (.drw x y n) s = s.settle (s.snapshot [x, y] true >>= fun _ =>
      s.checkRange (s.effectiveAddr 0) n.toNat >>= fun _ =>
        (s.checkOnScreen (s.drawnPixels x y n) >>= fun _ => .ok (s.drawn x y n))) := rfl
  rw [hx]
  rcases s.settle_transfer [x, y] n.toNat (s.checkOnScreen (s.drawnPixels x y n) >>= fun _ => .ok (s.drawn x y n)) with
    ⟨h1, h2, e⟩ | h | h
  · rw [e]
    rcases s.checkOnScreen_cases (s.drawnPixels x y n) with ⟨h3, e'⟩ | ⟨p, h3, e'⟩
    · exact .inl ⟨h1, h2, h3, by rw [e']; rfl⟩
    · exact .inr (.inl ⟨h1, h2, p, h3, by rw [e']; rfl⟩)
  · exact .inr (.inr (.inl h))
  · exact .inr (.inr (.inr h))

end Instructions

/-! ### What no instruction touches -/

/-- The fields no instruction changes, whether it completes, holds or faults: the parameters, the latch, the sound path, and
the other agents' control. -/
structure KeepsOthers (s t : State) : Prop where
  config : t.config = s.config
  latch : t.latch = s.latch
  pending : t.pending = s.pending
  chan : t.chan = s.chan
  sampleLog : t.sampleLog = s.sampleLog
  cancelled : t.cancelled = s.cancelled
  timerStopped : t.timerStopped = s.timerStopped
  schedule : t.schedule = s.schedule

theorem writeResultAndFlag_keepsOthers (s x b c) : KeepsOthers s (State.writeResultAndFlag s x b c).advance := by
  rcases s.writeResultAndFlag_cases x b c with ⟨_, e⟩ | ⟨_, _, e⟩ <;> rw [e] <;> constructor <;> rfl

/-- How an instruction's execution ends: a fault raised on the start state, or a state that keeps the other agents' fields and
whose core mode is the start's, `running` or, for FX0A alone, held. -/
abbrev ExecCases (i : Instr) (s t : State) : Prop :=
  (∃ f, faultPc f = s.pc ∧ t = s.raise f) ∨
  (KeepsOthers s t ∧ (t.coreMode = s.coreMode ∨ t.coreMode = .running ∨ ∃ x, i = .ldVxK x ∧ t.coreMode = .heldKey x))

theorem exec_cases {i s t} (h : exec i s = .next t) :
    ExecCases i s t := by
  have rt : ∀ {vs u t'}, ReadsThen i s vs u t' → KeepsOthers s t' → t'.coreMode = s.coreMode →
      ExecCases i s t := by
    rintro vs u t' (⟨_, e⟩ | ⟨r, _, _, e⟩) hk hm
    · rw [e] at h; cases h; exact .inr ⟨hk, .inl hm⟩
    · rw [e] at h; cases h; exact .inl ⟨_, rfl, rfl⟩
  have tt : ∀ {vs u t'}, TransfersThen i s vs u t' → KeepsOthers s t' → t'.coreMode = s.coreMode →
      ExecCases i s t := by
    rintro vs u t' (⟨_, _, e⟩ | ⟨_, _, e⟩ | ⟨r, _, _, e⟩) hk hm
    · rw [e] at h; cases h; exact .inr ⟨hk, .inl hm⟩
    · rw [e] at h; cases h; exact .inl ⟨_, rfl, rfl⟩
    · rw [e] at h; cases h; exact .inl ⟨_, rfl, rfl⟩
  have wr : ∀ x b c, (State.writeResultAndFlag s x b c).advance.coreMode = s.coreMode := fun x b c => by
    rcases s.writeResultAndFlag_cases x b c with ⟨_, e⟩ | ⟨_, _, e⟩ <;> rw [e] <;> rfl
  cases i with
  | cls => rw [exec_cls] at h; cases h; exact .inr ⟨by constructor <;> rfl, .inl rfl⟩
  | ret =>
    rcases exec_ret s with ⟨_, e⟩ | ⟨_, e⟩ <;> rw [e] at h <;> cases h
    · exact .inr ⟨by constructor <;> rfl, .inl rfl⟩
    · exact .inl ⟨_, rfl, rfl⟩
  | jp n => rw [exec_jp] at h; cases h; exact .inr ⟨by constructor <;> rfl, .inl rfl⟩
  | call n =>
    rcases exec_call n s with ⟨_, e⟩ | ⟨_, e⟩ <;> rw [e] at h <;> cases h
    · exact .inr ⟨by constructor <;> rfl, .inl rfl⟩
    · exact .inl ⟨_, rfl, rfl⟩
  | seImm x nn => exact rt (exec_seImm x nn s) (by constructor <;> rfl) rfl
  | sneImm x nn => exact rt (exec_sneImm x nn s) (by constructor <;> rfl) rfl
  | seReg x y => exact rt (exec_seReg x y s) (by constructor <;> rfl) rfl
  | ldImm x nn => rw [exec_ldImm] at h; cases h; exact .inr ⟨by constructor <;> rfl, .inl rfl⟩
  | addImm x nn => exact rt (exec_addImm x nn s) (by constructor <;> rfl) rfl
  | ldReg x y => exact rt (exec_ldReg x y s) (by constructor <;> rfl) rfl
  | orReg x y => exact rt (exec_orReg x y s) (by constructor <;> rfl) rfl
  | andReg x y => exact rt (exec_andReg x y s) (by constructor <;> rfl) rfl
  | xorReg x y => exact rt (exec_xorReg x y s) (by constructor <;> rfl) rfl
  | addReg x y => exact rt (exec_addReg x y s) (writeResultAndFlag_keepsOthers ..) (wr ..)
  | subReg x y => exact rt (exec_subReg x y s) (writeResultAndFlag_keepsOthers ..) (wr ..)
  | shr x y => exact rt (exec_shr x y s) (writeResultAndFlag_keepsOthers ..) (wr ..)
  | subn x y => exact rt (exec_subn x y s) (writeResultAndFlag_keepsOthers ..) (wr ..)
  | shl x y => exact rt (exec_shl x y s) (writeResultAndFlag_keepsOthers ..) (wr ..)
  | sneReg x y => exact rt (exec_sneReg x y s) (by constructor <;> rfl) rfl
  | ldI n => rw [exec_ldI] at h; cases h; exact .inr ⟨by constructor <;> rfl, .inl rfl⟩
  | jpV0 n => exact rt (exec_jpV0 n s) (by constructor <;> rfl) rfl
  | rnd x nn => rw [exec_rnd] at h; cases h; exact .inr ⟨by constructor <;> rfl, .inl rfl⟩
  | drw x y n =>
    rcases exec_drw x y s n with ⟨_, _, _, e⟩ | ⟨_, _, _, _, e⟩ | ⟨_, _, e⟩ | ⟨_, _, _, e⟩ <;> rw [e] at h <;> cases h
    · exact .inr ⟨by constructor <;> rfl, .inl rfl⟩
    all_goals exact .inl ⟨_, rfl, rfl⟩
  | skp x => exact rt (exec_skp x s) (by constructor <;> rfl) rfl
  | sknp x => exact rt (exec_sknp x s) (by constructor <;> rfl) rfl
  | ldVxDT x => rw [exec_ldVxDT] at h; cases h; exact .inr ⟨by constructor <;> rfl, .inl rfl⟩
  | ldVxK x =>
    rcases exec_ldVxK x s with ⟨_, _, _, e⟩ | ⟨_, _, _, e⟩ | ⟨_, _, e⟩ <;> rw [e] at h <;> cases h
    · exact .inr ⟨by constructor <;> rfl, .inr (.inl rfl)⟩
    · exact .inr ⟨by constructor <;> rfl, .inl rfl⟩
    · exact .inr ⟨by constructor <;> rfl, .inr (.inr ⟨x, rfl, rfl⟩)⟩
  | ldDTVx x => exact rt (exec_ldDTVx x s) (by constructor <;> rfl) rfl
  | ldSTVx x => exact rt (exec_ldSTVx x s) (by constructor <;> rfl) rfl
  | addIVx x => exact rt (exec_addIVx x s) (by constructor <;> rfl) rfl
  | ldFVx x => exact rt (exec_ldFVx x s) (by constructor <;> rfl) rfl
  | ldBVx x => exact tt (exec_ldBVx x s) (by rw [State.storeBytes_eq]; constructor <;> rfl) (by rw [State.storeBytes_eq]; rfl)
  | storeRegs x => exact tt (exec_storeRegs x s) (by rw [State.bumpI_eq, State.storeBytes_eq]; constructor <;> rfl) (by rw [State.bumpI_eq, State.storeBytes_eq]; rfl)
  | loadRegs x => exact tt (exec_loadRegs x s) (by rw [State.bumpI_eq, State.loadBlock_eq]; constructor <;> rfl) (by rw [State.bumpI_eq, State.loadBlock_eq]; rfl)
  | unknown op => rw [exec_unknown] at h; cases h; exact .inr ⟨by constructor <;> rfl, .inl rfl⟩

/-- An instruction that leaves a core held that was not is the FX0A whose register the mode carries, and the mode is all it
changed (R193). -/
theorem exec_held {i s t x} (h : exec i s = .next t) (hm : t.coreMode = .heldKey x) (h0 : ∀ y, s.coreMode ≠ .heldKey y) :
    i = .ldVxK x ∧ t = { s with coreMode := .heldKey x } := by
  rcases exec_cases h with ⟨f, _, rfl⟩ | ⟨_, h1 | h1 | ⟨y, rfl, h1⟩⟩
  · cases hm
  · rw [h1] at hm; exact absurd hm (h0 x)
  · rw [h1] at hm; cases hm
  · rcases exec_ldVxK y s with ⟨_, _, _, e⟩ | ⟨_, _, _, e⟩ | ⟨_, _, e⟩ <;> rw [e] at h <;> cases h
    · cases h1
    · exact absurd hm (h0 x)
    · cases hm; exact ⟨rfl, rfl⟩

/-- How a core step ends (R222): stopped by cancellation, a fetch fault, an instruction run, or FX0A completed with its key. -/
theorem coreStep_cases {s t} (h : coreStep s = .next t) :
    (s.coreMode = .running ∧ s.cancelled = true ∧ t = { s with coreMode := .stopped }) ∨
    (∃ f, s.coreMode = .running ∧ s.cancelled = false ∧ 4094 < s.pc.toNat ∧ faultPc f = s.pc ∧ t = s.raise f) ∨
    (∃ i, Fetches s i ∧ exec i s = .next t) ∨
    (∃ x k, s.coreMode = .wakeKey x k ∧ exec (.ldVxK x) s = .next t) := by
  unfold coreStep at h
  cases hm : s.coreMode <;> simp only [hm] at h <;> try (cases h)
  · cases hc : s.cancelled
    · simp only [hc, State.fetchWord_eq] at h
      by_cases hp : s.pc.toNat ≤ 4094
      · simp [hp] at h
        exact .inr (.inr (.inl ⟨_, ⟨hm, hc, hp, rfl⟩, h⟩))
      · simp [hp] at h
        exact .inr (.inl ⟨_, rfl, rfl, by omega, rfl, h.symm⟩)
    · simp only [hc] at h
      simp at h; exact .inl ⟨rfl, rfl, h.symm⟩
  · exact .inr (.inr (.inr ⟨_, _, rfl, h⟩))

end Sys2Proof.Machine
end

