-- ==== Sys2Proof/Laws/Agents.lean ====
section
/-! SUPPORT. What a step of an agent other than the core can do. -/

namespace Sys2Proof.Machine

/-- The fields no agent but the core changes. -/
structure KeepsCore (s t : State) : Prop where
  config : t.config = s.config
  v : t.v = s.v
  i : t.i = s.i
  pc : t.pc = s.pc
  stack : t.stack = s.stack
  depth : t.depth = s.depth
  mem : t.mem = s.mem
  fb : t.fb = s.fb
  drawLog : t.drawLog = s.drawLog
  unwrittenV : t.unwrittenV = s.unwrittenV
  unwrittenI : t.unwrittenI = s.unwrittenI
  freeIndex : t.freeIndex = s.freeIndex
  schedule : t.schedule = s.schedule

/-- The timer, when it ticks: cancelled and stopping, or both counters down and the sample pending. -/
theorem timerTick_cases {s t : State} (h : timerTick s = .next t) :
    s.timerStopped = false ∧ s.pending = none ∧
    ((s.cancelled = true ∧ t = s.stopTimer) ∨
     (s.cancelled = false ∧ t = { s with dt := tickDown s.dt, st := tickDown s.st, pending := some (tickDown s.st) })) := by
  unfold timerTick at h
  cases h1 : s.timerStopped <;> cases h2 : s.pending <;> cases h3 : s.cancelled <;> simp [h1, h2, h3] at h
  · exact ⟨rfl, rfl, .inr ⟨rfl, h.symm⟩⟩
  · exact ⟨rfl, rfl, .inl ⟨rfl, h.symm⟩⟩

/-- The hand-off, when it happens: the sample dropped by a cancelled timer, or put into a channel with room. -/
theorem handOff_cases {s t : State} (h : handOff s = .next t) :
    ∃ b, s.pending = some b ∧
    ((s.cancelled = true ∧ t = s.stopTimer) ∨
     (s.cancelled = false ∧ s.chan.length < s.config.soundChannelCapacity ∧
       t = { s with chan := s.chan ++ [b], pending := none, sampleLog := s.sampleLog ++ [b] })) := by
  unfold handOff at h
  cases h2 : s.pending with
  | none => simp [h2] at h
  | some b =>
    refine ⟨b, rfl, ?_⟩
    cases h3 : s.cancelled <;> simp [h2, h3] at h
    · split at h
      · rename_i hl; cases h; exact .inr ⟨rfl, hl, rfl⟩
      · cases h
    · exact .inl ⟨rfl, h.symm⟩

/-- The receive, when it happens: the oldest sample of the channel, or the rendezvous with the pending one. -/
theorem sinkReceive_cases {s t : State} (h : sinkReceive s = .next t) :
    (∃ c rest, s.chan = c :: rest ∧ t = { s with chan := rest }) ∨
    (∃ b, s.chan = [] ∧ s.pending = some b ∧ s.config.soundChannelCapacity = 0 ∧
      ((s.cancelled = true ∧ t = s.stopTimer) ∨
       (s.cancelled = false ∧ t = { s with pending := none, sampleLog := s.sampleLog ++ [b] }))) := by
  unfold sinkReceive at h
  cases h1 : s.chan with
  | cons c rest => simp [h1] at h; exact .inl ⟨c, rest, rfl, h.symm⟩
  | nil =>
    cases h2 : s.pending with
    | none => simp [h1, h2] at h
    | some b =>
      by_cases h3 : s.config.soundChannelCapacity = 0 <;> cases h4 : s.cancelled <;> simp [h1, h2, h3, h4] at h
      · exact .inr ⟨b, rfl, rfl, h3, .inr ⟨rfl, h.symm⟩⟩
      · exact .inr ⟨b, rfl, rfl, h3, .inl ⟨rfl, h.symm⟩⟩

/-- A key press, when the host has the move: the key handed to a held core, else buffered. -/
theorem keyPressed_cases {k : Nat} {s t : State} (h : keyPressed k s = .next t) :
    s.cancelled = false ∧ ∃ key : Key, key.val = k ∧
    ((∃ x, s.coreMode = .heldKey x ∧ t = { s with latch := some key, coreMode := .wakeKey x key }) ∨
     ((∀ x, s.coreMode ≠ .heldKey x) ∧ t = { s with latch := some key, token := some key })) := by
  unfold keyPressed at h
  cases h1 : s.cancelled <;> simp [h1] at h
  by_cases h2 : k < 16
  · refine ⟨rfl, ⟨k, h2⟩, rfl, ?_⟩
    simp only [h2, dif_pos] at h
    cases h3 : s.coreMode <;> simp [h3] at h <;> simp [h.symm]
  · simp [h2] at h

/-- A clear, when the host has the move. -/
theorem clearKeys_cases {s t : State} (h : clearKeys s = .next t) :
    s.cancelled = false ∧ t = { s with latch := none, token := none } := by
  unfold clearKeys at h
  cases h1 : s.cancelled <;> simp [h1] at h
  exact ⟨rfl, h.symm⟩

/-- A cancel, when the canceller has the move. -/
theorem cancel_cases {s t : State} (h : cancel s = .next t) : s.cancelled = false ∧ t = { s with cancelled := true } := by
  unfold cancel at h
  cases h1 : s.cancelled <;> simp [h1] at h
  exact ⟨rfl, h.symm⟩

/-- No agent but the core changes the core's registers, memory, stack or screen; the core's mode only by a key handed to the
held core; and only a tick changes the counters. -/
theorem agentStep_keepsCore {a : AgentStep} {s t : State} (ha : a ≠ .core) (h : agentStep a s = .next t) :
    KeepsCore s t ∧
    (t.coreMode = s.coreMode ∨
      ∃ x, ∃ k : Key, s.coreMode = .heldKey x ∧ a = .keyPressed k.val ∧ t.coreMode = .wakeKey x k) ∧
    ((t.dt = s.dt ∧ t.st = s.st) ∨ (a = .timerTick ∧ t.dt = tickDown s.dt ∧ t.st = tickDown s.st)) := by
  cases a with
  | core => exact absurd rfl ha
  | timerTick =>
    obtain ⟨_, _, ⟨_, rfl⟩ | ⟨_, rfl⟩⟩ := timerTick_cases h
    · exact ⟨by constructor <;> rfl, .inl rfl, .inl ⟨rfl, rfl⟩⟩
    · exact ⟨by constructor <;> rfl, .inl rfl, .inr ⟨rfl, rfl, rfl⟩⟩
  | handOff =>
    obtain ⟨_, _, ⟨_, rfl⟩ | ⟨_, _, rfl⟩⟩ := handOff_cases h
    all_goals exact ⟨by constructor <;> rfl, .inl rfl, .inl ⟨rfl, rfl⟩⟩
  | sinkReceive =>
    obtain ⟨_, _, _, rfl⟩ | ⟨_, _, _, _, ⟨_, rfl⟩ | ⟨_, rfl⟩⟩ := sinkReceive_cases h
    all_goals exact ⟨by constructor <;> rfl, .inl rfl, .inl ⟨rfl, rfl⟩⟩
  | keyPressed k =>
    obtain ⟨_, key, rfl, ⟨x, hx, rfl⟩ | ⟨_, rfl⟩⟩ := keyPressed_cases h
    · exact ⟨by constructor <;> rfl, .inr ⟨x, key, hx, rfl, rfl⟩, .inl ⟨rfl, rfl⟩⟩
    · exact ⟨by constructor <;> rfl, .inl rfl, .inl ⟨rfl, rfl⟩⟩
  | clearKeys =>
    obtain ⟨_, rfl⟩ := clearKeys_cases h
    exact ⟨by constructor <;> rfl, .inl rfl, .inl ⟨rfl, rfl⟩⟩
  | cancel =>
    obtain ⟨_, rfl⟩ := cancel_cases h
    exact ⟨by constructor <;> rfl, .inl rfl, .inl ⟨rfl, rfl⟩⟩

end Sys2Proof.Machine
end

