-- ==== Sys2Proof/Laws/Decode.lean ====
section
/-! SUPPORT. The fields of a word as numbers, and the fields of each format: what the decoder's and the encoder's parts do. -/

namespace Sys2Proof

/-! ### Fields as numbers (R70) -/

theorem fieldT_toNat (op : Word) : (fieldT op).toNat = op.toNat / 4096 := by
  have := op.isLt
  simp only [fieldT, BitVec.extractLsb'_toNat, Nat.shiftRight_eq_div_pow]
  omega

theorem fieldX_val (op : Word) : (fieldX op).val = op.toNat / 256 % 16 := by
  simp only [fieldX, BitVec.val_toFin, BitVec.extractLsb'_toNat, Nat.shiftRight_eq_div_pow]

theorem fieldY_val (op : Word) : (fieldY op).val = op.toNat / 16 % 16 := by
  simp only [fieldY, BitVec.val_toFin, BitVec.extractLsb'_toNat, Nat.shiftRight_eq_div_pow]

theorem fieldN_toNat (op : Word) : (fieldN op).toNat = op.toNat % 16 := by
  simp [fieldN]

theorem fieldNN_toNat (op : Word) : (fieldNN op).toNat = op.toNat % 256 := by
  simp [fieldNN]

theorem fieldNNN_toNat (op : Word) : (fieldNNN op).toNat = op.toNat % 4096 := by
  simp [fieldNNN]

/-! ### Formats as numbers (R71) -/

theorem toNat_append_eq {m n : Nat} (a : BitVec m) (b : BitVec n) : (a ++ b).toNat = a.toNat * 2 ^ n + b.toNat := by
  rw [BitVec.toNat_append, ← Nat.shiftLeft_add_eq_or_of_lt b.isLt, Nat.shiftLeft_eq]

theorem formatAddr_toNat (t : BitVec 4) (nnn : BitVec 12) :
    (formatAddr t nnn).toNat = t.toNat * 4096 + nnn.toNat := toNat_append_eq t nnn

theorem formatRegImm_toNat (t : BitVec 4) (x : Reg) (nn : Byte) :
    (formatRegImm t x nn).toNat = t.toNat * 4096 + x.val * 256 + nn.toNat := by
  have h : (formatRegImm t x nn).toNat = ((t.toNat * 2 ^ 4 + x.val) * 2 ^ 8 + nn.toNat) := by
    simp only [formatRegImm, toNat_append_eq, BitVec.toNat_ofFin]
  rw [h]; ring

theorem formatRegSub_toNat (t : BitVec 4) (x : Reg) (sub : Byte) :
    (formatRegSub t x sub).toNat = t.toNat * 4096 + x.val * 256 + sub.toNat := by
  rw [show formatRegSub t x sub = formatRegImm t x sub from rfl, formatRegImm_toNat]

theorem ofNibbles_toNat (a b c d : BitVec 4) :
    (ofNibbles a b c d).toNat = a.toNat * 4096 + b.toNat * 256 + c.toNat * 16 + d.toNat := by
  have h : (ofNibbles a b c d).toNat = (((a.toNat * 2 ^ 4 + b.toNat) * 2 ^ 4 + c.toNat) * 2 ^ 4 + d.toNat) := by
    simp only [ofNibbles, toNat_append_eq]
  rw [h]; ring

theorem formatRegReg_toNat (t : BitVec 4) (x y : Reg) (n : BitVec 4) :
    (formatRegReg t x y n).toNat = t.toNat * 4096 + x.val * 256 + y.val * 16 + n.toNat := by
  simp only [formatRegReg, ofNibbles_toNat, BitVec.toNat_ofFin]

/-! ### The fields of each format -/

@[simp] theorem fieldT_formatAddr (t : BitVec 4) (nnn : BitVec 12) : fieldT (formatAddr t nnn) = t := by
  apply BitVec.eq_of_toNat_eq
  have := nnn.isLt
  rw [fieldT_toNat, formatAddr_toNat]; omega

@[simp] theorem fieldNNN_formatAddr (t : BitVec 4) (nnn : BitVec 12) : fieldNNN (formatAddr t nnn) = nnn := by
  apply BitVec.eq_of_toNat_eq
  have := nnn.isLt
  rw [fieldNNN_toNat, formatAddr_toNat]; omega

@[simp] theorem fieldT_formatRegImm (t : BitVec 4) (x : Reg) (nn : Byte) : fieldT (formatRegImm t x nn) = t := by
  apply BitVec.eq_of_toNat_eq
  have := nn.isLt; have := x.isLt
  rw [fieldT_toNat, formatRegImm_toNat]; omega

@[simp] theorem fieldX_formatRegImm (t : BitVec 4) (x : Reg) (nn : Byte) : fieldX (formatRegImm t x nn) = x := by
  apply Fin.ext
  have := nn.isLt; have := x.isLt
  rw [fieldX_val, formatRegImm_toNat]; omega

@[simp] theorem fieldNN_formatRegImm (t : BitVec 4) (x : Reg) (nn : Byte) : fieldNN (formatRegImm t x nn) = nn := by
  apply BitVec.eq_of_toNat_eq
  have := nn.isLt
  rw [fieldNN_toNat, formatRegImm_toNat]; omega

@[simp] theorem fieldT_formatRegSub (t : BitVec 4) (x : Reg) (sub : Byte) : fieldT (formatRegSub t x sub) = t :=
  fieldT_formatRegImm t x sub

@[simp] theorem fieldX_formatRegSub (t : BitVec 4) (x : Reg) (sub : Byte) : fieldX (formatRegSub t x sub) = x :=
  fieldX_formatRegImm t x sub

@[simp] theorem fieldNN_formatRegSub (t : BitVec 4) (x : Reg) (sub : Byte) : fieldNN (formatRegSub t x sub) = sub :=
  fieldNN_formatRegImm t x sub

@[simp] theorem fieldT_ofNibbles (a b c d : BitVec 4) : fieldT (ofNibbles a b c d) = a := by
  apply BitVec.eq_of_toNat_eq
  have := b.isLt; have := c.isLt; have := d.isLt
  rw [fieldT_toNat, ofNibbles_toNat]; omega

@[simp] theorem fieldN_ofNibbles (a b c d : BitVec 4) : fieldN (ofNibbles a b c d) = d := by
  apply BitVec.eq_of_toNat_eq
  have := d.isLt
  rw [fieldN_toNat, ofNibbles_toNat]; omega

theorem fieldNN_ofNibbles_toNat (a b c d : BitVec 4) :
    (fieldNN (ofNibbles a b c d)).toNat = c.toNat * 16 + d.toNat := by
  have := c.isLt; have := d.isLt
  rw [fieldNN_toNat, ofNibbles_toNat]; omega

@[simp] theorem fieldT_formatRegReg (t : BitVec 4) (x y : Reg) (n : BitVec 4) : fieldT (formatRegReg t x y n) = t :=
  fieldT_ofNibbles _ _ _ _

@[simp] theorem fieldX_formatRegReg (t : BitVec 4) (x y : Reg) (n : BitVec 4) : fieldX (formatRegReg t x y n) = x := by
  apply Fin.ext
  have := n.isLt; have := x.isLt; have := y.isLt
  rw [fieldX_val, formatRegReg_toNat]; omega

@[simp] theorem fieldY_formatRegReg (t : BitVec 4) (x y : Reg) (n : BitVec 4) : fieldY (formatRegReg t x y n) = y := by
  apply Fin.ext
  have := n.isLt; have := y.isLt
  rw [fieldY_val, formatRegReg_toNat]; omega

@[simp] theorem fieldN_formatRegReg (t : BitVec 4) (x y : Reg) (n : BitVec 4) : fieldN (formatRegReg t x y n) = n :=
  fieldN_ofNibbles _ _ _ _

/-! ### A word from its fields -/

theorem formatAddr_fields (op : Word) : formatAddr (fieldT op) (fieldNNN op) = op := by
  apply BitVec.eq_of_toNat_eq
  rw [formatAddr_toNat, fieldT_toNat, fieldNNN_toNat]; omega

theorem formatRegImm_fields (op : Word) : formatRegImm (fieldT op) (fieldX op) (fieldNN op) = op := by
  apply BitVec.eq_of_toNat_eq
  rw [formatRegImm_toNat, fieldT_toNat, fieldX_val, fieldNN_toNat]; omega

theorem formatRegReg_fields (op : Word) : formatRegReg (fieldT op) (fieldX op) (fieldY op) (fieldN op) = op := by
  apply BitVec.eq_of_toNat_eq
  rw [formatRegReg_toNat, fieldT_toNat, fieldX_val, fieldY_val, fieldN_toNat]; omega

/-! ### The bytes of a word -/

/-- The two bytes of a word, high first, make the word again (R54). -/
@[simp] theorem wordOfBytes_bytes (op : Word) : wordOfBytes (highByte op) (lowByte op) = op := by
  apply BitVec.eq_of_toNat_eq
  have := op.isLt
  have h : (wordOfBytes (highByte op) (lowByte op)).toNat = (highByte op).toNat * 2 ^ 8 + (lowByte op).toNat :=
    toNat_append_eq _ _
  rw [h]
  simp only [highByte, lowByte, BitVec.extractLsb'_toNat, Nat.shiftRight_eq_div_pow]
  omega

end Sys2Proof
end

