-- ==== Sys2Proof/Laws/PerInstr.lean ====
section
/-! SUPPORT. Every instruction's word lies in its row of the opcode table: one lemma for each constructor. -/

namespace Sys2Proof.Laws.EncodeRow

/-- The encoder's word of `i` is one the row of spec/opcode_table.json with `i`'s mnemonic takes (R71, R73); UNKNOWN, which has
no mask and pattern row, is its own word. -/
def Statement (i : Instr) : Prop :=
  (∃ row ∈ opcodeTable, row.mnemonic = mnemonicOf i ∧ row.takes (encode i) = true) ∨
  ((∀ row ∈ opcodeTable, row.mnemonic ≠ mnemonicOf i) ∧ i = .unknown (encode i))

theorem and_nibble (t : BitVec 4) : t &&& 0xF#4 = t := BitVec.and_allOnes

theorem and_byte (b : Byte) : b &&& 0xFF#8 = b := BitVec.and_allOnes

/-- Under mask 0xF000 a word of format ADDR is its top nibble. -/
theorem addr_takes (t : BitVec 4) (nnn : BitVec 12) : formatAddr t nnn &&& 0xF000 = t ++ 0#12 := by
  rw [show (0xF000 : Word) = 0xF#4 ++ 0#12 from rfl, formatAddr, BitVec.and_append]
  simp only [and_nibble, BitVec.and_zero]

/-- The same for format REG_IMM. -/
theorem regImm_takes (t : BitVec 4) (x : Reg) (nn : Byte) : formatRegImm t x nn &&& 0xF000 = t ++ 0#4 ++ 0#8 := by
  rw [show (0xF000 : Word) = 0xF#4 ++ 0#4 ++ 0#8 from rfl, formatRegImm, BitVec.and_append, BitVec.and_append]
  simp only [and_nibble, BitVec.and_zero]

/-- The same for format REG_REG_N. -/
theorem regRegN_takes (t : BitVec 4) (x y : Reg) (n : BitVec 4) :
    formatRegReg t x y n &&& 0xF000 = t ++ 0#4 ++ 0#4 ++ 0#4 := by
  rw [show (0xF000 : Word) = 0xF#4 ++ 0#4 ++ 0#4 ++ 0#4 from rfl, formatRegReg, ofNibbles, BitVec.and_append,
    BitVec.and_append, BitVec.and_append]
  simp only [and_nibble, BitVec.and_zero]

/-- Under mask 0xF00F a word of format REG_REG is its top and low nibbles. -/
theorem regReg_takes (t : BitVec 4) (x y : Reg) (n : BitVec 4) :
    formatRegReg t x y n &&& 0xF00F = t ++ 0#4 ++ 0#4 ++ n := by
  rw [show (0xF00F : Word) = 0xF#4 ++ 0#4 ++ 0#4 ++ 0xF#4 from rfl, formatRegReg, ofNibbles, BitVec.and_append,
    BitVec.and_append, BitVec.and_append]
  simp only [and_nibble, BitVec.and_zero]

/-- Under mask 0xF0FF a word of format REG_SUB is its top nibble and low byte. -/
theorem regSub_takes (t : BitVec 4) (x : Reg) (sub : Byte) : formatRegSub t x sub &&& 0xF0FF = t ++ 0#4 ++ sub := by
  rw [show (0xF0FF : Word) = 0xF#4 ++ 0#4 ++ 0xFF#8 from rfl, formatRegSub, BitVec.and_append,
    BitVec.and_append]
  simp only [and_nibble, and_byte, BitVec.and_zero]

theorem cls : Statement .cls := .inl ⟨⟨"CLS", 0xFFFF, 0x00E0⟩, by decide, rfl, by decide⟩

theorem ret : Statement .ret := .inl ⟨⟨"RET", 0xFFFF, 0x00EE⟩, by decide, rfl, by decide⟩

theorem jp (nnn : BitVec 12) : Statement (.jp nnn) :=
  .inl ⟨⟨"JP_NNN", 0xF000, 0x1000⟩, by decide, rfl, by simp only [OpcodeRow.takes, encode, addr_takes]; rfl⟩

theorem call (nnn : BitVec 12) : Statement (.call nnn) :=
  .inl ⟨⟨"CALL_NNN", 0xF000, 0x2000⟩, by decide, rfl, by simp only [OpcodeRow.takes, encode, addr_takes]; rfl⟩

theorem seImm (x : Reg) (nn : Byte) : Statement (.seImm x nn) :=
  .inl ⟨⟨"SE_Vx__NN", 0xF000, 0x3000⟩, by decide, rfl, by simp only [OpcodeRow.takes, encode, regImm_takes]; rfl⟩

theorem sneImm (x : Reg) (nn : Byte) : Statement (.sneImm x nn) :=
  .inl ⟨⟨"SNE_Vx__NN", 0xF000, 0x4000⟩, by decide, rfl, by simp only [OpcodeRow.takes, encode, regImm_takes]; rfl⟩

theorem seReg (x y : Reg) : Statement (.seReg x y) :=
  .inl ⟨⟨"SE_Vx__Vy", 0xF00F, 0x5000⟩, by decide, rfl, by simp only [OpcodeRow.takes, encode, regReg_takes]; rfl⟩

theorem ldImm (x : Reg) (nn : Byte) : Statement (.ldImm x nn) :=
  .inl ⟨⟨"LD_Vx__NN", 0xF000, 0x6000⟩, by decide, rfl, by simp only [OpcodeRow.takes, encode, regImm_takes]; rfl⟩

theorem addImm (x : Reg) (nn : Byte) : Statement (.addImm x nn) :=
  .inl ⟨⟨"ADD_Vx__NN", 0xF000, 0x7000⟩, by decide, rfl, by simp only [OpcodeRow.takes, encode, regImm_takes]; rfl⟩

theorem ldReg (x y : Reg) : Statement (.ldReg x y) :=
  .inl ⟨⟨"LD_Vx__Vy", 0xF00F, 0x8000⟩, by decide, rfl, by simp only [OpcodeRow.takes, encode, regReg_takes]; rfl⟩

theorem orReg (x y : Reg) : Statement (.orReg x y) :=
  .inl ⟨⟨"OR_Vx__Vy", 0xF00F, 0x8001⟩, by decide, rfl, by simp only [OpcodeRow.takes, encode, regReg_takes]; rfl⟩

theorem andReg (x y : Reg) : Statement (.andReg x y) :=
  .inl ⟨⟨"AND_Vx__Vy", 0xF00F, 0x8002⟩, by decide, rfl, by simp only [OpcodeRow.takes, encode, regReg_takes]; rfl⟩

theorem xorReg (x y : Reg) : Statement (.xorReg x y) :=
  .inl ⟨⟨"XOR_Vx__Vy", 0xF00F, 0x8003⟩, by decide, rfl, by simp only [OpcodeRow.takes, encode, regReg_takes]; rfl⟩

theorem addReg (x y : Reg) : Statement (.addReg x y) :=
  .inl ⟨⟨"ADD_Vx__Vy", 0xF00F, 0x8004⟩, by decide, rfl, by simp only [OpcodeRow.takes, encode, regReg_takes]; rfl⟩

theorem subReg (x y : Reg) : Statement (.subReg x y) :=
  .inl ⟨⟨"SUB_Vx__Vy", 0xF00F, 0x8005⟩, by decide, rfl, by simp only [OpcodeRow.takes, encode, regReg_takes]; rfl⟩

theorem shr (x y : Reg) : Statement (.shr x y) :=
  .inl ⟨⟨"SHR_Vx____Vy", 0xF00F, 0x8006⟩, by decide, rfl, by simp only [OpcodeRow.takes, encode, regReg_takes]; rfl⟩

theorem subn (x y : Reg) : Statement (.subn x y) :=
  .inl ⟨⟨"SUBN_Vx__Vy", 0xF00F, 0x8007⟩, by decide, rfl, by simp only [OpcodeRow.takes, encode, regReg_takes]; rfl⟩

theorem shl (x y : Reg) : Statement (.shl x y) :=
  .inl ⟨⟨"SHL_Vx____Vy", 0xF00F, 0x800E⟩, by decide, rfl, by simp only [OpcodeRow.takes, encode, regReg_takes]; rfl⟩

theorem sneReg (x y : Reg) : Statement (.sneReg x y) :=
  .inl ⟨⟨"SNE_Vx__Vy", 0xF00F, 0x9000⟩, by decide, rfl, by simp only [OpcodeRow.takes, encode, regReg_takes]; rfl⟩

theorem ldI (nnn : BitVec 12) : Statement (.ldI nnn) :=
  .inl ⟨⟨"LD_I__NNN", 0xF000, 0xA000⟩, by decide, rfl, by simp only [OpcodeRow.takes, encode, addr_takes]; rfl⟩

theorem jpV0 (nnn : BitVec 12) : Statement (.jpV0 nnn) :=
  .inl ⟨⟨"JP_V0__NNN", 0xF000, 0xB000⟩, by decide, rfl, by simp only [OpcodeRow.takes, encode, addr_takes]; rfl⟩

theorem rnd (x : Reg) (nn : Byte) : Statement (.rnd x nn) :=
  .inl ⟨⟨"RND_Vx__NN", 0xF000, 0xC000⟩, by decide, rfl, by simp only [OpcodeRow.takes, encode, regImm_takes]; rfl⟩

theorem drw (x y : Reg) (n : BitVec 4) : Statement (.drw x y n) :=
  .inl ⟨⟨"DRW_Vx__Vy__N", 0xF000, 0xD000⟩, by decide, rfl, by simp only [OpcodeRow.takes, encode, regRegN_takes]; rfl⟩

theorem skp (x : Reg) : Statement (.skp x) :=
  .inl ⟨⟨"SKP_Vx", 0xF0FF, 0xE09E⟩, by decide, rfl, by simp only [OpcodeRow.takes, encode, regSub_takes]; rfl⟩

theorem sknp (x : Reg) : Statement (.sknp x) :=
  .inl ⟨⟨"SKNP_Vx", 0xF0FF, 0xE0A1⟩, by decide, rfl, by simp only [OpcodeRow.takes, encode, regSub_takes]; rfl⟩

theorem ldVxDT (x : Reg) : Statement (.ldVxDT x) :=
  .inl ⟨⟨"LD_Vx__DT", 0xF0FF, 0xF007⟩, by decide, rfl, by simp only [OpcodeRow.takes, encode, regSub_takes]; rfl⟩

theorem ldVxK (x : Reg) : Statement (.ldVxK x) :=
  .inl ⟨⟨"LD_Vx__K", 0xF0FF, 0xF00A⟩, by decide, rfl, by simp only [OpcodeRow.takes, encode, regSub_takes]; rfl⟩

theorem ldDTVx (x : Reg) : Statement (.ldDTVx x) :=
  .inl ⟨⟨"LD_DT__Vx", 0xF0FF, 0xF015⟩, by decide, rfl, by simp only [OpcodeRow.takes, encode, regSub_takes]; rfl⟩

theorem ldSTVx (x : Reg) : Statement (.ldSTVx x) :=
  .inl ⟨⟨"LD_ST__Vx", 0xF0FF, 0xF018⟩, by decide, rfl, by simp only [OpcodeRow.takes, encode, regSub_takes]; rfl⟩

theorem addIVx (x : Reg) : Statement (.addIVx x) :=
  .inl ⟨⟨"ADD_I__Vx", 0xF0FF, 0xF01E⟩, by decide, rfl, by simp only [OpcodeRow.takes, encode, regSub_takes]; rfl⟩

theorem ldFVx (x : Reg) : Statement (.ldFVx x) :=
  .inl ⟨⟨"LD_F__Vx", 0xF0FF, 0xF029⟩, by decide, rfl, by simp only [OpcodeRow.takes, encode, regSub_takes]; rfl⟩

theorem ldBVx (x : Reg) : Statement (.ldBVx x) :=
  .inl ⟨⟨"LD_B__Vx", 0xF0FF, 0xF033⟩, by decide, rfl, by simp only [OpcodeRow.takes, encode, regSub_takes]; rfl⟩

theorem storeRegs (x : Reg) : Statement (.storeRegs x) :=
  .inl ⟨⟨"LD__I___Vx", 0xF0FF, 0xF055⟩, by decide, rfl, by simp only [OpcodeRow.takes, encode, regSub_takes]; rfl⟩

theorem loadRegs (x : Reg) : Statement (.loadRegs x) :=
  .inl ⟨⟨"LD_Vx___I", 0xF0FF, 0xF065⟩, by decide, rfl, by simp only [OpcodeRow.takes, encode, regSub_takes]; rfl⟩

theorem unknown (op : Word) : Statement (.unknown op) := 
  .inr ⟨show ∀ row ∈ opcodeTable, row.mnemonic ≠ "UNKNOWN" by decide, rfl⟩

end Sys2Proof.Laws.EncodeRow
end

