-- ==== Sys2Proof/Tests/Slice0.lean ====
section
/-! SUPPORT. Tests: well-formedness, decoding from words written out bit by bit, one-step vectors of 95_test_vectors.md (2.n is
its section), and a witness for the hypotheses of every obligation that has some. -/

namespace Sys2Proof.Tests

open Sys2Proof Sys2Proof.Machine

/-! ### Helpers -/

/-- A field of the next state of an outcome. -/
def after {α : Type} (r : Result) (f : State → α) : Option α :=
  match r with
  | .next t => some (f t)
  | .fault _ => none
  | .refused _ => none

/-- The reset state with some V registers set. -/
def withV (l : List (Reg × Byte)) : State := l.foldl (fun s p => s.setV p.1 p.2) State.reset

/-- The same with I set. -/
def withVI (l : List (Reg × Byte)) (i : Word) : State := (withV l).setI i

/-- The reset state with other parameters. -/
def withConfig (p : Config) : State := State.resetWith p

/-- The state with nothing written, under `RESET_REGS = unwritten`. -/
def unwrittenState : State := State.resetWith { Config.default with resetRegs := .unwritten }

/-- The reset state with the sound channel capacity fixed. -/
def withCapacity (c : Nat) : State := State.resetWith { Config.default with soundChannelCapacity := c }

/-! ### Well-formedness (R76, R77) -/

theorem test_wellFormed_refuses_row_words :
    (Instr.unknown 0x00E0).wellFormed true = false ∧ (Instr.unknown 0x5120).wellFormed true = false ∧
    (Instr.unknown 0x8ABE).wellFormed true = false ∧ (Instr.unknown 0x9AB0).wellFormed true = false ∧
    (Instr.unknown 0xE19E).wellFormed true = false ∧ (Instr.unknown 0xF165).wellFormed true = false ∧
    (Instr.unknown 0x1234).wellFormed true = false ∧ (Instr.unknown 0x5121).wellFormed false = false ∧
    (Instr.unknown 0x01E0).wellFormed false = false := by decide

theorem test_wellFormed_takes_unknown_words :
    (Instr.unknown 0x0000).wellFormed true = true ∧ (Instr.unknown 0x5121).wellFormed true = true ∧
    (Instr.unknown 0x8ABF).wellFormed false = true ∧ (Instr.drw 15 15 15).wellFormed true = true := by decide

/-! ### Decoding: each constructor from a word written bit by bit from R71 and R73 -/

theorem test_decode_flow :
    decodeWord true 0b0000000011101110 = .ret ∧
    decodeWord true 0b0001101010111100 = .jp 0xABC ∧
    decodeWord true 0b0010001000001110 = .call 0x20E ∧
    decodeWord true 0b0011001101000010 = .seImm 3 0x42 ∧
    decodeWord true 0b0100001101000010 = .sneImm 3 0x42 ∧
    decodeWord true 0b0101000100100000 = .seReg 1 2 ∧
    decodeWord true 0b1001101010110000 = .sneReg 10 11 ∧
    decodeWord true 0b1011000100100011 = .jpV0 0x123 := by decide

theorem test_decode_alu :
    decodeWord true 0b0110101001000010 = .ldImm 10 0x42 ∧
    decodeWord true 0b0111010100000101 = .addImm 5 0x05 ∧
    decodeWord true 0b1000000100100000 = .ldReg 1 2 ∧
    decodeWord true 0b1000000100100001 = .orReg 1 2 ∧
    decodeWord true 0b1000000100100010 = .andReg 1 2 ∧
    decodeWord true 0b1000000100100011 = .xorReg 1 2 ∧
    decodeWord true 0b1000000100100100 = .addReg 1 2 ∧
    decodeWord true 0b1000000100100101 = .subReg 1 2 ∧
    decodeWord true 0b1000000100100110 = .shr 1 2 ∧
    decodeWord true 0b1000000100100111 = .subn 1 2 ∧
    decodeWord true 0b1000101010111110 = .shl 10 11 ∧
    decodeWord true 0b1100001100001111 = .rnd 3 0x0F := by decide

theorem test_decode_index_memory :
    decodeWord true 0b1010001100000000 = .ldI 0x300 ∧
    decodeWord true 0b1111111100011110 = .addIVx 15 ∧
    decodeWord true 0b1111101000101001 = .ldFVx 10 ∧
    decodeWord true 0b1111000000110011 = .ldBVx 0 ∧
    decodeWord true 0b1111000101010101 = .storeRegs 1 ∧
    decodeWord true 0b1111001001100101 = .loadRegs 2 := by decide

theorem test_decode_display_keys_timers :
    decodeWord true 0b0000000011100000 = .cls ∧
    decodeWord true 0b1101111100010101 = .drw 15 1 5 ∧
    decodeWord true 0b1110000110011110 = .skp 1 ∧
    decodeWord true 0b1110000110100001 = .sknp 1 ∧
    decodeWord true 0b1111010100000111 = .ldVxDT 5 ∧
    decodeWord true 0b1111001100001010 = .ldVxK 3 ∧
    decodeWord true 0b1111000000010101 = .ldDTVx 0 ∧
    decodeWord true 0b1111000000011000 = .ldSTVx 0 ∧
    decodeWord true 0b0000000000000000 = .unknown 0x0000 := by decide

/-- The bytes of FFE 12 00 are the word 1200 (2.7), the first byte high (R54). -/
theorem test_decode_big_endian : decode true [0x12, 0x00, 0xFF] = .ok (.jp 0x200, [0xFF]) ∧ decode true [0x12] = .error .truncated := by
  decide

/-- The host's numbering: bit 0 of the number is the word's least significant bit. -/
theorem test_decodeTableWord :
    decodeTableWord 16 0x00E0 = some .cls ∧ decodeTableWord 16 0xD015 = some (.drw 0 1 5) ∧
    decodeTableWord 16 0xF265 = some (.loadRegs 2) ∧ decodeTableWord 8 0xFF = some (.unknown 0x00FF) ∧
    decodeTableWord 24 0 = none := by decide

/-- The placed word is what the next step runs: 6005 from reset gives V0 = 05 and PC = 202 (2.7). -/
theorem test_withFetchWord_runs :
    after (step (State.reset.withFetchWord 16 0x6005)) (fun t => (t.v[(0 : Reg)], t.pc)) = some (0x05, 0x202) := by decide

/-- The counts of R74's table for the top nibbles E and F, as far as one X (16 X values: 2 and 9 rows). -/
theorem test_unknown_counts_one_register :
    ((List.range 256).filter (fun n => !isUnknownWord true (BitVec.ofNat 16 (0xE100 + n)))).length = 2 ∧
    ((List.range 256).filter (fun n => !isUnknownWord true (BitVec.ofNat 16 (0xF100 + n)))).length = 9 := by decide +kernel

/-! ### Control transfer (2.2) -/

theorem test_ret : after (exec .ret { State.reset with pc := 0x20E, depth := 1, stack := State.reset.stack.set 0 0x206 })
    (fun t => (t.pc, t.sp)) = some (0x206, -1) := by decide

theorem test_ret_underflow : after (exec .ret State.reset) (fun t => (t.pc, t.coreMode)) =
    some (0x200, .faulted (.stackUnderflow 0x200)) := by decide

theorem test_jp : after (exec (.jp 0x234) State.reset) (·.pc) = some 0x234 ∧ after (exec (.jp 0xFFF) State.reset) (·.pc) = some 0xFFF := by
  decide

theorem test_call : after (exec (.call 0x20E) { State.reset with pc := 0x204 }) (fun t => (t.pc, t.sp, t.stack[0])) =
    some (0x20E, 0, 0x206) := by decide

theorem test_call_overflow : after (exec (.call 0x400) { State.reset with pc := 0x300, depth := 16 })
    (fun t => (t.pc, t.sp, t.coreMode)) = some (0x300, 15, .faulted (.stackOverflow 0x300)) := by decide

theorem test_jpV0 : after (exec (.jpV0 0x300) (withV [(0, 0x10)])) (·.pc) = some 0x310 ∧
    after (exec (.jpV0 0xFFF) (withV [(0, 0xFF)])) (·.pc) = some 0x10FE := by decide

theorem test_seImm : after (exec (.seImm 3 0x42) (withV [(3, 0x42)])) (·.pc) = some 0x204 ∧
    after (exec (.seImm 3 0x42) (withV [(3, 0x41)])) (·.pc) = some 0x202 := by decide

theorem test_sneImm : after (exec (.sneImm 3 0x42) (withV [(3, 0x41)])) (·.pc) = some 0x204 ∧
    after (exec (.sneImm 3 0x42) (withV [(3, 0x42)])) (·.pc) = some 0x202 := by decide

theorem test_seReg : after (exec (.seReg 1 2) (withV [(1, 7), (2, 7)])) (·.pc) = some 0x204 ∧
    after (exec (.seReg 1 2) (withV [(1, 7), (2, 8)])) (·.pc) = some 0x202 := by decide

theorem test_sneReg : after (exec (.sneReg 1 2) (withV [(1, 7), (2, 8)])) (·.pc) = some 0x204 ∧
    after (exec (.sneReg 1 1) (withV [(1, 7)])) (·.pc) = some 0x202 := by decide

theorem test_unknown : after (exec (.unknown 0x8AB8) { State.reset with pc := 0x300 }) id =
    some { State.reset with pc := 0x302 } := by rfl

/-! ### Loads and ALU (2.3) -/

/-- V0 and VF after an instruction on V0 = a, V1 = b. -/
def alu (i : Instr) (a b : Byte) : Option (Byte × Byte) := after (exec i (withV [(0, a), (1, b)])) (fun t => (t.v[(0 : Reg)], t.v[regF]))

theorem test_ldImm : after (exec (.ldImm 10 0x42) State.reset) (fun t => (t.v[(10 : Reg)], t.v[regF], t.pc)) = some (0x42, 0, 0x202) := by
  decide

theorem test_addImm : after (exec (.addImm 5 0x01) (withV [(5, 0xFF)])) (fun t => (t.v[(5 : Reg)], t.v[regF])) = some (0x00, 0) ∧
    after (exec (.addImm 5 0xFF) (withV [(5, 0x10)])) (fun t => t.v[(5 : Reg)]) = some 0x0F := by decide

theorem test_ldReg : alu (.ldReg 0 1) 0x12 0x99 = some (0x99, 0) := by decide
theorem test_orReg : alu (.orReg 0 1) 0xF0 0x0F = some (0xFF, 0) := by decide
theorem test_andReg : alu (.andReg 0 1) 0xF0 0x3C = some (0x30, 0) := by decide
theorem test_xorReg : alu (.xorReg 0 1) 0xF0 0x3C = some (0xCC, 0) := by decide

theorem test_addReg : alu (.addReg 0 1) 0xFF 0x01 = some (0x00, 1) ∧ alu (.addReg 0 1) 0x7F 0x80 = some (0xFF, 0) := by decide

/-- Y = 0xF takes the old VF; X = 0xF ends holding the flag. -/
theorem test_addReg_vf : after (exec (.addReg 0 15) (withV [(0, 0x10), (15, 0x01)])) (fun t => (t.v[(0 : Reg)], t.v[regF])) =
      some (0x11, 0x00) ∧
    after (exec (.addReg 15 1) (withV [(15, 0xFF), (1, 0x01)])) (fun t => t.v[regF]) = some 0x01 := by decide

theorem test_subReg : alu (.subReg 0 1) 0x03 0x05 = some (0xFE, 0) ∧ alu (.subReg 0 1) 0x07 0x07 = some (0x00, 1) := by decide

theorem test_subReg_vf : after (exec (.subReg 15 1) (withV [(15, 0x03), (1, 0x05)])) (fun t => t.v[regF]) = some 0x00 := by decide

theorem test_shr : alu (.shr 0 1) 0x05 0xFE = some (0x02, 1) ∧ alu (.shr 0 1) 0xFF 0x00 = some (0x7F, 1) := by decide

/-- `SHIFT_SOURCE = vy` shifts Vy into Vx. -/
theorem test_shift_vy :
    let s := ((withConfig { Config.default with shiftSource := .vy }).setV 1 0x85)
    after (exec (.shr 0 1) s) (fun t => (t.v[(0 : Reg)], t.v[regF])) = some (0x42, 1) ∧
    after (exec (.shl 0 1) s) (fun t => (t.v[(0 : Reg)], t.v[regF])) = some (0x0A, 1) := by decide

theorem test_subn : alu (.subn 0 1) 0x03 0x05 = some (0x02, 1) ∧ alu (.subn 0 1) 0x05 0x03 = some (0xFE, 0) := by decide

theorem test_shl : alu (.shl 0 1) 0x81 0x00 = some (0x02, 1) ∧ alu (.shl 0 1) 0x40 0xFF = some (0x80, 0) := by decide

/-- C3F0 with any draw leaves the low nibble 0; C300 gives 0. -/
theorem test_rnd : ∃ t, exec (.rnd 3 0xF0) State.reset = .next t ∧ t.v[(3 : Reg)] = Config.rand8 0 &&& 0xF0 ∧ t.freeIndex = 1 :=
  ⟨_, rfl, rfl, rfl⟩

/-- Under `FLAG_ORDER = flag_any`, 8F14 leaves a free value in VF. -/
theorem test_flag_any : ∃ t, exec (.addReg 15 1) (withConfig { Config.default with flagOrder := .flagAny }) = .next t ∧
    t.v[regF] = Config.flagByte 0 ∧ t.freeIndex = 1 := ⟨_, rfl, rfl, rfl⟩

/-! ### Index register and memory (2.4) -/

theorem test_ldI : after (exec (.ldI 0x300) State.reset) (·.i) = some 0x300 := by decide

/-- I and VF after FX1E with X = 0. -/
def addI (i : Word) (b : Byte) : Option (Word × Byte) := after (exec (.addIVx 0) (withVI [(0, b)] i)) (fun t => (t.i, t.v[regF]))

theorem test_addIVx : addI 0xFFF 0x01 = some (0x1000, 1) ∧ addI 0xFFE 0x01 = some (0xFFF, 0) ∧ addI 0x1000 0x00 = some (0x1000, 1) ∧
    addI 0xFFFF 0x02 = some (0x0001, 0) := by decide

theorem test_addIVx_vf : after (exec (.addIVx 15) (withVI [(15, 0x05)] 0x300)) (fun t => (t.i, t.v[regF])) = some (0x305, 0) := by decide

theorem test_ldFVx : after (exec (.ldFVx 10) (withV [(10, 0x0A)])) (·.i) = some 0x32 ∧
    after (exec (.ldFVx 0) (withV [(0, 0xFF)])) (·.i) = some 0x4FB := by decide

theorem test_ldBVx : after (exec (.ldBVx 0) (withVI [(0, 0x88)] 0xFFD)) (fun t => (t.byteAt 0xFFD, t.byteAt 0xFFE, t.byteAt 0xFFF)) =
    some (1, 3, 6) := by decide

theorem test_ldBVx_range : after (exec (.ldBVx 0) (withVI [(0, 0x88)] 0xFFE)) (fun t => (t.mem, t.coreMode)) =
    some ([], .faulted (.memRange 0x1000 0x200)) := by decide

theorem test_storeRegs : after (exec (.storeRegs 1) (withVI [(0, 1), (1, 2), (2, 3)] 0x300))
    (fun t => (t.byteAt 0x300, t.byteAt 0x301, t.byteAt 0x302, t.i)) = some (1, 2, 0, 0x300) := by decide

/-- `MEM_INCREMENTS_I = true` leaves I = 302; a block that ends past FFF stores nothing. -/
theorem test_storeRegs_forms :
    after (exec (.storeRegs 1) ((withConfig { Config.default with memIncrementsI := true }).setI 0x300)) (·.i) = some 0x302 ∧
    after (exec (.storeRegs 15) (withVI [(0, 1)] 0xFF1)) (fun t => (t.mem, t.coreMode)) =
      some ([], .faulted (.memRange 0x1000 0x200)) := by decide

theorem test_loadRegs : after (exec (.loadRegs 2) ((withVI [(3, 0x77)] 0x300).storeBytes 0x300 [1, 3, 6, 9]))
    (fun t => (t.v[(0 : Reg)], t.v[(1 : Reg)], t.v[(2 : Reg)], t.v[(3 : Reg)])) = some (1, 3, 6, 0x77) := by decide

theorem test_loadRegs_range : after (exec (.loadRegs 0) (withVI [] 0xFFFF)) (·.coreMode) = some (.faulted (.memRange 0xFFFF 0x200)) := by
  decide

/-- The font of R58: glyph 0 is F0 90 90 90 F0, glyph F ends in 80, and 80 up to the ROM is zero. -/
theorem test_font : (List.range 5).map State.reset.byteAt = [0xF0, 0x90, 0x90, 0x90, 0xF0] ∧ State.reset.byteAt 79 = 0x80 ∧
    State.reset.byteAt 80 = 0 ∧ State.reset.byteAt 4095 = 0 := by decide

/-! ### Display (2.5) -/

/-- The cells that are on. -/
def onCells (fb : FrameBuffer) : List Nat := (List.range 2048).filter fb.cell

/-- The cells of a step's frame buffer, with VF and how many Draw events there are. -/
def shown (r : Result) : Option (List Nat × Byte × Nat) := after r (fun t => (onCells t.fb, t.v[regF], t.drawLog.length))

theorem test_cls : shown (exec .cls { State.reset with fb := 0xFF }) = some ([], 0, 1) := by decide +kernel

theorem test_drw_glyph0 : shown (exec (.drw 0 0 5) State.reset) =
    some ([0, 1, 2, 3, 64, 67, 128, 131, 192, 195, 256, 257, 258, 259], 0, 1) := by decide +kernel

theorem test_drw_collision : shown (exec (.drw 0 0 1) { State.reset with fb := 1 }) = some ([1, 2, 3], 1, 1) := by decide +kernel

theorem test_drw_box : after (exec (.drw 0 1 5) (withV [(0, 60)])) (fun t => (t.coreMode, t.drawLog)) =
    some (.faulted (.drawRange 64 0 0x200), []) := by decide +kernel

/-- Under `set_bits` the same sprite is drawn at x = 60..63, and at x = 61 it faults at its set bit; a row 0x01 at x = 60 faults,
and the pixel reported is the first off the screen, (64, 0), whose bit is 0 (R174: in both cases). -/
theorem test_drw_set_bits :
    let s := withConfig { Config.default with drawOobScope := .setBits }
    shown (exec (.drw 0 1 1) (s.setV 0 60)) = some ([60, 61, 62, 63], 0, 1) ∧
    after (exec (.drw 0 1 1) (s.setV 0 61)) (·.coreMode) = some (.faulted (.drawRange 64 0 0x200)) ∧
    after (exec (.drw 0 1 1) (((s.setV 0 60).setI 0x300).setByte 0x300 1)) (·.coreMode) =
      some (.faulted (.drawRange 64 0 0x200)) := by decide +kernel

theorem test_drw_memory_first : after (exec (.drw 0 0 5) (withVI [(0, 60)] 0xFFE)) (·.coreMode) =
    some (.faulted (.memRange 0x1000 0x200)) := by decide

/-! ### Keys and timers (2.6) -/

theorem test_skp : after (exec (.skp 1) { withV [(1, 5)] with latch := some 5 }) (·.pc) = some 0x204 ∧
    after (exec (.skp 1) { withV [(1, 0x15)] with latch := some 5 }) (·.pc) = some 0x202 := by decide

theorem test_sknp : after (exec (.sknp 1) (withV [(1, 5)])) (·.pc) = some 0x204 ∧
    after (exec (.sknp 1) { withV [(1, 5)] with latch := some 5 }) (·.pc) = some 0x202 := by decide

theorem test_ldVxK_token : after (exec (.ldVxK 3) { State.reset with token := some 7, latch := some 7 })
    (fun t => (t.v[(3 : Reg)], t.token, t.latch, t.pc)) = some (7, none, some 7, 0x202) := by decide

/-- Schedule B of program P6: the core holds, a key is handed over, a clear does not take it back, the next step stores it. -/
theorem test_ldVxK_hold : after (runAgents [.core, .keyPressed 7, .clearKeys, .core] (State.reset.placeWord 0xF00A))
    (fun t => (t.v[(0 : Reg)], t.latch, t.token, t.coreMode, t.pc)) = some (7, none, none, .running, 0x202) := by decide

theorem test_ldVxDT : after (exec (.ldVxDT 5) { State.reset with dt := 0x3C }) (fun t => t.v[(5 : Reg)]) = some 0x3C := by decide
theorem test_ldDTVx : after (exec (.ldDTVx 0) { withV [(0, 0)] with dt := 0x50 }) (·.dt) = some 0 := by decide
theorem test_ldSTVx : after (exec (.ldSTVx 0) (withV [(0, 2)])) (·.st) = some 2 := by decide

/-- Timer ticks: FF, 01 gives FE, 00 and the sample 00. -/
theorem test_tick : after (timerTick { State.reset with dt := 0xFF, st := 1 }) (fun t => (t.dt, t.st, t.pending)) =
    some (0xFE, 0, some 0) := by decide

/-- With capacity 1 the second sample stays pending and no third tick is enabled until the sink receives. -/
theorem test_backpressure :
    after (runAgents [.timerTick, .handOff, .timerTick] (withCapacity 1)) (fun t =>
      (enabled .timerTick t, enabled .handOff t, enabled .sinkReceive t)) = some (false, false, true) := by decide

/-! ### Fetch and fault priority (2.7) -/

theorem test_fetch_last_word : after (coreStep ({ State.reset with pc := 0xFFE }.placeWord 0x1200)) (·.pc) = some 0x200 := by decide

theorem test_fetch_faults :
    after (coreStep { State.reset with pc := 0xFFF }) (·.coreMode) = some (.faulted (.memRange 0x1000 0xFFF)) ∧
    after (coreStep { State.reset with pc := 0x10FE }) (·.coreMode) = some (.faulted (.memRange 0x10FE 0x10FE)) := by decide

theorem test_unwritten :
    after (exec (.addReg 0 1) unwrittenState) (·.coreMode) = some (.faulted (.unwrittenRead (.v 0) 0x200)) ∧
    after (exec (.ldImm 0 5) unwrittenState) (fun t => (t.v[(0 : Reg)], t.coreMode)) = some (5, .running) ∧
    after (exec (.ldBVx 0) unwrittenState) (·.coreMode) = some (.faulted (.unwrittenRead (.v 0) 0x200)) ∧
    after (exec (.ldBVx 0) (unwrittenState.setV 0 1)) (·.coreMode) = some (.faulted (.unwrittenRead .i 0x200)) := by decide

theorem test_oversize_rom : boot { Config.default with romOversize := .refuse } (List.replicate 3585 0) = .refused .romTooLong := by
  unfold boot
  rw [if_pos ⟨rfl, by rw [List.length_replicate]; decide⟩]

/-! ### Witnesses: for each obligation with hypotheses, a concrete state and operands that meet them, at the edges of their
ranges where they have some -/

theorem witness_DecodeAndEncodeAgree :
    (Instr.unknown 0x0000).wellFormed true = true ∧ (Instr.unknown 0x8ABF).wellFormed false = true ∧
    (Instr.drw 15 0 15).wellFormed true = true ∧ (Instr.jp 0xFFF).wellFormed true = true := by decide

theorem witness_UnknownWordsAreTheListedOnes :
    decodeWord true 0x0000 = .unknown 0x0000 ∧ decodeWord true 0x0FFF = .unknown 0x0FFF ∧
    decodeWord true 0x5001 = .unknown 0x5001 ∧ decodeWord true 0x800F = .unknown 0x800F ∧
    decodeWord true 0x9FFF = .unknown 0x9FFF ∧ decodeWord true 0xE0A2 = .unknown 0xE0A2 ∧
    decodeWord true 0xFFFF = .unknown 0xFFFF := by decide

theorem witness_LooseDecodingChangesOnlyTheListedWords :
    decodeWord false 0x0FEE ≠ decodeWord true 0x0FEE ∧ decodeWord false 0x5FFF ≠ decodeWord true 0x5FFF ∧
    decodeWord false 0x9001 ≠ decodeWord true 0x9001 := by decide

theorem witness_OpcodeRowsAreDisjoint :
    (⟨"CLS", 0xFFFF, 0x00E0⟩ : OpcodeRow) ∈ opcodeTable ∧ (⟨"LD_Vx___I", 0xF0FF, 0xF065⟩ : OpcodeRow) ∈ opcodeTable := by decide

/-- The last word of memory, JP 200, at PC = FFE. -/
def lastWordState : State := { State.reset with pc := 0xFFE }.placeWord 0x1200

theorem witness_StepRunsTheDecodedInstruction :
    (lastWordState.coreMode = .running ∧ lastWordState.cancelled = false ∧ lastWordState.pc.toNat = 4094 ∧
      decode lastWordState.config.decodeStrict [lastWordState.byteAt 4094, lastWordState.byteAt 4095] = .ok (.jp 0x200, []) ∧
      lastWordState.schedule = []) ∧
    ({ lastWordState with schedule := [.core, .cancel] } : State).schedule = .core :: [.cancel] ∧
    ({ lastWordState with schedule := [.timerTick] } : State).schedule = .timerTick :: [] := by decide

theorem witness_FetchOutsideMemoryFaults :
    ({ State.reset with pc := 0x1000 } : State).coreMode = .running ∧ ({ State.reset with pc := 0x1000 } : State).cancelled = false ∧
    4095 < ({ State.reset with pc := 0x1000 } : State).pc.toNat ∧ ({ State.reset with pc := 0xFFF } : State).pc.toNat = 4095 := by decide

theorem witness_NoInstructionIsRefused :
    enabled .core State.reset = true ∧ enabled .core { State.reset with coreMode := .wakeKey 0 15 } = true := by decide

/-- A RET with the stack empty. -/
def badReturn : State := State.reset.placeWord 0x00EE

theorem witness_FaultChangesOnlyTheMode :
    ∃ t, coreStep badReturn = .next t ∧ t.coreMode = .faulted (.stackUnderflow 0x200) := ⟨_, rfl, rfl⟩

/-- A core faulted so. -/
def faultedState : State := { State.reset with coreMode := .faulted (.stackUnderflow 0x200) }

theorem witness_FaultIsTerminal :
    faultedState.coreMode = .faulted (.stackUnderflow 0x200) ∧ (∃ t, agentStep (.keyPressed 15) faultedState = .next t) ∧
    AgentStep.timerTick ≠ .core := ⟨rfl, ⟨_, rfl⟩, by decide⟩

/-- A core held in FX0A for VF. -/
def heldState : State := { State.reset with pc := 4094, coreMode := .heldKey 15, mem := [(4094, 0xFF), (4095, 0x0A)] }

theorem witness_HeldCoreWaitsForAKey :
    heldState.coreMode = .heldKey 15 ∧ (∃ t, agentStep .timerTick heldState = .next t) ∧
    ∃ t, agentStep (.keyPressed 15) heldState = .next t := ⟨rfl, ⟨_, rfl⟩, ⟨_, rfl⟩⟩

theorem witness_ReturnPopsItsTarget :
    (0 : Int) ≤ ({ State.reset with depth := 1 } : State).sp ∧ (0 : Int) ≤ ({ State.reset with depth := 16 } : State).sp ∧
    State.reset.sp = -1 := by decide

theorem witness_CallPushesTheNextAddress :
    State.reset.sp < 15 ∧ ({ State.reset with depth := 15 } : State).sp < 15 ∧ ({ State.reset with depth := 16 } : State).sp = 15 := by
  decide

/-- Every register written, under `RESET_REGS = unwritten`. -/
def allWritten : State := { unwrittenState with unwrittenV := Vector.replicate 16 false, unwrittenI := false }

/-- The hypotheses on operands alone, of OffsetJumpAddsV0, ImmediateSkips, RegisterSkips, ImmediateLoadsAndAdds,
CopyAndBitwiseOperations, AddSetsTheCarry, SubtractionsSetNotBorrow, IndexLoads, IndexAddTestsItsRange, KeySkips,
TimerInstructions: under either reset setting. -/
theorem witness_readable_operands :
    State.reset.Readable [0] false ∧ State.reset.Readable [15, 15] false ∧ State.reset.Readable [15] true ∧
    allWritten.config.resetRegs = .unwritten ∧ allWritten.Readable [0] false ∧ allWritten.Readable [0, 15] false ∧
    allWritten.Readable [15] true :=
  ⟨.inl rfl, .inl rfl, .inl rfl, rfl, .inr (by decide), .inr (by decide), .inr (by decide)⟩

theorem witness_CallThenReturn :
    ∃ t, exec (.call 0x300) State.reset = .next t ∧ State.reset.sp < 15 ∧ ({ t with pc := 0x300 } : State).stack = t.stack ∧
      ({ t with pc := 0x300 } : State).depth = t.depth := ⟨_, rfl, by decide, rfl, rfl⟩

theorem witness_ShiftsSetTheBitShiftedOut :
    (State.reset.config.shiftSource = .vx ∧ State.reset.Readable [1] false) ∧
    ((withConfig { Config.default with shiftSource := .vy }).config.shiftSource = .vy ∧
      (withConfig { Config.default with shiftSource := .vy }).Readable [2] false) := by decide

theorem witness_DecimalDigitsAreStored :
    ((withVI [] 4093).Readable [0] true ∧ (withVI [] 4093).i.toNat + 2 ≤ 4095) ∧
    ((withVI [] 4094).Readable [0] true ∧ 4095 < (withVI [] 4094).i.toNat + 2) ∧ 4095 < (withVI [] 0xFFFF).i.toNat + 2 := by decide

theorem witness_RegistersAreStored :
    ((withVI [] 4080).Readable ((List.finRange 16).filter (· ≤ 15)) true ∧ (withVI [] 4080).i.toNat + (15 : Reg).val ≤ 4095) ∧
    allWritten.Readable ((List.finRange 16).filter (· ≤ 15)) true ∧
    4095 < (withVI [] 4081).i.toNat + (15 : Reg).val ∧ 4095 < (withVI [] 4096).i.toNat + (0 : Reg).val ∧
    (withConfig { Config.default with memIncrementsI := true }).config.memIncrementsI = true := by decide

theorem witness_RegistersAreLoaded :
    ((withVI [] 4095).Readable [] true ∧ (withVI [] 4095).i.toNat + (0 : Reg).val ≤ 4095) ∧
    ((withVI [] 4095).Readable [] true ∧ 4095 < (withVI [] 4095).i.toNat + (1 : Reg).val) ∧ allWritten.Readable [] true := by decide

theorem witness_StoreThenLoadRestores :
    ∃ t, exec (.storeRegs 2) (withVI [(1, 7)] 0x300) = .next t ∧
      (withVI [(1, 7)] 0x300).Readable ((List.finRange 16).filter (· ≤ 2)) true ∧ (withVI [(1, 7)] 0x300).i.toNat + (2 : Reg).val ≤ 4095 ∧
      ({ t with v := Vector.replicate 16 9 } : State).config = (withVI [(1, 7)] 0x300).config ∧
      ({ t with v := Vector.replicate 16 9 } : State).mem = t.mem ∧
      ({ t with v := Vector.replicate 16 9 } : State).i = (withVI [(1, 7)] 0x300).i ∧
      ({ t with v := Vector.replicate 16 9 } : State).Readable [] true := ⟨_, rfl, by decide, by decide, rfl, rfl, rfl, .inl rfl⟩

theorem witness_BytesReadBackAsWritten : (4095 : Nat) ≤ 4095 ∧ (4095 : Nat) < 4096 ∧ (0 : Nat) ≠ 4095 := by decide

/-- FX55 stores V0 and V1, the word 6A42, at the address after itself. -/
def patching : State := withVI [(0, 0x6A), (1, 0x42)] 0x202

theorem witness_StoredCodeRunsNext :
    ∃ t, patching.Readable ((List.finRange 16).filter (· ≤ 1)) true ∧ patching.i.toNat + (1 : Reg).val ≤ 4095 ∧
      patching.coreMode = .running ∧ patching.cancelled = false ∧ exec (.storeRegs 1) patching = .next t ∧
      (1 : Reg).val = (0 : Reg).val + 1 ∧ (1 : Reg) ≤ 1 ∧ t.pc.toNat = patching.i.toNat + (0 : Reg).val :=
  ⟨_, by decide, by decide, rfl, rfl, rfl, rfl, by decide, rfl⟩

/-- R171's furthest position of an 8x5 box: (56, 27). -/
def cornerState : State := withVI [(0, 56), (1, 27)] 4091

theorem witness_DrawFlipsTheSpritesPixels : DrawFits cornerState 0 1 (5 : BitVec 4).toNat where
  readable := .inl rfl
  in_memory := .inr (by decide)
  on_screen := by
    intro r c hr hc h
    have h2 := h.2
    rw [show (cornerState.v[(0 : Reg)]).toNat = 56 from rfl, show (cornerState.v[(1 : Reg)]).toNat = 27 from rfl] at h2
    have hr' : r < 5 := hr
    omega

/-- Under `set_bits` a zero column may hang over the edge: glyph 0 at (60, 0). -/
def hangingState : State := ((withConfig { Config.default with drawOobScope := .setBits }).setV 0 60)

theorem witness_DrawFlipsTheSpritesPixels_set_bits : DrawFits hangingState 0 1 (1 : BitVec 4).toNat where
  readable := .inl rfl
  in_memory := .inr (by decide)
  on_screen := by
    have key : ∀ r, r < 1 → ∀ c, c < 8 → ¬((DrawOobScope.setBits = .box ∨ spriteBit hangingState r c = true) ∧ (63 < 60 + c ∨ 31 < 0 + r)) := by
      decide
    exact fun r c hr hc => key r hr c hc

/-- A row 0x01 at (60, 0) under `set_bits`: its one set bit is at x = 67. -/
def lastColumnState : State := ((hangingState.setI 0x300).setByte 0x300 1)

theorem witness_DrawFaultsInOrder :
    ((withVI [] 4092).Readable [0, 1] true ∧ (5 : BitVec 4).toNat ≠ 0 ∧ 4096 < (withVI [] 4092).i.toNat + (5 : BitVec 4).toNat) ∧
    (lastColumnState.Readable [0, 1] true ∧ lastColumnState.i.toNat + (1 : BitVec 4).toNat ≤ 4096 ∧
      (∃ r c, r < (1 : BitVec 4).toNat ∧ c < 8 ∧
        PixelFaults lastColumnState lastColumnState.v[(0 : Reg)].toNat lastColumnState.v[(1 : Reg)].toNat r c) ∧
      OffScreen (lastColumnState.v[(0 : Reg)].toNat + 4) (lastColumnState.v[(1 : Reg)].toNat + 0) ∧
      ∀ r c, r < (1 : BitVec 4).toNat → c < 8 →
        OffScreen (lastColumnState.v[(0 : Reg)].toNat + c) (lastColumnState.v[(1 : Reg)].toNat + r) →
        0 < r ∨ (0 = r ∧ 4 ≤ c)) := by
  refine ⟨by decide, .inl rfl, by decide, ⟨0, 7, by decide, by decide, .inr (by decide), by decide⟩, by decide, fun r c hr hc h => ?_⟩
  rw [show (lastColumnState.v[(0 : Reg)]).toNat = 60 from rfl, show (lastColumnState.v[(1 : Reg)]).toNat = 0 from rfl] at h
  have hr' : r < 1 := hr
  omega

theorem witness_DrawingTwiceRestores :
    (0 : Reg) ≠ regF ∧ (1 : Reg) ≠ regF ∧ DrawFits cornerState 0 1 (5 : BitVec 4).toNat ∧ ∃ t, exec (.drw 0 1 5) cornerState = .next t := by
  refine ⟨by decide, by decide, witness_DrawFlipsTheSpritesPixels, ?_⟩
  rcases exec_drw 0 1 cornerState 5 with ⟨_, _, _, e⟩ | ⟨_, _, _, _, e⟩ | ⟨_, _, e⟩ | ⟨_, _, _, e⟩ <;> exact ⟨_, e⟩

theorem witness_OnlyClearAndDrawTouchTheScreen : ∃ t, agentStep .core (State.reset.placeWord 0x00E0) = .next t := ⟨_, rfl⟩

theorem witness_KeyWaitTakesAKeyOrHolds :
    ({ State.reset with coreMode := .wakeKey 3 15 } : State).coreMode = .wakeKey 3 15 ∧
    (({ State.reset with token := some 15 } : State).coreMode = .running ∧ ({ State.reset with token := some 15 } : State).token = some 15) ∧
    (State.reset.coreMode = .running ∧ State.reset.token = none) := by decide

theorem witness_NoInstructionReadsTheSoundTimer :
    (∃ t, exec (.ldSTVx 15) State.reset = .next t) ∧ State.reset.Readable [15] false ∧ (∃ t, exec .cls State.reset = .next t) ∧
    ∀ x, Instr.cls ≠ .ldSTVx x := ⟨⟨_, rfl⟩, .inl rfl, ⟨_, rfl⟩, by simp⟩

/-- FX15 with V0 = 3. -/
def settingDelay : State := (withV [(0, 3)]).placeWord 0xF015

/-- FX18 with V0 = 2. -/
def settingSound : State := (withV [(0, 2)]).placeWord 0xF018

theorem witness_CountersFallBetweenSets :
    (∃ t, agentStep .core settingDelay = .next t ∧ settingDelay.dt.toNat < t.dt.toNat) ∧
    ∃ t, agentStep .core settingSound = .next t ∧ settingSound.st.toNat < t.st.toNat := ⟨⟨_, rfl, by decide⟩, _, rfl, by decide⟩

/-- A core step of the ROM's FX07 stands between the ticks. -/
theorem witness_DelayAfterTicks :
    ∃ t, runAgents [.timerTick, .core, .handOff, .timerTick] ({ withCapacity 1 with dt := 1 }.placeWord 0xF007) = .next t ∧
      SetsNoDelay [.timerTick, .core, .handOff, .timerTick] ({ withCapacity 1 with dt := 1 }.placeWord 0xF007) ∧
      t.cancelled = false := by
  refine ⟨_, rfl, ⟨by simp, fun t h => ?_⟩, rfl⟩
  cases h
  exact ⟨fun _ x hx => (by have := hx.word; cases this), fun t _ => ⟨by simp, fun t _ => ⟨by simp, fun t _ => trivial⟩⟩⟩

theorem witness_OnlyDestinationsAreWritten :
    (State.reset.coreMode = .running ∧ ∃ t, exec (.addReg 3 4) State.reset = .next t ∧ t.coreMode = .running ∧
      (5 : Reg) ∉ writtenRegs (.addReg 3 4) ∧ regF ∈ writtenRegs (.addReg 3 4) ∧ writesI State.reset.config (.addReg 3 4) = false) ∧
    (∃ t, exec (.ldI 0x300) unwrittenState = .next t ∧ t.coreMode = .running ∧ writesI unwrittenState.config (.ldI 0x300) = true) ∧
    ∃ t, exec (.ldVxK 15) { unwrittenState with coreMode := .wakeKey 15 7 } = .next t ∧ t.coreMode = .running ∧
      regF ∈ writtenRegs (.ldVxK 15) :=
  ⟨⟨rfl, _, rfl, rfl, by decide, by decide, rfl⟩, ⟨_, rfl, rfl, rfl⟩, _, rfl, rfl, by decide⟩

/-- V0 written, V1 and I not. -/
def partlyWritten : State := unwrittenState.setV 0 1

theorem witness_UnwrittenReadComesFirst :
    (partlyWritten.config.resetRegs = .unwritten ∧ (1 : Reg) ∈ snapshotRegs partlyWritten.config (.drw 0 1 5) ∧
      partlyWritten.unwrittenV[(1 : Reg)] = true ∧
      ∀ q : Reg, q < 1 → q ∈ snapshotRegs partlyWritten.config (.drw 0 1 5) → partlyWritten.unwrittenV[q] = false) ∧
    ((∀ q ∈ snapshotRegs partlyWritten.config (.ldBVx 0), partlyWritten.unwrittenV[q] = false) ∧ snapshotsI (.ldBVx 0) = true ∧
      partlyWritten.unwrittenI = true) ∧
    (State.reset.config.resetRegs = .zero ∧ State.reset.coreMode = .running ∧ ∃ t, exec .ret State.reset = .next t) :=
  ⟨by decide, by decide, rfl, rfl, ⟨_, rfl⟩⟩

/-- A step that changes each: FX33, CALL, ANNN, and a key press. -/
theorem witness_StateHasItsWriters :
    (∃ t, agentStep .core ((withVI [(0, 0x88)] 0x300).placeWord 0xF033) = .next t ∧ t.byteAt 0x300 = 1) ∧
    (∃ t, agentStep .core (State.reset.placeWord 0x2400) = .next t ∧ t.depth = 1) ∧
    (∃ t, agentStep .core (State.reset.placeWord 0xA300) = .next t ∧ t.i = 0x300) ∧
    ∃ t, agentStep (.keyPressed 0) State.reset = .next t ∧ t.latch = some 0 :=
  ⟨⟨_, rfl, by decide⟩, ⟨_, rfl, rfl⟩, ⟨_, rfl, rfl⟩, _, rfl, rfl⟩

theorem witness_PcAdvancesByTwo :
    (State.reset.coreMode = .running ∧ ∃ t, exec .ret State.reset = .next t ∧ t.coreMode ≠ .running) ∧
    ∃ t, exec (.seReg 1 1) State.reset = .next t ∧ t.coreMode = .running ∧ Instr.seReg 1 1 ≠ .ret ∧
      ∀ nnn, Instr.seReg 1 1 ≠ .jp nnn ∧ Instr.seReg 1 1 ≠ .call nnn ∧ Instr.seReg 1 1 ≠ .jpV0 nnn :=
  ⟨⟨rfl, _, rfl, by decide⟩, _, rfl, rfl, by decide, by simp⟩

theorem witness_UnknownWordIsANoOp : isUnknownWord true 0x0123 = true ∧ isUnknownWord false 0x8ABF = true := by decide

theorem witness_ParametersNeverChange : ∃ t, step State.reset = .next t := ⟨_, rfl⟩

theorem witness_StepKeepsTheInvariant : heldState.Inv ∧ ∃ t, step { heldState with schedule := [.keyPressed 0] } = .next t where
  left :=
    { memory := rfl
      pc_range := by decide
      waiting_pc := show (4094 : Word).toNat ≤ 4094 by decide
      waiting_instr := show decodeWord true (wordAtPc heldState) = .ldVxK 15 by decide
      returns := fun k _ hk => absurd hk (Nat.not_lt_zero k)
      channel := Nat.zero_le _
      stopped_timer := fun h => by cases h
      stopped_core := fun h => by cases h
      held := rfl }
  right := ⟨_, rfl⟩

theorem witness_ResetMeetsTheInvariant : ∃ s, boot Config.default [0xF0, 0x0A] = .next s := ⟨_, rfl⟩

/-- A held core is reached from the boot of a ROM that starts with F00A. -/
theorem witness_PcStaysInRange :
    ∃ s, Reachable Config.default [0xF0, 0x0A] s ∧ s.coreMode = .heldKey 0 :=
  ⟨_, .step .core (.boot rfl) rfl, rfl⟩

/-- Boots under both settings of RESET_REGS. -/
theorem witness_ResetValues :
    (∃ s, boot Config.default [0xF0, 0x0A] = .next s ∧ Config.default.resetRegs = .zero) ∧
    ∃ s, boot { Config.default with resetRegs := .unwritten } [0xF0, 0x0A] = .next s ∧
      ({ Config.default with resetRegs := .unwritten } : Config).resetRegs = .unwritten := ⟨⟨_, rfl, rfl⟩, _, rfl, rfl⟩

/-- A completing ANNN, and an FX0A that completes with a handed key, leave what they write written (R36, R38, R193). -/
theorem test_write_clears_mark : after (exec (.ldI 0x300) unwrittenState) (·.unwrittenI) = some false ∧
    after (exec (.ldVxK 3) { unwrittenState with coreMode := .wakeKey 3 7 }) (fun t => (t.v[(3 : Reg)], t.unwrittenV[(3 : Reg)])) =
      some (7, false) := by decide

/-- A register not yet written has no value in the observation, and one written has (R36, R236). -/
theorem test_observe_unwritten : partlyWritten.observe.v[(0 : Reg)] = some 1 ∧ partlyWritten.observe.v[(1 : Reg)] = none ∧
    partlyWritten.observe.i = none ∧ State.reset.observe.i = some 0 := by decide

theorem witness_BootLoadsFontAndRom :
    (({ Config.default with romOversize := .refuse } : Config).romOversize = .refuse ∧ 3584 < (List.replicate 3585 (0 : Byte)).length) ∧
    Config.default.romOversize = .truncate ∧ ([] : List Byte).length ≤ 3584 := ⟨⟨rfl, by rw [List.length_replicate]; decide⟩, rfl, by decide⟩

/-- The state with a sample pending. -/
def pendingState : State := { withCapacity 1 with pending := some 255 }

theorem witness_TimerTickCountsDown :
    (State.reset.timerStopped = false ∧ State.reset.pending = none ∧ State.reset.cancelled = false) ∧
    ({ State.reset with cancelled := true } : State).cancelled = true ∧
    ({ State.reset with timerStopped := true } : State).timerStopped = true ∧ pendingState.pending ≠ none := by decide

theorem witness_SamplesGoThroughTheChannel :
    (pendingState.pending = some 255 ∧ pendingState.cancelled = false ∧ pendingState.chan.length < pendingState.config.soundChannelCapacity) ∧
    ({ pendingState with chan := [0] } : State).config.soundChannelCapacity ≤ ({ pendingState with chan := [0] } : State).chan.length ∧
    ({ pendingState with cancelled := true } : State).cancelled = true ∧
    (({ withCapacity 0 with pending := some 1 } : State).config.soundChannelCapacity = 0 ∧
      ({ withCapacity 0 with pending := some 1 } : State).chan = [] ∧
      ({ withCapacity 0 with pending := some 1 } : State).cancelled = false ∧
      ({ withCapacity 0 with pending := some 1, cancelled := true } : State).cancelled = true) ∧
    (({ withCapacity 1 with chan := [0] } : State).chan = 0 :: [] ∧ ({ withCapacity 1 with chan := [0] } : State).pending = none) ∧
    ((withCapacity 0).chan = [] ∧ (withCapacity 0).pending = none ∧ pendingState.chan = [] ∧
      pendingState.config.soundChannelCapacity ≠ 0) := by decide

theorem witness_KeyEvents :
    (heldState.cancelled = false ∧ heldState.coreMode = .heldKey 15) ∧ (State.reset.cancelled = false ∧ ∀ x, State.reset.coreMode ≠ .heldKey x) ∧
    (15 : Nat) < 16 ∧ ({ State.reset with cancelled := true } : State).cancelled = true := by decide

theorem witness_CancellationStopsTheLoops :
    State.reset.cancelled = false ∧ (∃ t, agentStep .core { State.reset with cancelled := true } = .next t) ∧
    (({ State.reset with cancelled := true } : State).coreMode = .running ∧ ({ State.reset with cancelled := true } : State).timerStopped = false) ∧
    ({ State.reset with cancelled := true, coreMode := .wakeKey 0 9 } : State).coreMode = .wakeKey 0 9 ∧
    ∃ t, agentStep .timerTick { heldState with cancelled := true } = .next t := ⟨rfl, ⟨_, rfl⟩, by decide, rfl, ⟨_, rfl⟩⟩

theorem witness_AgentsStepExactlyWhenEnabled :
    enabled .core State.reset = true ∧ enabled .timerTick State.reset = true ∧ enabled .handOff pendingState = true ∧
    enabled .sinkReceive { withCapacity 0 with pending := some 1 } = true ∧ enabled (.keyPressed 15) State.reset = true ∧
    enabled (.keyPressed 16) State.reset = false ∧ enabled .clearKeys State.reset = true ∧ enabled .cancel State.reset = true := by decide

/-! A weakly fair run: a held core, capacity 1, and the timer and the sink taking turns. -/

def fairStates (n : Nat) : State :=
  { withCapacity 1 with
    coreMode := .heldKey 0
    pending := if n % 3 = 1 then some 0 else none
    chan := if n % 3 = 2 then [0] else []
    sampleLog := List.replicate ((n + 1) / 3) 0 }

def fairMoves (n : Nat) : AgentStep := if n % 3 = 0 then .timerTick else if n % 3 = 1 then .handOff else .sinkReceive

def fairRun : InfiniteRun where
  states := fairStates
  moves := fairMoves
  valid := by
    intro n
    have h3 : n % 3 = 0 ∨ n % 3 = 1 ∨ n % 3 = 2 := by omega
    rcases h3 with h | h | h
    · have h1 : (n + 1) % 3 = 1 := by omega
      have h2 : (n + 1 + 1) / 3 = (n + 1) / 3 := by omega
      simp [fairMoves, fairStates, agentStep, timerTick, withCapacity, State.resetWith, tickDown, h, h1, h2]
    · have h1 : (n + 1) % 3 = 2 := by omega
      have h2 : (n + 1 + 1) / 3 = (n + 1) / 3 + 1 := by omega
      simp [fairMoves, fairStates, agentStep, handOff, withCapacity, State.resetWith, h, h1, h2, List.replicate_succ']
    · have h1 : (n + 1) % 3 = 0 := by omega
      have h2 : (n + 1 + 1) / 3 = (n + 1) / 3 := by omega
      simp [fairMoves, fairStates, agentStep, sinkReceive, withCapacity, State.resetWith, h, h1, h2]

theorem witness_FairRunsKeepTicking :
    fairRun.WeaklyFair ∧ (∀ n, (fairRun.states n).cancelled = false) ∧ (fairRun.states 0).timerStopped = false := by
  refine ⟨?_, fun n => rfl, rfl⟩
  intro a ha n hen
  simp only [List.mem_cons, List.not_mem_nil, or_false] at ha
  rcases ha with rfl | rfl | rfl | rfl
  · exact absurd (hen n (Nat.le_refl n)) (by simp [enabled, fairRun, fairStates])
  · exact ⟨3 * n, by omega, by simp [fairRun, fairMoves]⟩
  · exact ⟨3 * n + 1, by omega, by simp [fairRun, fairMoves, Nat.add_mod]⟩
  · exact ⟨3 * n + 2, by omega, by simp [fairRun, fairMoves, Nat.add_mod]⟩

end Sys2Proof.Tests
end

section
/-! PROOFS. What every step answers and keeps, whatever the instruction and whichever the agent (spec 00_scope.md). -/

namespace Sys2Proof.Machine

/-! ### No instruction is refused -/

/-- The end of an instruction is a next state, also where it faults (R211). -/
theorem State.settle_answersNext (s : State) (r : Except Fault State) : ∃ t, s.settle r = .next t := by
  obtain ⟨t, -, e⟩ | ⟨f, -, e⟩ := s.settle_cases r
  · exact ⟨t, e⟩
  · exact ⟨s.raise f, e⟩

/-- No arm of the dispatch refuses (R74): seven instructions complete in every state, and the others settle what they
computed, which may be a fault, or for FX0A a hold. -/
theorem exec_answersNext (i : Instr) (s : State) : ∃ t, exec i s = .next t := by
  cases i with
  | cls => exact ⟨_, exec_cls s⟩
  | jp nnn => exact ⟨_, exec_jp nnn s⟩
  | ldImm x nn => exact ⟨_, exec_ldImm x nn s⟩
  | ldI nnn => exact ⟨_, exec_ldI nnn s⟩
  | rnd x nn => exact ⟨_, exec_rnd x nn s⟩
  | ldVxDT x => exact ⟨_, exec_ldVxDT x s⟩
  | unknown op => exact ⟨_, exec_unknown s op⟩
  | _ => exact s.settle_answersNext _

/-- A core with an enabled step is running or has the key its FX0A waited for (R222). -/
theorem enabled_core_iff (s : State) :
    enabled .core s = true ↔ s.coreMode = .running ∨ ∃ x k, s.coreMode = .wakeKey x k := by
  cases hm : s.coreMode <;> simp [enabled, hm]

/-- A running core stops, runs the instruction it fetched, or faults at the fetch. -/
theorem coreStep_answersNext_of_running {s : State} (hm : s.coreMode = .running) : ∃ t, coreStep s = .next t := by
  cases hc : s.cancelled with
  | true => exact ⟨{ s with coreMode := .stopped }, by simp [coreStep, hm, hc]⟩
  | false =>
    cases hf : s.fetchWord with
    | ok op => simpa [coreStep, hm, hc, hf] using exec_answersNext _ s
    | error f => exact ⟨s.raise f, by simp [coreStep, hm, hc, hf]⟩

theorem coreStep_of_wakeKey {s : State} {x : Reg} {k : Key} (hm : s.coreMode = .wakeKey x k) :
    coreStep s = exec (.ldVxK x) s := by
  simp only [coreStep, hm]

theorem coreStep_answersNext_of_enabled {s : State} (he : enabled .core s = true) : ∃ t, coreStep s = .next t := by
  obtain hm | ⟨x, k, hm⟩ := (enabled_core_iff s).1 he
  · exact coreStep_answersNext_of_running hm
  · rw [coreStep_of_wakeKey hm]
    exact exec_answersNext _ s

/-- Settles O8: no arm of the dispatch refuses, and an enabled core runs an instruction, stops or faults at the fetch. -/
theorem noInstructionIsRefused : Obligations.NoInstructionIsRefused :=
  ⟨exec_answersNext, fun _ => coreStep_answersNext_of_enabled⟩

/-! ### The parameters are constants -/

theorem exec_config {i : Instr} {s t : State} (h : exec i s = .next t) : t.config = s.config := by
  obtain ⟨f, -, rfl⟩ | ⟨hk, -⟩ := exec_cases h
  · exact s.raise_config f
  · exact hk.config

theorem coreStep_config {s t : State} (h : coreStep s = .next t) : t.config = s.config := by
  obtain ⟨-, -, rfl⟩ | ⟨f, -, -, -, -, rfl⟩ | ⟨i, -, hi⟩ | ⟨x, k, -, hi⟩ := coreStep_cases h
  · rfl
  · exact s.raise_config f
  · exact exec_config hi
  · exact exec_config hi

theorem agentStep_config {a : AgentStep} {s t : State} (h : agentStep a s = .next t) : t.config = s.config := by
  by_cases ha : a = .core
  · subst ha
    exact coreStep_config h
  · obtain ⟨hk, -⟩ := agentStep_keepsCore ha h
    exact hk.config

@[simp] theorem State.takeTurn_snd_config (s : State) : s.takeTurn.2.config = s.config := by
  cases hs : s.schedule <;> simp [State.takeTurn, hs]

/-- Settles O49: taking the turn changes only the schedule, and the step of no agent changes a parameter. -/
theorem parametersNeverChange : Obligations.ParametersNeverChange := by
  intro s t h
  calc t.config = s.takeTurn.2.config := agentStep_config h
    _ = s.config := s.takeTurn_snd_config

end Sys2Proof.Machine
end

section
/-! PROOFS. What an instruction that raises no fault does, said once for all instructions, and which fields each one leaves
(spec 10_state.md R20-R34). -/

namespace Sys2Proof.Machine

/-! ### The effect of an instruction -/

/-- V registers `v` with marks `u` differ from those of `s` at most in the destinations of `i`, and every destination counts
as written (R21, R36). -/
structure WritesItsRegs (i : Instr) (s : State) (v : Vector Byte 16) (u : Vector Bool 16) : Prop where
  others : ∀ r : Reg, r ∉ writtenRegs i → v[r] = s.v[r] ∧ u[r] = s.unwrittenV[r]
  written : ∀ r : Reg, r ∈ writtenRegs i → u[r] = false

/-- An I of `w` with mark `u` is the one of `s` unless `i` writes it, and counts as written where it does (R24, R38). -/
structure WritesItsIndex (i : Instr) (s : State) (w : Word) (u : Bool) : Prop where
  kept : writesI s.config i = false → w = s.i ∧ u = s.unwrittenI
  written : writesI s.config i = true → u = false

/-- What an instruction that raises no fault does. Instructions that write the same fields share a constructor, which says of
the values only what the rules about the whole machine need. -/
inductive Effect (s : State) : Instr → State → Prop
  | skips {i : Instr} (c : Bool) : writtenRegs i = [] → (∀ p, writesI p i = false) → Effect s i (s.skipIf c)
  | jumps {i : Instr} {w : Word} : writtenRegs i = [] → (∀ p, writesI p i = false) → w.toNat ≤ 4350 → Effect s i (s.setPc w)
  | unknown (op : Word) : Effect s (.unknown op) s.advance
  | writesV {i : Instr} {v : Vector Byte 16} {u : Vector Bool 16} {n : Nat} : (∀ p, writesI p i = false) →
      WritesItsRegs i s v u → Effect s i ({ s with v := v, unwrittenV := u, freeIndex := n } : State).advance
  | cls : Effect s .cls ({ s with fb := 0 } : State).emitDraw.advance
  | drw (x y : Reg) (n : BitVec 4) : Effect s (.drw x y n) (s.drawn x y n)
  | ret (h : 0 < s.depth.val) : Effect s .ret
      (({ s with depth := ⟨s.depth.val - 1, by omega⟩ } : State).setPc s.stack[s.depth.val - 1])
  | call (nnn : BitVec 12) (h : s.depth.val < 16) : Effect s (.call nnn)
      (({ s with stack := s.stack.set s.depth.val (s.pc + 2), depth := ⟨s.depth.val + 1, by omega⟩ } : State).setPc
        (addressOf nnn))
  | ldI (nnn : BitVec 12) : Effect s (.ldI nnn) (s.setI (addressOf nnn)).advance
  | ldFVx (x : Reg) : Effect s (.ldFVx x) (s.setI (BitVec.ofNat 16 (s.v[x].toNat * 5))).advance
  | addIVx (x : Reg) (w : Word) (b : Byte) : Effect s (.addIVx x) ((s.setI w).setV regF b).advance
  | ldDTVx (x : Reg) : Effect s (.ldDTVx x) (s.setDelay s.v[x]).advance
  | ldSTVx (x : Reg) : Effect s (.ldSTVx x) (s.setSound s.v[x]).advance
  | ldBVx (x : Reg) {m : Memory} : (Memory.wf s.config.font s.mem = true → Memory.wf s.config.font m = true) →
      Effect s (.ldBVx x) ({ s with mem := m } : State).advance
  | storeRegs (x : Reg) {m : Memory} {w : Word} {u : Bool} :
      (Memory.wf s.config.font s.mem = true → Memory.wf s.config.font m = true) → WritesItsIndex (.storeRegs x) s w u →
      Effect s (.storeRegs x) ({ s with mem := m, i := w, unwrittenI := u } : State).advance
  | loadRegs (x : Reg) {v : Vector Byte 16} {uv : Vector Bool 16} {w : Word} {u : Bool} :
      WritesItsRegs (.loadRegs x) s v uv → WritesItsIndex (.loadRegs x) s w u →
      Effect s (.loadRegs x) ({ s with v := v, unwrittenV := uv, i := w, unwrittenI := u } : State).advance
  | takesKey (x : Reg) (k : Key) : Effect s (.ldVxK x) (({ s with coreMode := .running } : State).setV x (keyByte k)).advance
  | takesToken (x : Reg) (k : Key) : Effect s (.ldVxK x) (({ s with token := none } : State).setV x (keyByte k)).advance
  | holds (x : Reg) : s.token = none → Effect s (.ldVxK x) { s with coreMode := .heldKey x }

theorem WritesItsRegs.nothing {i : Instr} {s : State} (hi : writtenRegs i = []) :
    WritesItsRegs i s s.v s.unwrittenV where
  others _ _ := ⟨rfl, rfl⟩
  written r hr := by rw [hi] at hr; cases hr

theorem WritesItsRegs.setV {i : Instr} {x : Reg} {s : State} (b : Byte) (hi : writtenRegs i = [x]) :
    WritesItsRegs i s (s.setV x b).v (s.setV x b).unwrittenV where
  others r hr := by
    have hx : r ≠ x := by simpa [hi] using hr
    rw [State.setV_get, State.setV_unwritten, if_neg hx, if_neg hx]
    exact ⟨rfl, rfl⟩
  written r hr := by
    have hx : r = x := by simpa [hi] using hr
    rw [State.setV_unwritten, if_pos hx]

theorem WritesItsRegs.setV_setV {i : Instr} {x y : Reg} {s : State} (a b : Byte) (hi : writtenRegs i = [x, y]) :
    WritesItsRegs i s ((s.setV x a).setV y b).v ((s.setV x a).setV y b).unwrittenV where
  others r hr := by
    obtain ⟨hx, hy⟩ : r ≠ x ∧ r ≠ y := by simpa [hi] using hr
    rw [State.setV_get, State.setV_unwritten, if_neg hy, if_neg hy, State.setV_get, State.setV_unwritten, if_neg hx,
      if_neg hx]
    exact ⟨rfl, rfl⟩
  written r hr := by
    have hxy : r = x ∨ r = y := by simpa [hi] using hr
    rw [State.setV_unwritten, State.setV_unwritten]
    split
    · rfl
    · next hy => rw [if_pos (hxy.resolve_right hy)]

theorem WritesItsRegs.loadBlock (s : State) (a : Nat) (x : Reg) :
    WritesItsRegs (.loadRegs x) s (s.loadBlock a x).v (s.loadBlock a x).unwrittenV where
  others r hr := by
    have hx : ¬ r.val ≤ x.val := by simpa [writtenRegs] using hr
    rw [State.loadBlock_get, State.loadBlock_unwritten, if_neg hx, if_neg hx]
    exact ⟨rfl, rfl⟩
  written r hr := by
    have hx : r.val ≤ x.val := by simpa [writtenRegs] using hr
    rw [State.loadBlock_unwritten, if_pos hx]

theorem WritesItsIndex.nothing {i : Instr} {s : State} (hi : ∀ p, writesI p i = false) :
    WritesItsIndex i s s.i s.unwrittenI where
  kept _ := ⟨rfl, rfl⟩
  written h := by rw [hi] at h; cases h

theorem WritesItsIndex.always {i : Instr} {s : State} (w : Word) (hi : ∀ p, writesI p i = true) :
    WritesItsIndex i s w false where
  kept h := by rw [hi] at h; cases h
  written _ := rfl

/-- FX55 and FX65 write I exactly under `MEM_INCREMENTS_I = true`, whatever they wrote before (R154, R155). -/
theorem WritesItsIndex.bumpI {i : Instr} {s t : State} (x : Reg) (hi : writesI s.config i = s.config.memIncrementsI)
    (hc : t.config = s.config) (ht : t.i = s.i) (hu : t.unwrittenI = s.unwrittenI) :
    WritesItsIndex i s (t.bumpI x).i (t.bumpI x).unwrittenI := by
  unfold State.bumpI
  rw [hc]
  split
  · next hm => exact ⟨fun h => absurd (hi ▸ h) (by simp [hm]), fun _ => rfl⟩
  · next hm => exact ⟨fun _ => ⟨ht, hu⟩, fun h => absurd (hi ▸ h) hm⟩

theorem Effect.setV {i : Instr} {x : Reg} {s : State} (b : Byte) (hr : writtenRegs i = [x])
    (hi : ∀ p, writesI p i = false) : Effect s i (s.setV x b).advance :=
  .writesV hi (.setV b hr)

theorem Effect.writeResultAndFlag {i : Instr} {x : Reg} {s : State} (b : Byte) (c : Bool)
    (hr : writtenRegs i = [x, regF]) (hi : ∀ p, writesI p i = false) : Effect s i (s.writeResultAndFlag x b c).advance := by
  obtain ⟨-, e⟩ | ⟨-, -, e⟩ := s.writeResultAndFlag_cases x b c
  · rw [e]
    exact .writesV hi (.setV_setV b (flagValue c) hr)
  · rw [e]
    exact .writesV hi (.setV_setV b (Config.flagByte s.freeIndex) hr)

theorem Effect.storeBlock (s : State) (x : Reg) (h : s.i.toNat + (x.val + 1) ≤ 4096) :
    Effect s (.storeRegs x) ((s.storeBytes s.i.toNat (s.blockBytes x)).bumpI x).advance := by
  have hm := s.wf_storeBytes s.i.toNat (s.blockBytes x) (by rwa [s.blockBytes_length])
  rw [State.bumpI_eq, State.storeBytes_eq]
  exact .storeRegs x hm (.bumpI x rfl rfl rfl rfl)

theorem Effect.loadBlock (s : State) (x : Reg) : Effect s (.loadRegs x) ((s.loadBlock s.i.toNat x).bumpI x).advance := by
  rw [State.bumpI_eq, State.loadBlock_eq]
  exact .loadRegs x (.loadBlock s s.i.toNat x) (.bumpI x rfl rfl rfl rfl)

/-- How an instruction ends in `t`: with its effect, or with a fault raised, which is UNWRITTEN_READ only under
`RESET_REGS = unwritten` (R36, R211). -/
abbrev EndsIn (i : Instr) (s t : State) : Prop :=
  Effect s i t ∨ ∃ f, (∀ r pc, f = .unwrittenRead r pc → s.config.resetRegs = .unwritten) ∧ t = s.raise f

section
variable {i : Instr} {s t t' : State} {vs : List Reg} {n : Nat}

theorem endsIn_of_completes (e : exec i s = .next t') (he : Effect s i t') (h : exec i s = .next t) : EndsIn i s t := by
  rw [e] at h
  cases h
  exact .inl he

theorem endsIn_of_raises {f : Fault} (hf : ∀ r pc, f = .unwrittenRead r pc → s.config.resetRegs = .unwritten)
    (e : exec i s = .next (s.raise f)) (h : exec i s = .next t) : EndsIn i s t := by
  rw [e] at h
  cases h
  exact .inr ⟨f, hf, rfl⟩

theorem endsIn_of_readsThen {usesI : Bool} (hr : ReadsThen i s vs usesI t') (he : Effect s i t')
    (h : exec i s = .next t) : EndsIn i s t := by
  obtain ⟨-, e⟩ | ⟨_, -, hu, e⟩ := hr
  · exact endsIn_of_completes e he h
  · exact endsIn_of_raises (fun _ _ _ => hu) e h

theorem endsIn_of_transfersThen (hr : TransfersThen i s vs (n + 1) t') (he : s.i.toNat + (n + 1) ≤ 4096 → Effect s i t')
    (h : exec i s = .next t) : EndsIn i s t := by
  obtain ⟨-, hin, e⟩ | ⟨-, -, e⟩ | ⟨_, -, hu, e⟩ := hr
  · exact endsIn_of_completes e (he (by omega)) h
  · exact endsIn_of_raises (fun _ _ hf => by cases hf) e h
  · exact endsIn_of_raises (fun _ _ _ => hu) e h

end

theorem addressOf_toNat_lt (nnn : BitVec 12) : (addressOf nnn).toNat < 4096 := by
  have := nnn.isLt
  simp only [addressOf, BitVec.toNat_setWidth]
  omega

/-- BNNN goes at most to 0xFF + 0xFFF, the highest PC of all (R23, R104). -/
theorem offsetTarget_toNat_le (v : Byte) (nnn : BitVec 12) : (offsetTarget v nnn).toNat ≤ 4350 := by
  have := nnn.isLt
  have := v.isLt
  simp only [offsetTarget, BitVec.toNat_add, BitVec.toNat_setWidth]
  omega

/-- Every instruction ends with its effect or with a fault. -/
theorem exec_endsIn {i : Instr} {s t : State} (h : exec i s = .next t) : EndsIn i s t := by
  cases i with
  | cls => exact endsIn_of_completes (exec_cls s) .cls h
  | ret =>
    obtain ⟨hd, e⟩ | ⟨-, e⟩ := exec_ret s
    · exact endsIn_of_completes e (.ret hd) h
    · exact endsIn_of_raises (fun _ _ hf => by cases hf) e h
  | jp nnn =>
    have := addressOf_toNat_lt nnn
    exact endsIn_of_completes (exec_jp nnn s) (.jumps rfl (fun _ => rfl) (by omega)) h
  | call nnn =>
    obtain ⟨hd, e⟩ | ⟨-, e⟩ := exec_call nnn s
    · exact endsIn_of_completes e (.call nnn hd) h
    · exact endsIn_of_raises (fun _ _ hf => by cases hf) e h
  | seImm x nn => exact endsIn_of_readsThen (exec_seImm x nn s) (.skips _ rfl fun _ => rfl) h
  | sneImm x nn => exact endsIn_of_readsThen (exec_sneImm x nn s) (.skips _ rfl fun _ => rfl) h
  | seReg x y => exact endsIn_of_readsThen (exec_seReg x y s) (.skips _ rfl fun _ => rfl) h
  | ldImm x nn => exact endsIn_of_completes (exec_ldImm x nn s) (.setV _ rfl fun _ => rfl) h
  | addImm x nn => exact endsIn_of_readsThen (exec_addImm x nn s) (.setV _ rfl fun _ => rfl) h
  | ldReg x y => exact endsIn_of_readsThen (exec_ldReg x y s) (.setV _ rfl fun _ => rfl) h
  | orReg x y => exact endsIn_of_readsThen (exec_orReg x y s) (.setV _ rfl fun _ => rfl) h
  | andReg x y => exact endsIn_of_readsThen (exec_andReg x y s) (.setV _ rfl fun _ => rfl) h
  | xorReg x y => exact endsIn_of_readsThen (exec_xorReg x y s) (.setV _ rfl fun _ => rfl) h
  | addReg x y => exact endsIn_of_readsThen (exec_addReg x y s) (.writeResultAndFlag _ _ rfl fun _ => rfl) h
  | subReg x y => exact endsIn_of_readsThen (exec_subReg x y s) (.writeResultAndFlag _ _ rfl fun _ => rfl) h
  | shr x y => exact endsIn_of_readsThen (exec_shr x y s) (.writeResultAndFlag _ _ rfl fun _ => rfl) h
  | subn x y => exact endsIn_of_readsThen (exec_subn x y s) (.writeResultAndFlag _ _ rfl fun _ => rfl) h
  | shl x y => exact endsIn_of_readsThen (exec_shl x y s) (.writeResultAndFlag _ _ rfl fun _ => rfl) h
  | sneReg x y => exact endsIn_of_readsThen (exec_sneReg x y s) (.skips _ rfl fun _ => rfl) h
  | ldI nnn => exact endsIn_of_completes (exec_ldI nnn s) (.ldI nnn) h
  | jpV0 nnn =>
    exact endsIn_of_readsThen (exec_jpV0 nnn s) (.jumps rfl (fun _ => rfl) (offsetTarget_toNat_le _ nnn)) h
  | rnd x nn =>
    exact endsIn_of_completes (exec_rnd x nn s) (.writesV (fun _ => rfl) (.setV (s.rand8.1 &&& nn) rfl)) h
  | drw x y n =>
    obtain ⟨-, -, -, e⟩ | ⟨-, -, _, -, e⟩ | ⟨-, -, e⟩ | ⟨_, -, hu, e⟩ := exec_drw x y s n
    · exact endsIn_of_completes e (.drw x y n) h
    · exact endsIn_of_raises (fun _ _ hf => by cases hf) e h
    · exact endsIn_of_raises (fun _ _ hf => by cases hf) e h
    · exact endsIn_of_raises (fun _ _ _ => hu) e h
  | skp x => exact endsIn_of_readsThen (exec_skp x s) (.skips _ rfl fun _ => rfl) h
  | sknp x => exact endsIn_of_readsThen (exec_sknp x s) (.skips _ rfl fun _ => rfl) h
  | ldVxDT x => exact endsIn_of_completes (exec_ldVxDT x s) (.setV _ rfl fun _ => rfl) h
  | ldVxK x =>
    obtain ⟨_, k, -, e⟩ | ⟨-, k, -, e⟩ | ⟨-, ht, e⟩ := exec_ldVxK x s
    · exact endsIn_of_completes e (.takesKey x k) h
    · exact endsIn_of_completes e (.takesToken x k) h
    · exact endsIn_of_completes e (.holds x ht) h
  | ldDTVx x => exact endsIn_of_readsThen (exec_ldDTVx x s) (.ldDTVx x) h
  | ldSTVx x => exact endsIn_of_readsThen (exec_ldSTVx x s) (.ldSTVx x) h
  | addIVx x => exact endsIn_of_readsThen (exec_addIVx x s) (.addIVx x _ _) h
  | ldFVx x => exact endsIn_of_readsThen (exec_ldFVx x s) (.ldFVx x) h
  | ldBVx x =>
    refine endsIn_of_transfersThen (exec_ldBVx x s) (fun hin => ?_) h
    rw [State.storeBytes_eq]
    exact .ldBVx x (s.wf_storeBytes s.i.toNat (decimalDigits s.v[x]) hin)
  | storeRegs x => exact endsIn_of_transfersThen (exec_storeRegs x s) (Effect.storeBlock s x) h
  | loadRegs x => exact endsIn_of_transfersThen (exec_loadRegs x s) (fun _ => Effect.loadBlock s x) h
  | unknown op => exact endsIn_of_completes (exec_unknown s op) (.unknown op) h

/-! ### What an effect writes -/

section
variable {i : Instr} {s t : State}

theorem Effect.memory (h : Effect s i t) : t.mem = s.mem ∨ ∃ x, i = .ldBVx x ∨ i = .storeRegs x := by
  cases h with
  | ldBVx x => exact .inr ⟨x, .inl rfl⟩
  | storeRegs x => exact .inr ⟨x, .inr rfl⟩
  | _ => exact .inl rfl

theorem Effect.stack (h : Effect s i t) :
    (t.stack = s.stack ∧ t.depth = s.depth) ∨ i = .ret ∨ ∃ nnn, i = .call nnn := by
  cases h with
  | ret => exact .inr (.inl rfl)
  | call nnn => exact .inr (.inr ⟨nnn, rfl⟩)
  | _ => exact .inl ⟨rfl, rfl⟩

theorem Effect.screen (h : Effect s i t) :
    (t.fb = s.fb ∧ t.drawLog = s.drawLog) ∨
    ((i = .cls ∨ ∃ x y n, i = .drw x y n) ∧ t.drawLog = s.drawLog ++ [t.fb]) := by
  cases h with
  | cls => exact .inr ⟨.inl rfl, rfl⟩
  | drw x y n => exact .inr ⟨.inr ⟨x, y, n, rfl⟩, rfl⟩
  | _ => exact .inl ⟨rfl, rfl⟩

theorem Effect.delay (h : Effect s i t) : t.dt = s.dt ∨ ∃ x, i = .ldDTVx x := by
  cases h with
  | ldDTVx x => exact .inr ⟨x, rfl⟩
  | _ => exact .inl rfl

theorem Effect.sound (h : Effect s i t) : t.st = s.st ∨ ∃ x, i = .ldSTVx x := by
  cases h with
  | ldSTVx x => exact .inr ⟨x, rfl⟩
  | _ => exact .inl rfl

/-- An instruction that does not hold writes its destinations (R21, R36). -/
theorem Effect.regs (h : Effect s i t) :
    WritesItsRegs i s t.v t.unwrittenV ∨ ∃ x, i = .ldVxK x ∧ t = { s with coreMode := .heldKey x } := by
  cases h with
  | holds x => exact .inr ⟨x, rfl, rfl⟩
  | skips _ hr => exact .inl (.nothing hr)
  | jumps hr => exact .inl (.nothing hr)
  | writesV _ hr => exact .inl hr
  | loadRegs _ hr => exact .inl hr
  | drw => exact .inl (.setV _ rfl)
  | addIVx => exact .inl (.setV _ rfl)
  | takesKey => exact .inl (.setV _ rfl)
  | takesToken => exact .inl (.setV _ rfl)
  | _ => exact .inl (.nothing rfl)

theorem Effect.index (h : Effect s i t) : WritesItsIndex i s t.i t.unwrittenI := by
  cases h with
  | skips _ _ hi => exact .nothing hi
  | jumps _ hi => exact .nothing hi
  | writesV hi => exact .nothing hi
  | storeRegs _ _ hi => exact hi
  | loadRegs _ _ hi => exact hi
  | ldI => exact .always _ fun _ => rfl
  | ldFVx => exact .always _ fun _ => rfl
  | addIVx => exact .always _ fun _ => rfl
  | _ => exact .nothing fun _ => rfl

end

end Sys2Proof.Machine
end

section
/-! PROOFS. The invariant of the machine (spec 10_state.md R23-R33), kept by every step of every agent and met by every boot. -/

namespace Sys2Proof.Machine

/-! ### An effect keeps the invariant's parts -/

section
variable {i : Instr} {s t : State}

theorem Effect.memory_wf (h : Effect s i t) (hs : Memory.wf s.config.font s.mem = true) :
    Memory.wf s.config.font t.mem = true := by
  cases h with
  | ldBVx _ hm => exact hm hs
  | storeRegs _ hm => exact hm hs
  | _ => exact hs

/-- From a PC that was fetched from, an instruction goes at most 4 on, to a return address, to NNN, or to V0 + NNN (R23). -/
theorem Effect.pc_range (h : Effect s i t) (hs : s.Inv) (hpc : s.pc.toNat ≤ 4094) : t.pc.toNat ≤ 4350 := by
  have h2 : (s.pc + 2).toNat ≤ 4350 := by bv_omega
  cases h with
  | skips c =>
    have h4 : (s.pc + 4).toNat ≤ 4350 := by bv_omega
    cases c
    · exact h2
    · exact h4
  | jumps _ _ hw => exact hw
  | ret hd =>
    have := hs.returns (s.depth.val - 1) (by omega) (by omega)
    exact le_trans this (by omega)
  | call nnn => exact le_trans (addressOf_toNat_lt nnn).le (by omega)
  | holds => exact hs.pc_range
  | _ => exact h2

/-- A return address is the PC after a CALL that was fetched, so at most 4096 (R26). -/
theorem Effect.returns (h : Effect s i t) (hs : s.Inv) (hpc : s.pc.toNat ≤ 4094) :
    ∀ k, ∀ hk : k < 16, k < t.depth.val → (t.stack[k]).toNat ≤ 4096 := by
  cases h with
  | ret hd => exact fun k hk hkd => hs.returns k hk (lt_of_lt_of_le hkd (Nat.sub_le _ _))
  | call nnn hd =>
    intro k hk hkd
    have hkd' : k < s.depth.val + 1 := hkd
    show ((s.stack.set s.depth.val (s.pc + 2))[k]).toNat ≤ 4096
    rw [Vector.getElem_set]
    split
    · bv_omega
    · exact hs.returns k hk (by omega)
  | _ => exact hs.returns

/-- A running core runs on, or FX0A holds it with no token buffered and nothing changed but the mode (R193). -/
theorem Effect.mode (h : Effect s i t) (hs : s.coreMode = .running) :
    t.coreMode = .running ∨ ∃ x, i = .ldVxK x ∧ s.token = none ∧ t = { s with coreMode := .heldKey x } := by
  cases h with
  | holds x ht => exact .inr ⟨x, rfl, ht, rfl⟩
  | takesKey => exact .inl rfl
  | _ => exact .inl hs

end

/-! ### What keeps the invariant -/

section
variable {s t : State}

/-- A state with another core mode keeps the invariant where it meets what the invariant says of that mode. -/
theorem State.Inv.withMode (hs : s.Inv) {m : CoreMode} (hpc : ({ s with coreMode := m } : State).waitingPcOk)
    (hi : ({ s with coreMode := m } : State).waitingInstrOk) (hc : m = .stopped → s.cancelled = true)
    (hh : ({ s with coreMode := m } : State).heldWithoutToken) : ({ s with coreMode := m } : State).Inv :=
  { hs with waiting_pc := hpc, waiting_instr := hi, stopped_core := hc, held := hh }

theorem State.Inv.raise (hs : s.Inv) (f : Fault) : (s.raise f).Inv :=
  hs.withMode trivial trivial (fun h => by cases h) trivial

/-- A state whose core runs meets the invariant where its memory, PC and stack do and the rest is another such state's. -/
theorem State.Inv.of_running (hs : s.Inv) (hk : KeepsOthers s t) (hm : t.coreMode = .running)
    (hmem : Memory.wf s.config.font t.mem = true) (hpc : t.pc.toNat ≤ 4350)
    (hret : ∀ k, ∀ hk : k < 16, k < t.depth.val → (t.stack[k]).toNat ≤ 4096) : t.Inv where
  memory := by rw [hk.config]; exact hmem
  pc_range := hpc
  waiting_pc := by simp [State.waitingPcOk, hm]
  waiting_instr := by simp [State.waitingInstrOk, hm]
  returns := hret
  channel := by rw [hk.config, hk.chan]; exact hs.channel
  stopped_timer := by rw [hk.timerStopped, hk.pending, hk.cancelled]; exact hs.stopped_timer
  stopped_core h := by rw [hm] at h; cases h
  held := by simp [State.heldWithoutToken, hm]

theorem exec_keepsOthers {i : Instr} (h : exec i s = .next t) : KeepsOthers s t := by
  obtain ⟨f, -, rfl⟩ | ⟨hk, -⟩ := exec_cases h
  · constructor <;> rfl
  · exact hk

theorem exec_keepsInv_of_fetches {i : Instr} (hs : s.Inv) (hf : Fetches s i) (h : exec i s = .next t) : t.Inv := by
  obtain he | ⟨f, -, rfl⟩ := exec_endsIn h
  · obtain hm | ⟨x, rfl, ht, rfl⟩ := he.mode hf.running
    · exact hs.of_running (exec_keepsOthers h) hm (he.memory_wf hs.memory) (he.pc_range hs hf.in_memory)
        (he.returns hs hf.in_memory)
    · exact hs.withMode hf.in_memory hf.word (fun h => by cases h) ht
  · exact hs.raise f

/-- While the core waits in FX0A its PC is one it fetched from (R23, R193). -/
theorem State.Inv.pc_le_of_waits {x : Reg} (hs : s.Inv) (hm : s.coreMode = .heldKey x ∨ ∃ k, s.coreMode = .wakeKey x k) :
    s.pc.toNat ≤ 4094 := by
  have hpc := hs.waiting_pc
  obtain hm | ⟨k, hm⟩ := hm <;> rwa [State.waitingPcOk, hm] at hpc

/-- A core handed a key completes its FX0A and changes no field else (R193, R222). -/
theorem coreStep_eq_of_wakeKey {x : Reg} {k : Key} (hm : s.coreMode = .wakeKey x k) :
    coreStep s = .next (({ s with coreMode := .running } : State).setV x (keyByte k)).advance := by
  rw [coreStep_of_wakeKey hm]
  simp only [exec, execLdVxK, hm, State.settle_ok]

theorem coreStep_keepsInv (hs : s.Inv) (h : coreStep s = .next t) : t.Inv := by
  obtain ⟨-, hc, rfl⟩ | ⟨f, -, -, -, -, rfl⟩ | ⟨i, hf, hi⟩ | ⟨x, k, hm, -⟩ := coreStep_cases h
  · exact hs.withMode trivial trivial (fun _ => hc) trivial
  · exact hs.raise f
  · exact exec_keepsInv_of_fetches hs hf hi
  · rw [coreStep_eq_of_wakeKey hm] at h
    cases h
    have hpc := hs.pc_le_of_waits (.inr ⟨k, hm⟩)
    have hpc2 : (s.pc + 2).toNat ≤ 4350 := by bv_omega
    exact hs.of_running (by constructor <;> rfl) rfl hs.memory hpc2 hs.returns

theorem State.Inv.stopTimer (hs : s.Inv) (hc : s.cancelled = true) : s.stopTimer.Inv :=
  { hs with stopped_timer := fun _ => ⟨rfl, hc⟩ }

/-- The key goes to the held core, whose FX0A it completes next, or is buffered while the core is not held (R228). -/
theorem keyPressed_keepsInv {k : Nat} (hs : s.Inv) (h : keyPressed k s = .next t) : t.Inv := by
  obtain ⟨-, key, -, ⟨x, hm, rfl⟩ | ⟨hm, rfl⟩⟩ := keyPressed_cases h
  · have hi : decodeWord s.config.decodeStrict (wordAtPc s) = .ldVxK x := by
      have hi := hs.waiting_instr
      rwa [State.waitingInstrOk, hm] at hi
    exact { hs with
      waiting_pc := hs.pc_le_of_waits (.inl hm)
      waiting_instr := hi
      stopped_core := fun h => by cases h
      held := trivial }
  · have hh : ({ s with latch := some key, token := some key } : State).heldWithoutToken := by
      unfold State.heldWithoutToken
      split
      · next x hx => exact absurd hx (hm x)
      all_goals trivial
    exact { hs with held := hh }

theorem clearKeys_keepsInv (hs : s.Inv) (h : clearKeys s = .next t) : t.Inv := by
  obtain ⟨-, rfl⟩ := clearKeys_cases h
  have hh : ({ s with latch := none, token := none } : State).heldWithoutToken := by
    unfold State.heldWithoutToken
    split <;> trivial
  exact { hs with held := hh }

theorem agentStep_keepsInv {a : AgentStep} (hs : s.Inv) (h : agentStep a s = .next t) : t.Inv := by
  cases a with
  | core => exact coreStep_keepsInv hs h
  | timerTick =>
    obtain ⟨hstop, -, ⟨hc, rfl⟩ | ⟨-, rfl⟩⟩ := timerTick_cases h
    · exact hs.stopTimer hc
    · exact { hs with stopped_timer := fun h => nomatch hstop.symm.trans h }
  | handOff =>
    obtain ⟨b, -, ⟨hc, rfl⟩ | ⟨-, hroom, rfl⟩⟩ := handOff_cases h
    · exact hs.stopTimer hc
    · exact { hs with
        channel := by simpa using hroom
        stopped_timer := fun h => ⟨rfl, (hs.stopped_timer h).2⟩ }
  | sinkReceive =>
    obtain ⟨c, rest, hchan, rfl⟩ | ⟨b, -, -, -, ⟨hc, rfl⟩ | ⟨-, rfl⟩⟩ := sinkReceive_cases h
    · have hlen : (c :: rest).length ≤ s.config.soundChannelCapacity := hchan ▸ hs.channel
      exact { hs with channel := Nat.le_of_succ_le hlen }
    · exact hs.stopTimer hc
    · exact { hs with stopped_timer := fun h => ⟨rfl, (hs.stopped_timer h).2⟩ }
  | keyPressed k => exact keyPressed_keepsInv hs h
  | clearKeys => exact clearKeys_keepsInv hs h
  | cancel =>
    obtain ⟨-, rfl⟩ := cancel_cases h
    exact { hs with
      stopped_timer := fun h => ⟨(hs.stopped_timer h).1, rfl⟩
      stopped_core := fun _ => rfl }

/-- The schedule is no part of the invariant, so taking a turn keeps it. -/
theorem State.Inv.takeTurn (hs : s.Inv) : s.takeTurn.2.Inv := by
  unfold State.takeTurn
  split
  · exact hs
  · exact { hs with }

end

/-- Settles O50: the invariant is kept by taking the turn and by the step of every agent. -/
theorem stepKeepsTheInvariant : Obligations.StepKeepsTheInvariant :=
  fun _ _ hs h => agentStep_keepsInv hs.takeTurn h

/-! ### Reset and boot -/

/-- What a boot that is not refused answers (R64, R65, R250). -/
theorem boot_eq {p : Config} {rom : List Byte} {s : State} (h : boot p rom = .next s) :
    s = (State.resetWith p).storeBytes 512 (rom.take romMax) := by
  unfold boot at h
  split at h
  · cases h
  · cases h
    rfl

/-- The boot writes memory and nothing else after the reset. -/
theorem boot_eq_resetWith_mem {p : Config} {rom : List Byte} {s : State} (h : boot p rom = .next s) :
    s = { State.resetWith p with mem := s.mem } := by
  rw [boot_eq h]
  exact State.storeBytes_eq _ _ _

theorem State.resetWith_inv (p : Config) : (State.resetWith p).Inv where
  memory := rfl
  pc_range := by simp [State.resetWith]
  waiting_pc := trivial
  waiting_instr := trivial
  returns k _ hk := absurd hk (Nat.not_lt_zero k)
  channel := Nat.zero_le _
  stopped_timer h := by cases h
  stopped_core h := by cases h
  held := trivial

theorem boot_inv {p : Config} {rom : List Byte} {s : State} (h : boot p rom = .next s) : s.Inv := by
  have hlen : 512 + (rom.take romMax).length ≤ 4096 := by
    simp only [List.length_take, romMax]
    omega
  have hmem : Memory.wf p.font s.mem = true := by
    rw [boot_eq h]
    exact State.wf_storeBytes (State.resetWith p) 512 (rom.take romMax) hlen rfl
  rw [boot_eq_resetWith_mem h]
  exact { State.resetWith_inv p with memory := hmem }

/-- Settles O51: the reset has empty memory and channel and depth 0, and the boot stores only inside memory. -/
theorem resetMeetsTheInvariant : Obligations.ResetMeetsTheInvariant :=
  ⟨State.resetWith_inv Config.default, fun _ _ _ => boot_inv⟩

/-- The invariant holds in every state of every session. -/
theorem Reachable.inv {p : Config} {rom : List Byte} {s : State} (h : Reachable p rom s) : s.Inv := by
  induction h with
  | boot hb => exact boot_inv hb
  | step a _ ht ih => exact agentStep_keepsInv ih ht

/-- Settles O52: the PC's range is part of the invariant. -/
theorem pcStaysInRange : Obligations.PcStaysInRange :=
  fun _ _ _ h => ⟨h.inv.pc_range, fun _ => h.inv.pc_le_of_waits⟩

/-- Settles O53: the boot writes memory and nothing else after the reset. -/
theorem resetValues : Obligations.ResetValues := by
  refine ⟨rfl, fun p rom s h => ?_⟩
  rw [boot_eq_resetWith_mem h]
  refine ⟨rfl, rfl, fun hz => ?_, fun hu => ?_, fun idx _ => ?_, rfl, rfl, rfl, rfl, rfl, rfl, rfl, rfl, rfl, rfl, rfl⟩
  · simp [State.resetWith, hz]
  · simp [State.resetWith, hu]
  · simp [State.resetWith, FrameBuffer.cell]

end Sys2Proof.Machine
end

section
/-! PROOFS. The bytes a boot leaves (spec 10_state.md R43, R64). -/

namespace Sys2Proof.Machine

section
variable {p : Config} {rom : List Byte} {s : State}

theorem boot_of_too_long (hp : p.romOversize = .refuse) (hlen : 3584 < rom.length) :
    boot p rom = .refused .romTooLong :=
  if_pos ⟨hp, hlen⟩

theorem boot_of_accepted (h : p.romOversize = .truncate ∨ rom.length ≤ 3584) : ∃ s, boot p rom = .next s := by
  have hn : ¬(p.romOversize = .refuse ∧ romMax < rom.length) := by
    rintro ⟨hp, hlen⟩
    obtain h | h := h
    · rw [h] at hp; cases hp
    · exact absurd hlen (Nat.not_lt.2 h)
  exact ⟨_, if_neg hn⟩

/-- Below the ROM the boot leaves the reset contents. -/
theorem boot_byteAt_below (h : boot p rom = .next s) {a : Nat} (ha : a < 512) :
    s.byteAt a = Memory.unlisted p.font a := by
  rw [boot_eq h, State.byteAt_storeBytes, if_neg (Nat.not_le.2 ha)]
  rfl

/-- From 512 on the boot leaves the ROM's bytes that fit, and the reset contents above them (R64). -/
theorem boot_byteAt_above (h : boot p rom = .next s) (k : Nat) :
    s.byteAt (512 + k) = ((rom.take romMax)[k]?).getD (Memory.unlisted p.font (512 + k)) := by
  rw [boot_eq h, State.byteAt_storeBytes, if_pos (Nat.le_add_right 512 k), Nat.add_sub_cancel_left]
  cases (rom.take romMax)[k]? <;> rfl

theorem boot_byteAt_rom (h : boot p rom = .next s) {k : Nat} (hk : k < rom.length) (hfit : 512 + k ≤ 4095) :
    s.byteAt (512 + k) = rom[k] := by
  have hmax : k < romMax := by
    unfold romMax
    omega
  rw [boot_byteAt_above h, List.getElem?_take_of_lt hmax, List.getElem?_eq_getElem hk, Option.getD_some]

theorem Memory.unlisted_of_font (font : Font) {a : Nat} (ha : a < 80) : Memory.unlisted font a = font[a] := dif_pos ha

theorem Memory.unlisted_above_font (font : Font) {a : Nat} (ha : 80 ≤ a) : Memory.unlisted font a = 0 :=
  dif_neg (Nat.not_lt.2 ha)

theorem boot_byteAt_elsewhere (h : boot p rom = .next s) {a : Nat} (ha : 80 ≤ a)
    (hout : a < 512 ∨ 512 + rom.length ≤ a) : s.byteAt a = 0 := by
  obtain hlow | hhigh := hout
  · rw [boot_byteAt_below h hlow, Memory.unlisted_above_font _ ha]
  · obtain ⟨k, rfl⟩ : ∃ k, a = 512 + k := ⟨a - 512, by omega⟩
    have hlen : (rom.take romMax).length ≤ k := (List.length_take_le' _ _).trans (by omega)
    rw [boot_byteAt_above h, List.getElem?_eq_none hlen, Option.getD_none, Memory.unlisted_above_font _ ha]

end

/-- Settles O54: the store of R64 reads back byte by byte, over memory with the font. -/
theorem bootLoadsFontAndRom : Obligations.BootLoadsFontAndRom := by
  refine fun p rom => ⟨boot_of_too_long, fun hacc => ?_⟩
  obtain ⟨s, h⟩ := boot_of_accepted hacc
  have hreset := boot_eq_resetWith_mem h
  refine ⟨s, h, by rw [hreset]; rfl, by rw [hreset]; rfl, by rw [hreset]; rfl, fun a ha => ?_,
    fun k hk hfit => boot_byteAt_rom h hk hfit, fun a ha hout _ => boot_byteAt_elsewhere h ha hout⟩
  rw [boot_byteAt_below h (by omega), Memory.unlisted_of_font _ ha]

end Sys2Proof.Machine
end

section
/-! PROOFS. Which instruction or agent writes each field (spec 10_state.md R20-R34). -/

namespace Sys2Proof.Machine

section
variable {i : Instr} {s t : State}

/-- The fields a core step leaves that runs no fetched instruction to its effect: a stop, a fault, or a key taken. -/
structure WritesNoField (s t : State) : Prop where
  mem : t.mem = s.mem
  stack : t.stack = s.stack ∧ t.depth = s.depth
  i : t.i = s.i
  screen : t.fb = s.fb ∧ t.drawLog = s.drawLog
  dt : t.dt = s.dt
  st : t.st = s.st

theorem coreStep_effect (h : coreStep s = .next t) : WritesNoField s t ∨ ∃ i, Fetches s i ∧ Effect s i t := by
  obtain ⟨-, -, rfl⟩ | ⟨f, -, -, -, -, rfl⟩ | ⟨i, hf, hi⟩ | ⟨x, k, hm, -⟩ := coreStep_cases h
  · exact .inl (by constructor <;> trivial)
  · exact .inl (by constructor <;> trivial)
  · obtain he | ⟨f, -, rfl⟩ := exec_endsIn hi
    · exact .inr ⟨i, hf, he⟩
    · exact .inl (by constructor <;> trivial)
  · rw [coreStep_eq_of_wakeKey hm] at h
    cases h
    exact .inl (by constructor <;> trivial)

theorem coreStep_latch (h : coreStep s = .next t) : t.latch = s.latch := by
  obtain ⟨-, -, rfl⟩ | ⟨f, -, -, -, -, rfl⟩ | ⟨i, -, hi⟩ | ⟨x, k, -, hi⟩ := coreStep_cases h
  · rfl
  · rfl
  · exact (exec_keepsOthers hi).latch
  · exact (exec_keepsOthers hi).latch

/-- Only the keyboard host writes the latch (R34). -/
theorem agentStep_latch {a : AgentStep} (h : agentStep a s = .next t) :
    t.latch = s.latch ∨ (∃ k, a = .keyPressed k) ∨ a = .clearKeys := by
  cases a with
  | core => exact .inl (coreStep_latch h)
  | timerTick =>
    obtain ⟨-, -, ⟨-, rfl⟩ | ⟨-, rfl⟩⟩ := timerTick_cases h
    all_goals exact .inl rfl
  | handOff =>
    obtain ⟨-, -, ⟨-, rfl⟩ | ⟨-, -, rfl⟩⟩ := handOff_cases h
    all_goals exact .inl rfl
  | sinkReceive =>
    obtain ⟨-, -, -, rfl⟩ | ⟨-, -, -, -, ⟨-, rfl⟩ | ⟨-, rfl⟩⟩ := sinkReceive_cases h
    all_goals exact .inl rfl
  | keyPressed k => exact .inr (.inl ⟨k, rfl⟩)
  | clearKeys => exact .inr (.inr rfl)
  | cancel =>
    obtain ⟨-, rfl⟩ := cancel_cases h
    exact .inl rfl

/-- The instructions that write I (R24). -/
theorem writesI_eq_true {p : Config} (h : writesI p i = true) :
    (∃ nnn, i = .ldI nnn) ∨ (∃ x, i = .addIVx x ∨ i = .ldFVx x) ∨
    (p.memIncrementsI = true ∧ ∃ x, i = .storeRegs x ∨ i = .loadRegs x) := by
  cases i with
  | ldI nnn => exact .inl ⟨nnn, rfl⟩
  | addIVx x => exact .inr (.inl ⟨x, .inl rfl⟩)
  | ldFVx x => exact .inr (.inl ⟨x, .inr rfl⟩)
  | storeRegs x => exact .inr (.inr ⟨h, x, .inl rfl⟩)
  | loadRegs x => exact .inr (.inr ⟨h, x, .inr rfl⟩)
  | _ => cases h

theorem Effect.index_writer (h : Effect s i t) :
    t.i = s.i ∨ (∃ nnn, i = .ldI nnn) ∨ (∃ x, i = .addIVx x ∨ i = .ldFVx x) ∨
    (s.config.memIncrementsI = true ∧ ∃ x, i = .storeRegs x ∨ i = .loadRegs x) := by
  cases hi : writesI s.config i with
  | false => exact .inl (h.index.kept hi).1
  | true => exact .inr (writesI_eq_true hi)

theorem tickDown_toNat_le (b : Byte) : (tickDown b).toNat ≤ b.toNat := by
  unfold tickDown
  split <;> bv_omega

/-- A step of an agent other than the core raises neither counter: at most it is the tick (R225). -/
theorem agentStep_counters_le {a : AgentStep} (ha : a ≠ .core) (h : agentStep a s = .next t) :
    t.dt.toNat ≤ s.dt.toNat ∧ t.st.toNat ≤ s.st.toNat := by
  obtain ⟨-, -, ⟨hdt, hst⟩ | ⟨-, hdt, hst⟩⟩ := agentStep_keepsCore ha h
  · rw [hdt, hst]
    exact ⟨le_rfl, le_rfl⟩
  · rw [hdt, hst]
    exact ⟨tickDown_toNat_le s.dt, tickDown_toNat_le s.st⟩

end

/-- Settles O38: of the agents only the core writes the screen, and of the effects only those of CLS and DXYN. -/
theorem onlyClearAndDrawTouchTheScreen : Obligations.OnlyClearAndDrawTouchTheScreen := by
  intro a s t h
  by_cases ha : a = .core
  · subst ha
    obtain hw | ⟨i, hf, he⟩ := coreStep_effect h
    · exact .inl hw.screen
    · obtain hk | ⟨rfl | ⟨x, y, n, rfl⟩, hlog⟩ := he.screen
      · exact .inl hk
      · exact .inr ⟨rfl, .inl hf, hlog⟩
      · exact .inr ⟨rfl, .inr ⟨x, y, n, hf⟩, hlog⟩
  · obtain ⟨hk, -⟩ := agentStep_keepsCore ha h
    exact .inl ⟨hk.fb, hk.drawLog⟩

/-- Settles O43: a tick lowers the counters, and of the effects only those of FX15 and FX18 write them. -/
theorem countersFallBetweenSets : Obligations.CountersFallBetweenSets := by
  intro a s t h
  by_cases ha : a = .core
  · subst ha
    obtain hw | ⟨i, hf, he⟩ := coreStep_effect h
    · rw [hw.dt, hw.st]
      exact ⟨fun hlt => absurd hlt (lt_irrefl _), fun hlt => absurd hlt (lt_irrefl _)⟩
    · constructor
      · intro hlt
        obtain hdt | ⟨x, rfl⟩ := he.delay
        · rw [hdt] at hlt
          exact absurd hlt (lt_irrefl _)
        · exact ⟨rfl, x, hf⟩
      · intro hlt
        obtain hst | ⟨x, rfl⟩ := he.sound
        · rw [hst] at hlt
          exact absurd hlt (lt_irrefl _)
        · exact ⟨rfl, x, hf⟩
  · obtain ⟨hdt, hst⟩ := agentStep_counters_le ha h
    exact ⟨fun hlt => absurd hlt (Nat.not_lt.2 hdt), fun hlt => absurd hlt (Nat.not_lt.2 hst)⟩

/-- Settles O45: the effect of an instruction writes its destinations and marks them; a fault or a hold writes none. -/
theorem onlyDestinationsAreWritten : Obligations.OnlyDestinationsAreWritten := by
  intro i s t _ h
  obtain he | ⟨f, -, rfl⟩ := exec_endsIn h
  · obtain hr | ⟨x, rfl, rfl⟩ := he.regs
    · exact ⟨hr.others, he.index.kept, fun _ => ⟨hr.written, he.index.written⟩⟩
    · exact ⟨fun _ _ => ⟨rfl, rfl⟩, fun _ => ⟨rfl, rfl⟩, fun hm => by cases hm⟩
  · exact ⟨fun _ _ => ⟨rfl, rfl⟩, fun _ => ⟨rfl, rfl⟩, fun hm => by cases hm⟩

/-- Settles O47: each field's writers, from the effects, and the latch's from the agents. -/
theorem stateHasItsWriters : Obligations.StateHasItsWriters := by
  intro a s t h
  have hlatch := agentStep_latch h
  by_cases ha : a = .core
  · subst ha
    obtain hw | ⟨i, hf, he⟩ := coreStep_effect h
    · exact ⟨.inl hw.mem, .inl hw.stack, .inl hw.i, hlatch⟩
    · refine ⟨he.memory.imp_right ?_, he.stack.imp_right ?_, he.index_writer.imp_right ?_, hlatch⟩
      · rintro ⟨x, rfl | rfl⟩
        · exact ⟨rfl, x, .inl hf⟩
        · exact ⟨rfl, x, .inr hf⟩
      · rintro (rfl | ⟨nnn, rfl⟩)
        · exact ⟨rfl, .inl hf⟩
        · exact ⟨rfl, .inr ⟨nnn, hf⟩⟩
      · rintro (⟨nnn, rfl⟩ | ⟨x, rfl | rfl⟩ | ⟨hp, x, rfl | rfl⟩)
        · exact ⟨rfl, .inl ⟨nnn, hf⟩⟩
        · exact ⟨rfl, .inr (.inl ⟨x, .inl hf⟩)⟩
        · exact ⟨rfl, .inr (.inl ⟨x, .inr hf⟩)⟩
        · exact ⟨rfl, .inr (.inr ⟨hp, x, .inl hf⟩)⟩
        · exact ⟨rfl, .inr (.inr ⟨hp, x, .inr hf⟩)⟩
  · obtain ⟨hk, -⟩ := agentStep_keepsCore ha h
    exact ⟨.inl hk.mem, .inl ⟨hk.stack, hk.depth⟩, .inl hk.i, hlatch⟩

end Sys2Proof.Machine
end

section
/-! PROOFS. The snapshot an instruction begins with (spec 10_state.md R36, R38; 60_exceptions.md R215), and ST, which none
reads (10_state.md R29). -/

namespace Sys2Proof.Machine

/-! ### The snapshot comes first -/

section
variable {i : Instr} {s t : State}

theorem State.snapshot_nothing (s : State) : s.snapshot [] false = .ok () :=
  State.snapshot_of_readable (.inr ⟨by simp, by simp⟩)

theorem blockRegs_eq_filter (x : Reg) : blockRegs x = (List.finRange 16).filter (· ≤ x) := by
  revert x; decide

theorem State.shiftReg_eq (s : State) (x y : Reg) :
    [s.shiftReg x y] = if s.config.shiftSource = .vx then [x] else [y] := by
  unfold State.shiftReg
  cases s.config.shiftSource <;> rfl

/-- An instruction without operands settles what it computed, as if it began with the empty snapshot. -/
theorem State.settle_eq_snapshot_nothing (s : State) (r : Except Fault State) :
    ∃ k, s.settle r = s.settle (s.snapshot [] false >>= k) :=
  ⟨fun _ => r, by rw [s.snapshot_nothing, ok_bind]⟩

/-- Every instruction begins with the snapshot of its operands, before any other check (R215 step 3). -/
theorem exec_eq_snapshot (i : Instr) (s : State) :
    ∃ k, exec i s = s.settle (s.snapshot (snapshotRegs s.config i) (snapshotsI i) >>= k) := by
  cases i with
  | cls => exact s.settle_eq_snapshot_nothing (.ok _)
  | ret => exact s.settle_eq_snapshot_nothing _
  | jp nnn => exact s.settle_eq_snapshot_nothing (.ok _)
  | call nnn => exact s.settle_eq_snapshot_nothing _
  | ldImm x nn => exact s.settle_eq_snapshot_nothing (.ok _)
  | ldI nnn => exact s.settle_eq_snapshot_nothing (.ok _)
  | rnd x nn => exact s.settle_eq_snapshot_nothing (.ok _)
  | ldVxDT x => exact s.settle_eq_snapshot_nothing (.ok _)
  | ldVxK x => exact s.settle_eq_snapshot_nothing _
  | unknown op => exact s.settle_eq_snapshot_nothing (.ok _)
  | shr x y =>
    simp only [snapshotRegs, ← State.shiftReg_eq]
    exact ⟨_, rfl⟩
  | shl x y =>
    simp only [snapshotRegs, ← State.shiftReg_eq]
    exact ⟨_, rfl⟩
  | storeRegs x =>
    simp only [snapshotRegs, ← blockRegs_eq_filter]
    exact ⟨_, rfl⟩
  | _ => exact ⟨_, rfl⟩

theorem exec_raises_of_firstUnwritten {r : RegName}
    (h : s.firstUnwritten (snapshotRegs s.config i) (snapshotsI i) = some r) : Raises i s (.unwrittenRead r s.pc) := by
  obtain ⟨k, e⟩ := exec_eq_snapshot i s
  have hs : s.snapshot (snapshotRegs s.config i) (snapshotsI i) = .error (.unwrittenRead r s.pc) := by
    simp [State.snapshot, h]
  rw [Raises, e, hs, error_bind, State.settle_error]
  rfl

/-- Under `unwritten` the lowest unwritten V register of the snapshot comes first (R215 step 3). -/
theorem State.firstUnwritten_eq_v {vs : List Reg} {usesI : Bool} {r : Reg} (hu : s.config.resetRegs = .unwritten)
    (hr : r ∈ vs) (hw : s.unwrittenV[r] = true) (hlow : ∀ q, q < r → q ∈ vs → s.unwrittenV[q] = false) :
    s.firstUnwritten vs usesI = some (.v r) := by
  have hfind : (List.finRange 16).find? (fun r => vs.contains r && s.unwrittenReg r) = some r := by
    rw [List.find?_eq_some_iff_getElem]
    refine ⟨by simpa [State.unwrittenReg, hu, hr] using hw, r.val, by simp, by simp, fun j hj => ?_⟩
    have hj16 : j < 16 := hj.trans r.isLt
    simpa [State.unwrittenReg, hu, imp_iff_not_or] using hlow ⟨j, hj16⟩ hj
  simp only [State.firstUnwritten, hfind]

/-- Then comes I. -/
theorem State.firstUnwritten_eq_i {vs : List Reg} (hu : s.config.resetRegs = .unwritten)
    (hv : ∀ q ∈ vs, s.unwrittenV[q] = false) (hw : s.unwrittenI = true) : s.firstUnwritten vs true = some .i := by
  have hfind : (List.finRange 16).find? (fun r => vs.contains r && s.unwrittenReg r) = none := by
    rw [List.find?_eq_none]
    intro q _
    simpa [State.unwrittenReg, hu] using hv q
  simp only [State.firstUnwritten, hfind]
  simp [State.unwrittenIndex, hu, hw]

/-- An instruction of a running core leads to UNWRITTEN_READ only under `RESET_REGS = unwritten` (R36). -/
theorem resetRegs_of_exec_unwrittenRead {r : RegName} {pc : Word} (hs : s.coreMode = .running)
    (h : exec i s = .next t) (hm : t.coreMode = .faulted (.unwrittenRead r pc)) : s.config.resetRegs = .unwritten := by
  obtain he | ⟨f, hf, rfl⟩ := exec_endsIn h
  · obtain hrun | ⟨x, -, -, rfl⟩ := he.mode hs
    · rw [hrun] at hm; cases hm
    · cases hm
  · cases hm
    exact hf r pc rfl

end

/-- Settles O46: every instruction begins with its snapshot, which looks for the lowest unwritten V register, then at I. -/
theorem unwrittenReadComesFirst : Obligations.UnwrittenReadComesFirst := by
  refine ⟨fun i s r hu hr hw hlow => ?_, fun i s hu hv hi hw => ?_, fun i s t r pc hz hs h hm => ?_⟩
  · exact exec_raises_of_firstUnwritten (State.firstUnwritten_eq_v hu hr hw hlow)
  · apply exec_raises_of_firstUnwritten
    rw [hi]
    exact State.firstUnwritten_eq_i hu hv hw
  · have hu := resetRegs_of_exec_unwrittenRead hs h hm
    rw [hz] at hu
    cases hu

/-! ### ST -/

/-- Both are next states, and the second is the first with ST `b`. -/
def SameButSound (b : Byte) (r r' : Result) : Prop := ∃ t, r = .next t ∧ r' = .next (t.setSound b)

section
variable {s : State} {b : Byte}

theorem SameButSound.next {t t' : State} (h : t' = t.setSound b) : SameButSound b (.next t) (.next t') :=
  ⟨t, rfl, congrArg _ h⟩

theorem SameButSound.advance {t t' : State} (h : t' = t.setSound b) :
    SameButSound b (.next t.advance) (.next t'.advance) :=
  .next (by rw [h]; rfl)

/-- A check that does not read ST comes out the same, and where it raises it raises on both. -/
theorem SameButSound.bind {α : Type} {e : Except Fault α} {k k' : α → Except Fault State}
    (hk : ∀ a, SameButSound b (s.settle (k a)) ((s.setSound b).settle (k' a))) :
    SameButSound b (s.settle (e >>= k)) ((s.setSound b).settle (e >>= k')) := by
  cases e with
  | ok a => exact hk a
  | error f => exact ⟨s.raise f, rfl, rfl⟩

theorem State.writeResultAndFlag_setSound (s : State) (b : Byte) (x : Reg) (a : Byte) (c : Bool) :
    (s.setSound b).writeResultAndFlag x a c = (s.writeResultAndFlag x a c).setSound b := by
  unfold State.writeResultAndFlag
  rw [State.setSound_config]
  split
  · rfl
  · split <;> rfl

theorem State.storeBytes_setSound (s : State) (b : Byte) (a : Nat) (bytes : List Byte) :
    (s.setSound b).storeBytes a bytes = (s.storeBytes a bytes).setSound b := by
  induction bytes generalizing s a with
  | nil => rfl
  | cons c rest ih => exact ih (s.setByte a c) (a + 1)

theorem State.foldl_setV_setSound (l : List Reg) (f : Reg → Byte) (s : State) (b : Byte) :
    l.foldl (fun t r => t.setV r (f r)) (s.setSound b) = (l.foldl (fun t r => t.setV r (f r)) s).setSound b := by
  induction l generalizing s with
  | nil => rfl
  | cons r rest ih => exact ih (s.setV r (f r))

theorem State.loadBlock_setSound (s : State) (b : Byte) (a : Nat) (x : Reg) :
    (s.setSound b).loadBlock a x = (s.loadBlock a x).setSound b :=
  State.foldl_setV_setSound (blockRegs x) (fun r => s.byteAt (a + r.val)) s b

theorem State.bumpI_setSound (s : State) (b : Byte) (x : Reg) : (s.setSound b).bumpI x = (s.bumpI x).setSound b := by
  unfold State.bumpI
  rw [State.setSound_config]
  split <;> rfl

theorem exec_ret_sameButSound (s : State) (b : Byte) : SameButSound b (exec .ret s) (exec .ret (s.setSound b)) := by
  obtain ⟨hd, e⟩ | ⟨h0, e⟩ := exec_ret s <;> obtain ⟨hd', e'⟩ | ⟨h0', e'⟩ := exec_ret (s.setSound b)
  · exact ⟨_, e, e'⟩
  · exact absurd h0' hd.ne'
  · exact absurd h0 hd'.ne'
  · exact ⟨_, e, e'⟩

theorem exec_call_sameButSound (s : State) (b : Byte) (nnn : BitVec 12) :
    SameButSound b (exec (.call nnn) s) (exec (.call nnn) (s.setSound b)) := by
  obtain ⟨hd, e⟩ | ⟨h16, e⟩ := exec_call nnn s <;> obtain ⟨hd', e'⟩ | ⟨h16', e'⟩ := exec_call nnn (s.setSound b)
  · exact ⟨_, e, e'⟩
  · exact absurd h16' hd.ne
  · exact absurd h16 hd'.ne
  · exact ⟨_, e, e'⟩

theorem exec_ldVxK_sameButSound (s : State) (b : Byte) (x : Reg) :
    SameButSound b (exec (.ldVxK x) s) (exec (.ldVxK x) (s.setSound b)) := by
  simp only [exec, execLdVxK, State.setSound_coreMode, State.setSound_token]
  split <;> exact .next rfl

/-- No instruction but FX18 has an effect or a fault that depends on ST (R29, R195). -/
theorem exec_sameButSound (i : Instr) (s : State) (b : Byte) (hi : ∀ x, i ≠ .ldSTVx x) :
    SameButSound b (exec i s) (exec i (s.setSound b)) := by
  cases i with
  | cls => exact .next rfl
  | ret => exact exec_ret_sameButSound s b
  | jp nnn => exact .next rfl
  | call nnn => exact exec_call_sameButSound s b nnn
  | ldImm x nn => exact .next rfl
  | addReg x y => exact .bind fun _ => .advance (s.writeResultAndFlag_setSound b x _ _)
  | subReg x y => exact .bind fun _ => .advance (s.writeResultAndFlag_setSound b x _ _)
  | shr x y => exact .bind fun _ => .advance (s.writeResultAndFlag_setSound b x _ _)
  | subn x y => exact .bind fun _ => .advance (s.writeResultAndFlag_setSound b x _ _)
  | shl x y => exact .bind fun _ => .advance (s.writeResultAndFlag_setSound b x _ _)
  | ldI nnn => exact .next rfl
  | rnd x nn => exact .next rfl
  | drw x y n => exact .bind fun _ => .bind fun _ => .bind fun _ => .next rfl
  | ldVxDT x => exact .next rfl
  | ldVxK x => exact exec_ldVxK_sameButSound s b x
  | ldSTVx x => exact absurd rfl (hi x)
  | ldBVx x => exact .bind fun _ => .bind fun _ => .advance (s.storeBytes_setSound b _ _)
  | storeRegs x =>
    have hs := s.storeBytes_setSound b (s.effectiveAddr 0) (s.blockBytes x)
    exact .bind fun _ => .bind fun _ => .advance ((congrArg (State.bumpI · x) hs).trans (State.bumpI_setSound _ b x))
  | loadRegs x =>
    have hs := s.loadBlock_setSound b (s.effectiveAddr 0) x
    exact .bind fun _ => .bind fun _ => .advance ((congrArg (State.bumpI · x) hs).trans (State.bumpI_setSound _ b x))
  | unknown op => exact .next rfl
  | _ => exact .bind fun _ => .next rfl

theorem exec_ldSTVx_of_readable {x : Reg} (h : s.Readable [x] false) :
    exec (.ldSTVx x) s = .next (s.setSound s.v[x]).advance := by
  simp only [exec, execLdSTVx, State.snapshot_of_readable h, ok_bind, pure_eq_ok, State.settle_ok]

/-- FX18 overwrites ST where it completes, and leaves it where it faults (R195, R211). -/
theorem exec_ldSTVx_setSound {t : State} (s : State) (b : Byte) (x : Reg) (h : exec (.ldSTVx x) s = .next t) :
    (s.Readable [x] false ∧ exec (.ldSTVx x) (s.setSound b) = .next t) ∨
    (¬s.Readable [x] false ∧ exec (.ldSTVx x) (s.setSound b) = .next (t.setSound b)) := by
  by_cases hr : s.Readable [x] false
  · rw [exec_ldSTVx_of_readable hr] at h
    cases h
    exact .inl ⟨hr, exec_ldSTVx_of_readable (s := s.setSound b) hr⟩
  · obtain ⟨hr', -⟩ | ⟨q, hq, -, e⟩ := exec_ldSTVx x s
    · exact absurd hr' hr
    · rw [e] at h
      cases h
      exact .inr ⟨hr, exec_raises_of_firstUnwritten (s := s.setSound b) hq⟩

end

/-- Settles O42: every instruction but FX18 commutes with a write of ST, and FX18 overwrites it. -/
theorem noInstructionReadsTheSoundTimer : Obligations.NoInstructionReadsTheSoundTimer := by
  intro i s b t h
  by_cases hi : ∃ x, i = .ldSTVx x
  · obtain ⟨x, rfl⟩ := hi
    have hnot : ¬∀ y, Instr.ldSTVx x ≠ .ldSTVx y := fun hne => hne x rfl
    obtain ⟨hr, hu⟩ | ⟨hr, hu⟩ := exec_ldSTVx_setSound s b x h
    · exact ⟨t, hu, rfl, fun _ => rfl, fun hne => absurd hne hnot⟩
    · refine ⟨t.setSound b, hu, rfl, ?_, fun hne => absurd hne hnot⟩
      rintro ⟨y, hy, hr'⟩
      cases hy
      exact absurd hr' hr
  · have hne : ∀ x, i ≠ .ldSTVx x := fun x hx => hi ⟨x, hx⟩
    obtain ⟨t', e, hu⟩ := exec_sameButSound i s b hne
    rw [h] at e
    cases e
    refine ⟨t.setSound b, hu, rfl, fun ⟨x, hx, _⟩ => absurd hx (hne x), fun _ => ⟨?_, rfl⟩⟩
    obtain he | ⟨f, -, rfl⟩ := exec_endsIn h
    · exact he.sound.resolve_right hi
    · rfl

end Sys2Proof.Machine
end

section
/-! PROOFS. Memory: a byte reads back as written, and the fetch reads the same memory the transfers write (spec 20_memory.md,
R51-R54, R63). -/

namespace Sys2Proof.Machine

/-! ### One byte -/

section
variable {s : State} {a : Nat}

theorem State.memRead_of_inside (h : a ≤ 4095) : s.memRead a = .ok (s.byteAt a) := if_pos h

theorem State.memRead_of_outside (h : 4095 < a) : s.memRead a = .error (.memRange a s.pc) := if_neg (by omega)

theorem State.memWrite_of_inside (b : Byte) (h : a ≤ 4095) : s.memWrite a b = .ok (s.setByte a b) := if_pos h

theorem State.memWrite_of_outside (b : Byte) (h : 4095 < a) : s.memWrite a b = .error (.memRange a s.pc) :=
  if_neg (by omega)

/-- A read of another address answers, or faults, as before the write. -/
theorem State.memRead_setByte_other (b : Byte) {c : Nat} (h : c ≠ a) : (s.setByte a b).memRead c = s.memRead c := by
  simp only [State.memRead, State.byteAt_setByte_other s b h, State.setByte_pc]

end

/-- Settles O32: inside memory the write is `setByte`, which the reads see at its address alone; outside both are refused by
the range check. -/
theorem bytesReadBackAsWritten : Obligations.BytesReadBackAsWritten := by
  intro s a b
  refine ⟨fun h => ⟨s.setByte a b, State.memWrite_of_inside b h, ?_, fun c => State.memRead_setByte_other b⟩,
    fun h => ⟨State.memWrite_of_outside b h, State.memRead_of_outside h⟩⟩
  rw [State.memRead_of_inside h, State.byteAt_setByte_same]

/-! ### The fetch -/

section
variable {s : State}

/-- A fetch that does not lie inside memory faults at its lowest byte outside (R54). -/
theorem State.fetchWord_of_outside (h : 4094 < s.pc.toNat) :
    s.fetchWord = .error (.memRange (max s.pc.toNat 4096) s.pc) := by
  rw [State.fetchWord_eq, if_neg (by omega)]

/-- A fetch inside memory reads the word at the PC (R54). -/
theorem State.fetchWord_of_inside (h : s.pc.toNat ≤ 4094) : s.fetchWord = .ok (wordAtPc s) := by
  rw [State.fetchWord_eq, if_pos h]
  rfl

/-- The core's step where its fetch faults raises that fault and does nothing else (R211, R222). -/
theorem coreStep_of_fetch_outside (hm : s.coreMode = .running) (hc : s.cancelled = false) (h : 4094 < s.pc.toNat) :
    coreStep s = .next (s.raise (.memRange (max s.pc.toNat 4096) s.pc)) := by
  simp [coreStep, hm, hc, State.fetchWord_of_outside h]

/-- The core's step where its fetch succeeds is the instruction's (R222). -/
theorem coreStep_of_fetches {i : Instr} (h : Fetches s i) : coreStep s = exec i s := by
  simp [coreStep, h.running, h.not_cancelled, State.fetchWord_of_inside h.in_memory, h.word]

end

/-- Settles O7: the lowest byte outside is the first where the PC is above 4095, and the second at 4095. -/
theorem fetchOutsideMemoryFaults : Obligations.FetchOutsideMemoryFaults := by
  intro s hm hc
  refine ⟨fun h => ?_, fun h => ?_⟩
  · have hlow : max s.pc.toNat 4096 = s.pc.toNat := by omega
    rw [coreStep_of_fetch_outside hm hc (by omega), hlow]
    rfl
  · have hlow : max s.pc.toNat 4096 = 4096 := by omega
    rw [coreStep_of_fetch_outside hm hc (by omega), hlow]
    rfl

/-! ### A stored block as code -/

/-- What FX55 leaves where it completes (R154). -/
def State.stored (s : State) (x : Reg) : State := ((s.storeBytes s.i.toNat (s.blockBytes x)).bumpI x).advance

/-- FX55 with its operands written and its block inside memory completes (R154). -/
theorem exec_storeRegs_of_fits {s : State} {x : Reg} (hr : s.Readable (blockRegs x) true)
    (hfit : s.i.toNat + x.val ≤ 4095) : exec (.storeRegs x) s = .next (s.stored x) := by
  obtain ⟨-, -, e⟩ | ⟨-, hout, -⟩ | ⟨r, hu, -⟩ := exec_storeRegs x s
  · exact e
  · omega
  · rw [(s.firstUnwritten_eq_none (blockRegs x) true).2 hr] at hu
    cases hu

/-- Of the fields that decide the core's next step, FX55 changes memory and the PC alone. -/
theorem State.stored_keeps (s : State) (x : Reg) : (s.stored x).coreMode = s.coreMode ∧
    (s.stored x).cancelled = s.cancelled ∧ (s.stored x).config = s.config := by
  unfold State.stored
  rw [State.bumpI_eq, State.storeBytes_eq]
  exact ⟨rfl, rfl, rfl⟩

/-- Vk lies at I + k after FX55, for every k up to X (R154). -/
theorem State.byteAt_stored (s : State) {x k : Reg} (hk : k.val ≤ x.val) :
    (s.stored x).byteAt (s.i.toNat + k.val) = s.v[k] := by
  calc (s.stored x).byteAt (s.i.toNat + k.val)
    _ = (s.storeBytes s.i.toNat (s.blockBytes x)).byteAt (s.i.toNat + k.val) := by
      rw [State.stored, State.bumpI_eq]
      rfl
    _ = s.v[k] := by
      simp only [State.byteAt_storeBytes, Nat.le_add_right, if_true, Nat.add_sub_cancel_left, s.blockBytes_get x k hk]

/-- With the PC at the address of Vk, the word the next fetch reads is that of Vk and V(k+1) (R54, R63). -/
theorem wordAtPc_stored {s : State} {x k l : Reg} (hl : l.val = k.val + 1) (hlx : l.val ≤ x.val)
    (hpc : (s.stored x).pc.toNat = s.i.toNat + k.val) : wordAtPc (s.stored x) = wordOfBytes s.v[k] s.v[l] := by
  rw [wordAtPc, hpc, Nat.add_assoc, ← hl, s.byteAt_stored (by omega), s.byteAt_stored hlx]

/-- Settles O33: FX55 leaves the core running with Vk and V(k+1) at its PC, so that it fetches their word. -/
theorem storedCodeRunsNext : Obligations.StoredCodeRunsNext := by
  intro x k s t hr hfit hm hc h l hl hlx hpc
  have hlx : l.val ≤ x.val := hlx
  rw [← blockRegs_eq_filter] at hr
  rw [exec_storeRegs_of_fits hr hfit] at h
  cases h
  obtain ⟨hmode, hcancel, hconfig⟩ := s.stored_keeps x
  refine coreStep_of_fetches ⟨hmode.trans hm, hcancel.trans hc, by omega, ?_⟩
  rw [hconfig, wordAtPc_stored hl hlx hpc]

end Sys2Proof.Machine
end

section
/-! PROOFS. The decoder and the encoder agree; which words are UNKNOWN, what loose decoding changes, and the rows of the
opcode table (spec 30_encoding.md, R70-R77). -/

namespace Sys2Proof

/-! ### The words that decode to UNKNOWN -/

theorem decodeSys_eq_unknown_iff (strict : Bool) (op w : Word) : decodeSys strict op = .unknown w ↔
    op = w ∧ (if strict then op.toNat ≠ 0x00E0 ∧ op.toNat ≠ 0x00EE
      else op.toNat % 0x100 ≠ 0xE0 ∧ op.toNat % 0x100 ≠ 0xEE) := by
  unfold decodeSys
  rw [fieldNN_toNat]
  cases strict
  all_goals
    simp only [if_true, Bool.false_eq_true, if_false]
    split_ifs <;> simp_all

theorem decodeAlu_eq_unknown_iff (op w : Word) : decodeAlu op = .unknown w ↔
    op = w ∧ op.toNat % 0x10 ∈ [0x8, 0x9, 0xA, 0xB, 0xC, 0xD, 0xF] := by
  unfold decodeAlu
  rw [fieldN_toNat]
  split
  case h_10 =>
    have hn : op.toNat % 0x10 ∈ [0x8, 0x9, 0xA, 0xB, 0xC, 0xD, 0xF] := by
      simp only [List.mem_cons, List.not_mem_nil, or_false]
      grind
    simp [hn]
  all_goals simp [*]

theorem decodeKey_eq_unknown_iff (op w : Word) : decodeKey op = .unknown w ↔
    op = w ∧ op.toNat % 0x100 ∉ [0x9E, 0xA1] := by
  unfold decodeKey
  rw [fieldNN_toNat]
  split <;> simp_all

theorem decodeMisc_eq_unknown_iff (op w : Word) : decodeMisc op = .unknown w ↔
    op = w ∧ op.toNat % 0x100 ∉ [0x07, 0x0A, 0x15, 0x18, 0x1E, 0x29, 0x33, 0x55, 0x65] := by
  unfold decodeMisc
  rw [fieldNN_toNat]
  split <;> simp_all

/-- The decoder answers UNKNOWN for the words R76, or with loose decoding R77, leaves to it, and for no other; and UNKNOWN
carries the word. -/
theorem decodeWord_eq_unknown_iff (strict : Bool) (op w : Word) :
    decodeWord strict op = .unknown w ↔ op = w ∧ isUnknownWord strict op = true := by
  unfold decodeWord isUnknownWord
  rw [fieldT_toNat]
  split
  case h_16 =>
    have ht : op.toNat / 0x1000 = 0xF := by
      have := op.isLt
      grind
    simp [ht, decodeMisc_eq_unknown_iff]
  case h_6 | h_10 => grind [fieldN_toNat] -- UNKNOWN where decoding is strict and N is not 0
  all_goals simp [*, decodeSys_eq_unknown_iff, decodeAlu_eq_unknown_iff, decodeKey_eq_unknown_iff]

/-! ### Decode and encode agree -/

/-- Every instruction is read back from its word: the fields of its format are its operands (R70-R73). -/
theorem decodeWord_encode {strict : Bool} {i : Instr} (h : i.wellFormed strict = true) :
    decodeWord strict (encode i) = i := by
  cases i with
  | cls | ret => cases strict <;> rfl
  | jp nnn | call nnn | ldI nnn | jpV0 nnn => simp [encode, decodeWord]
  | seImm x nn | sneImm x nn | ldImm x nn | addImm x nn | rnd x nn => simp [encode, decodeWord]
  | seReg x y | sneReg x y => simp [encode, decodeWord]
  | drw x y n => simp [encode, decodeWord]
  | ldReg x y | orReg x y | andReg x y | xorReg x y | addReg x y | subReg x y | shr x y | subn x y | shl x y =>
    simp [encode, decodeWord, decodeAlu]
  | skp x | sknp x => simp [encode, decodeWord, decodeKey]
  | ldVxDT x | ldVxK x | ldDTVx x | ldSTVx x | addIVx x | ldFVx x | ldBVx x | storeRegs x | loadRegs x =>
    simp [encode, decodeWord, decodeMisc]
  | unknown op => exact (decodeWord_eq_unknown_iff strict op op).2 ⟨rfl, h⟩

theorem wellFormed_decodeWord (strict : Bool) (op : Word) : (decodeWord strict op).wellFormed strict = true := by
  cases h : decodeWord strict op with
  | unknown w =>
    obtain ⟨rfl, hu⟩ := (decodeWord_eq_unknown_iff strict op w).1 h
    exact hu
  | _ => rfl

/-! A word is its operand fields put in the format of its top nibble and sub-opcode. -/

section
variable {t : BitVec 4} {op : Word} (ht : (fieldT op).toNat = t.toNat)
include ht

theorem formatAddr_of_fieldT : formatAddr t (fieldNNN op) = op := by
  rw [← BitVec.eq_of_toNat_eq ht, formatAddr_fields]

theorem formatRegImm_of_fieldT : formatRegImm t (fieldX op) (fieldNN op) = op := by
  rw [← BitVec.eq_of_toNat_eq ht, formatRegImm_fields]

theorem formatRegReg_of_fieldT {n : BitVec 4} (hn : (fieldN op).toNat = n.toNat) :
    formatRegReg t (fieldX op) (fieldY op) n = op := by
  rw [← BitVec.eq_of_toNat_eq ht, ← BitVec.eq_of_toNat_eq hn, formatRegReg_fields]

theorem formatRegSub_of_fieldT {sub : Byte} (hs : (fieldNN op).toNat = sub.toNat) :
    formatRegSub t (fieldX op) sub = op := by
  rw [← BitVec.eq_of_toNat_eq ht, ← BitVec.eq_of_toNat_eq hs]
  exact formatRegImm_fields op

end

theorem encode_decodeSys (op : Word) : encode (decodeSys true op) = op := by
  simp only [decodeSys, if_true]
  split_ifs with h0 h1
  · exact BitVec.eq_of_toNat_eq h0.symm
  · exact BitVec.eq_of_toNat_eq h1.symm
  · rfl

theorem encode_decodeAlu {op : Word} (ht : (fieldT op).toNat = 0x8) : encode (decodeAlu op) = op := by
  unfold decodeAlu
  split
  case h_10 => rfl
  all_goals exact formatRegReg_of_fieldT ht ‹_›

theorem encode_decodeKey {op : Word} (ht : (fieldT op).toNat = 0xE) : encode (decodeKey op) = op := by
  unfold decodeKey
  split
  case h_3 => rfl
  all_goals exact formatRegSub_of_fieldT ht ‹_›

theorem encode_decodeMisc {op : Word} (ht : (fieldT op).toNat = 0xF) : encode (decodeMisc op) = op := by
  unfold decodeMisc
  split
  case h_10 => rfl
  all_goals exact formatRegSub_of_fieldT ht ‹_›

/-- Under strict decoding no word loses a bit: what the decoder ignores is fixed by the row (R74). -/
theorem encode_decodeWord (op : Word) : encode (decodeWord true op) = op := by
  unfold decodeWord
  split
  case h_1 => exact encode_decodeSys op
  case h_2 ht | h_3 ht | h_11 ht | h_12 ht => exact formatAddr_of_fieldT ht
  case h_4 ht | h_5 ht | h_7 ht | h_8 ht | h_13 ht => exact formatRegImm_of_fieldT ht
  case h_6 ht | h_10 ht =>
    split
    · next hn => exact formatRegReg_of_fieldT ht (hn.resolve_right (by decide))
    · rfl
  case h_9 ht => exact encode_decodeAlu ht
  case h_14 ht => exact formatRegReg_of_fieldT ht rfl
  case h_15 ht => exact encode_decodeKey ht
  case h_16 =>
    have ht : (fieldT op).toNat = 0xF := by
      have := (fieldT op).isLt
      grind
    exact encode_decodeMisc ht

/-- Settles O2: the fields of a format give its operands back, and strict decoding drops no field it has not matched. -/
theorem decodeAndEncodeAgree : Obligations.DecodeAndEncodeAgree := by
  refine ⟨fun strict i h => ⟨decodeWord_encode h, ?_⟩, encode_decodeWord, wellFormed_decodeWord⟩
  simp only [encodeBytes, decode, wordOfBytes_bytes, decodeWord_encode h]

/-! ### The listed words -/

/-- Settles O3: `isUnknownWord` writes the six classes of R76 with `op` as a number. -/
theorem unknownWordsAreTheListedOnes : Obligations.UnknownWordsAreTheListedOnes := by
  refine ⟨fun op => ?_, fun op w h => ((decodeWord_eq_unknown_iff true op w).1 h).1.symm⟩
  have hlow : op.toNat ≤ 0x0FFF ↔ op.toNat / 0x1000 = 0 := by omega
  simp [decodeWord_eq_unknown_iff, isUnknownWord, hlow, BitVec.toNat_eq, or_assoc]

/-- Settles O1: each word is read by evaluating the decoder. -/
theorem sampleWordsDecode : Obligations.SampleWordsDecode := by
  unfold Obligations.SampleWordsDecode
  decide

/-! ### Loose decoding -/

/-- A word whose low byte is neither of the two is UNKNOWN under top nibble 0, whatever the setting. -/
theorem decodeSys_loose_eq_strict {op : Word} (h : op.toNat % 0x100 ∉ [0xE0, 0xEE]) :
    decodeSys false op = decodeSys true op := by
  have hn : op.toNat % 0x100 ≠ 0xE0 ∧ op.toNat % 0x100 ≠ 0xEE := by simpa using h
  have hw : op.toNat ≠ 0x00E0 ∧ op.toNat ≠ 0x00EE := by omega
  calc decodeSys false op
    _ = .unknown op := (decodeSys_eq_unknown_iff false op op).2 ⟨rfl, hn⟩
    _ = decodeSys true op := ((decodeSys_eq_unknown_iff true op op).2 ⟨rfl, hw⟩).symm

/-- The setting is looked at under the top nibbles 0, 5 and 9 alone (R77). -/
theorem decodeWord_loose_eq_strict {op : Word} (h0 : op.toNat / 0x1000 = 0 → op.toNat % 0x100 ∉ [0xE0, 0xEE])
    (h5 : op.toNat / 0x1000 ≠ 5) (h9 : op.toNat / 0x1000 ≠ 9) : decodeWord false op = decodeWord true op := by
  unfold decodeWord
  rw [fieldT_toNat]
  split
  case h_1 ht => exact decodeSys_loose_eq_strict (h0 ht)
  case h_6 | h_10 => contradiction
  all_goals rfl

/-- Settles O4: the loose answers are read off the fields, and a word not listed keeps its strict answer. -/
theorem looseDecodingChangesOnlyTheListedWords : Obligations.LooseDecodingChangesOnlyTheListedWords := by
  refine ⟨fun x => ?_, fun x y n => ?_, fun x y n => ?_, fun op h => ?_⟩
  · constructor <;> simp [decodeWord, decodeSys, fieldNN_ofNibbles_toNat]
  · simp [decodeWord]
  · simp [decodeWord]
  · by_contra hn
    simp only [not_or, not_and] at hn
    obtain ⟨h0, h5, h9⟩ := hn
    exact h (decodeWord_loose_eq_strict h0 h5 h9)

/-! ### The rows of the opcode table -/

theorem fieldT_and (a b : Word) : fieldT (a &&& b) = fieldT a &&& fieldT b := BitVec.extractLsb'_and

theorem fieldN_and (a b : Word) : fieldN (a &&& b) = fieldN a &&& fieldN b := BitVec.extractLsb'_and

theorem fieldNN_and (a b : Word) : fieldNN (a &&& b) = fieldNN a &&& fieldNN b := BitVec.extractLsb'_and

section
variable {row : OpcodeRow} {op : Word}

theorem OpcodeRow.takes_iff : row.takes op = true ↔ op &&& row.mask = row.pattern := by
  simp [OpcodeRow.takes]

/-! A word has each field that its row's mask covers whole in common with the row's pattern. -/

theorem OpcodeRow.fieldT_of_takes (hm : fieldT row.mask = 0xF#4) (h : row.takes op = true) :
    fieldT op = fieldT row.pattern := by
  rw [← OpcodeRow.takes_iff.1 h, fieldT_and, hm, Laws.EncodeRow.and_nibble]

theorem OpcodeRow.fieldN_of_takes (hm : fieldN row.mask = 0xF#4) (h : row.takes op = true) :
    fieldN op = fieldN row.pattern := by
  rw [← OpcodeRow.takes_iff.1 h, fieldN_and, hm, Laws.EncodeRow.and_nibble]

theorem OpcodeRow.fieldNN_of_takes (hm : fieldNN row.mask = 0xFF#8) (h : row.takes op = true) :
    fieldNN op = fieldNN row.pattern := by
  rw [← OpcodeRow.takes_iff.1 h, fieldNN_and, hm, Laws.EncodeRow.and_byte]

theorem OpcodeRow.eq_pattern_of_takes (hm : row.mask = BitVec.allOnes 16) (h : row.takes op = true) :
    op = row.pattern := by
  rw [← OpcodeRow.takes_iff.1 h, hm, BitVec.and_allOnes]

end

section
variable {a b : Word}

theorem mnemonicOf_decodeAlu_congr (h : fieldN a = fieldN b) : mnemonicOf (decodeAlu a) = mnemonicOf (decodeAlu b) := by
  unfold decodeAlu
  rw [h]
  split <;> rfl

theorem mnemonicOf_decodeKey_congr (h : fieldNN a = fieldNN b) : mnemonicOf (decodeKey a) = mnemonicOf (decodeKey b) := by
  unfold decodeKey
  rw [h]
  split <;> rfl

theorem mnemonicOf_decodeMisc_congr (h : fieldNN a = fieldNN b) :
    mnemonicOf (decodeMisc a) = mnemonicOf (decodeMisc b) := by
  unfold decodeMisc
  rw [h]
  split <;> rfl

/-- The mnemonic depends on the top nibble and on what the decoder looks at under it (R73): the whole word under 0, the low
nibble under 5, 8 and 9, the low byte under E and F. -/
theorem mnemonicOf_decodeWord_congr (ht : fieldT a = fieldT b) (hw : (fieldT b).toNat = 0x0 → a = b)
    (hn : (fieldT b).toNat ∈ [0x5, 0x8, 0x9] → fieldN a = fieldN b)
    (hnn : (fieldT b).toNat ∈ [0xE, 0xF] → fieldNN a = fieldNN b) :
    mnemonicOf (decodeWord true a) = mnemonicOf (decodeWord true b) := by
  unfold decodeWord
  rw [ht]
  split
  case h_1 h => rw [hw h]
  case h_6 h | h_10 h =>
    rw [hn (by simp [h])]
    split <;> rfl
  case h_9 h => exact mnemonicOf_decodeAlu_congr (hn (by simp [h]))
  case h_15 h => exact mnemonicOf_decodeKey_congr (hnn (by simp [h]))
  case h_16 =>
    have h : (fieldT b).toNat = 0xF := by
      have := (fieldT b).isLt
      grind
    exact mnemonicOf_decodeMisc_congr (hnn (by simp [h]))
  all_goals rfl

end

/-- The mask of every row covers what the decoder looks at under the row's top nibble. -/
theorem opcodeTable_masks : ∀ row ∈ opcodeTable, fieldT row.mask = 0xF#4 ∧
    ((fieldT row.pattern).toNat = 0x0 → row.mask = BitVec.allOnes 16) ∧
    ((fieldT row.pattern).toNat ∈ [0x5, 0x8, 0x9] → fieldN row.mask = 0xF#4) ∧
    ((fieldT row.pattern).toNat ∈ [0xE, 0xF] → fieldNN row.mask = 0xFF#8) := by
  decide

theorem opcodeTable_mnemonics_nodup : (opcodeTable.map OpcodeRow.mnemonic).Nodup := by decide

theorem mnemonicOf_decodeWord_pattern :
    ∀ row ∈ opcodeTable, mnemonicOf (decodeWord true row.pattern) = row.mnemonic := by decide

theorem mnemonicOf_decodeWord_of_takes {row : OpcodeRow} {op : Word} (hrow : row ∈ opcodeTable)
    (h : row.takes op = true) : mnemonicOf (decodeWord true op) = row.mnemonic := by
  obtain ⟨ht, hw, hn, hnn⟩ := opcodeTable_masks row hrow
  calc mnemonicOf (decodeWord true op)
    _ = mnemonicOf (decodeWord true row.pattern) :=
      mnemonicOf_decodeWord_congr (row.fieldT_of_takes ht h) (fun h0 => row.eq_pattern_of_takes (hw h0) h)
        (fun h5 => row.fieldN_of_takes (hn h5) h) (fun hE => row.fieldNN_of_takes (hnn hE) h)
    _ = row.mnemonic := mnemonicOf_decodeWord_pattern row hrow

open Laws in
/-- Every instruction's word is its row's: the model's lemmas for the constructors, put together. -/
theorem encode_in_row (i : Instr) : EncodeRow.Statement i := by
  cases i
  exacts [EncodeRow.cls, EncodeRow.ret, EncodeRow.jp _, EncodeRow.call _, EncodeRow.seImm _ _, EncodeRow.sneImm _ _,
    EncodeRow.seReg _ _, EncodeRow.ldImm _ _, EncodeRow.addImm _ _, EncodeRow.ldReg _ _, EncodeRow.orReg _ _,
    EncodeRow.andReg _ _, EncodeRow.xorReg _ _, EncodeRow.addReg _ _, EncodeRow.subReg _ _, EncodeRow.shr _ _,
    EncodeRow.subn _ _, EncodeRow.shl _ _, EncodeRow.sneReg _ _, EncodeRow.ldI _, EncodeRow.jpV0 _, EncodeRow.rnd _ _,
    EncodeRow.drw _ _ _, EncodeRow.skp _, EncodeRow.sknp _, EncodeRow.ldVxDT _, EncodeRow.ldVxK _, EncodeRow.ldDTVx _,
    EncodeRow.ldSTVx _, EncodeRow.addIVx _, EncodeRow.ldFVx _, EncodeRow.ldBVx _, EncodeRow.storeRegs _,
    EncodeRow.loadRegs _, EncodeRow.unknown _]

theorem takes_of_mnemonicOf_decodeWord {row : OpcodeRow} {op : Word} (hrow : row ∈ opcodeTable)
    (h : mnemonicOf (decodeWord true op) = row.mnemonic) : row.takes op = true := by
  obtain ⟨row', hrow', hname, htakes⟩ | ⟨hnone, -⟩ := encode_in_row (decodeWord true op)
  · have heq : row' = row := List.inj_on_of_nodup_map opcodeTable_mnemonics_nodup hrow' hrow (hname.trans h)
    rwa [heq, encode_decodeWord] at htakes
  · exact absurd h.symm (hnone row hrow)

/-- Settles O5: the row that takes a word gives the mnemonic it decodes to, so that two rows that took it would share their
mnemonic; and the word of what it decodes to is itself, which lies in the row of that mnemonic. -/
theorem opcodeRowsAreDisjoint : Obligations.OpcodeRowsAreDisjoint := by
  refine ⟨?_, fun row hrow op => ⟨mnemonicOf_decodeWord_of_takes hrow, takes_of_mnemonicOf_decodeWord hrow⟩⟩
  refine (List.pairwise_map.1 opcodeTable_mnemonics_nodup).imp_of_mem fun ha hb hne op ⟨hta, htb⟩ => hne ?_
  exact (mnemonicOf_decodeWord_of_takes ha hta).symm.trans (mnemonicOf_decodeWord_of_takes hb htb)

end Sys2Proof

/-! ### UNKNOWN is a no-op -/

namespace Sys2Proof.Machine

@[simp] theorem State.setPc_byteAt (s : State) (w : Word) (a : Nat) : (s.setPc w).byteAt a = s.byteAt a := rfl

/-- A jump, a skip or an advance alone changes nothing but the PC. -/
theorem unchanged_setPc (f : Footprint) (s : State) (w : Word) : Unchanged f s (s.setPc w) := by
  constructor <;> simp

/-- Settles O18: R76's words are UNKNOWN to the decoder, and its arm of the dispatch is the advance. -/
theorem unknownWordIsANoOp : Obligations.UnknownWordIsANoOp :=
  ⟨fun strict op h => (decodeWord_eq_unknown_iff strict op op).2 ⟨rfl, h⟩,
    fun op s => ⟨s.advance, exec_unknown s op, s.advance_pc, unchanged_setPc {} s _⟩⟩

end Sys2Proof.Machine
end

section
/-! PROOFS. Control transfer and skips: where the PC goes and what each leaves unchanged (spec 40_flow.md R100-R108). -/

namespace Sys2Proof.Machine

/-! ### Jumps -/

theorem addressOf_toNat (nnn : BitVec 12) : (addressOf nnn).toNat = nnn.toNat := by
  simp only [addressOf, BitVec.toNat_setWidth]
  omega

/-- No carry leaves the 16 bits: the sum is at most 0xFF + 0xFFF (R104, D38). -/
theorem offsetTarget_toNat (v : Byte) (nnn : BitVec 12) : (offsetTarget v nnn).toNat = v.toNat + nnn.toNat := by
  simp only [offsetTarget, BitVec.toNat_add, BitVec.toNat_setWidth]
  omega

/-- An instruction whose one check is its snapshot completes where its operands are readable. -/
theorem exec_of_readsThen {i : Instr} {s t : State} {vs : List Reg} {usesI : Bool} (hr : ReadsThen i s vs usesI t)
    (h : s.Readable vs usesI) : exec i s = .next t := by
  obtain ⟨-, e⟩ | ⟨r, hu, -, -⟩ := hr
  · exact e
  · rw [(s.firstUnwritten_eq_none vs usesI).2 h] at hu
    cases hu

/-- Settles O13: the target is the address field, zero-extended. -/
theorem jumpGoesToItsAddress : Obligations.JumpGoesToItsAddress :=
  ⟨fun _ nnn => decodeWord_encode (i := .jp nnn) rfl,
    fun nnn s => ⟨_, exec_jp nnn s, addressOf_toNat nnn, unchanged_setPc {} s _⟩⟩

/-- Settles O15: the 16-bit target is the exact sum. -/
theorem offsetJumpAddsV0 : Obligations.OffsetJumpAddsV0 :=
  ⟨fun _ nnn => decodeWord_encode (i := .jpV0 nnn) rfl,
    fun nnn s h => ⟨_, exec_of_readsThen (exec_jpV0 nnn s) h, offsetTarget_toNat _ nnn, unchanged_setPc {} s _⟩⟩

/-! ### Skips -/

/-- An instruction that ends in the shared skip on a Boolean test skips where the condition tested holds. -/
theorem skips_of_readsThen {i : Instr} {s : State} {vs : List Reg} {usesI c : Bool} {p : Prop} (hc : c = true ↔ p)
    (hr : ReadsThen i s vs usesI (s.skipIf c)) (h : s.Readable vs usesI) : Skips i s p := by
  refine ⟨s.skipIf c, exec_of_readsThen hr h, fun hp => ?_, fun hp => ?_, unchanged_setPc {} s _⟩
  · rw [s.skipIf_pc, if_pos (hc.2 hp)]
  · rw [s.skipIf_pc, if_neg fun ht => hp (hc.1 ht)]

/-- Settles O16: SE tests equality with the immediate, SNE inequality. -/
theorem immediateSkips : Obligations.ImmediateSkips :=
  ⟨fun _ x nn => ⟨decodeWord_encode (i := .seImm x nn) rfl, decodeWord_encode (i := .sneImm x nn) rfl⟩,
    fun x nn s h => ⟨skips_of_readsThen beq_iff_eq (exec_seImm x nn s) h,
      skips_of_readsThen bne_iff_ne (exec_sneImm x nn s) h⟩⟩

/-- Settles O17: SE tests equality of the registers, SNE inequality; loose decoding ignores the low nibble (O4). -/
theorem registerSkips : Obligations.RegisterSkips := by
  obtain ⟨-, hse, hsne, -⟩ := looseDecodingChangesOnlyTheListedWords
  exact ⟨fun _ x y => ⟨decodeWord_encode (i := .seReg x y) rfl, decodeWord_encode (i := .sneReg x y) rfl⟩,
    fun x y n => ⟨hse x y n, hsne x y n⟩,
    fun x y s h => ⟨skips_of_readsThen beq_iff_eq (exec_seReg x y s) h,
      skips_of_readsThen bne_iff_ne (exec_sneReg x y s) h⟩⟩

/-! ### Call and return -/

/-- The frame of a call and of a return: the stack and the PC are all that differs (R101, R103). -/
theorem unchanged_stack (s : State) (stack : Vector Word 16) (depth : Fin 17) (w : Word) :
    Unchanged { stack := true } s (({ s with stack := stack, depth := depth } : State).setPc w) := by
  constructor <;> simp [State.byteAt]

theorem exec_ret_pops {s : State} (h : 0 ≤ s.sp) :
    ∃ t, exec .ret s = .next t ∧ s.stack[s.depth.val - 1]? = some t.pc ∧ t.sp = s.sp - 1 ∧ t.stack = s.stack ∧
      Unchanged { stack := true } s t := by
  obtain ⟨hd, e⟩ | ⟨hd, -⟩ := exec_ret s
  · refine ⟨_, e, Vector.getElem?_eq_getElem _, ?_, rfl, unchanged_stack s s.stack _ _⟩
    simp only [State.sp, State.setPc_depth]
    omega
  · unfold State.sp at h
    omega

theorem exec_ret_underflows {s : State} (h : s.sp = -1) : Raises .ret s (.stackUnderflow s.pc) := by
  obtain ⟨hd, -⟩ | ⟨-, e⟩ := exec_ret s
  · unfold State.sp at h
    omega
  · exact e

theorem exec_call_pushes (nnn : BitVec 12) {s : State} (h : s.sp < 15) :
    ∃ t, exec (.call nnn) s = .next t ∧ t.pc.toNat = nnn.toNat ∧ t.sp = s.sp + 1 ∧
      t.stack[t.depth.val - 1]? = some (s.pc + 2) ∧ (∀ k, k ≠ t.depth.val - 1 → t.stack[k]? = s.stack[k]?) ∧
      Unchanged { stack := true } s t := by
  obtain ⟨hd, e⟩ | ⟨hd, -⟩ := exec_call nnn s
  · refine ⟨_, e, addressOf_toNat nnn, ?_, ?_, fun k hk => ?_, unchanged_stack s _ _ _⟩
    · simp only [State.sp, State.setPc_depth]
      omega
    · exact Vector.getElem?_set_self hd
    · exact Vector.getElem?_set_ne hd (Ne.symm hk)
  · unfold State.sp at h
    omega

theorem exec_call_overflows (nnn : BitVec 12) {s : State} (h : s.sp = 15) :
    Raises (.call nnn) s (.stackOverflow s.pc) := by
  obtain ⟨hd, -⟩ | ⟨-, e⟩ := exec_call nnn s
  · unfold State.sp at h
    omega
  · exact e

/-- Settles O12: RET pops where SP is at least 0 and underflows where it is -1. -/
theorem returnPopsItsTarget : Obligations.ReturnPopsItsTarget :=
  ⟨fun _ => decodeWord_encode (i := .ret) rfl, fun _ => ⟨exec_ret_pops, exec_ret_underflows⟩⟩

/-- Settles O14: CALL pushes where SP is below 15 and overflows where it is 15. -/
theorem callPushesTheNextAddress : Obligations.CallPushesTheNextAddress :=
  ⟨fun _ nnn => decodeWord_encode (i := .call nnn) rfl, fun nnn _ => ⟨exec_call_pushes nnn, exec_call_overflows nnn⟩⟩

/-- Settles O19: the entry RET pops from the call's stack is the one the call pushed. -/
theorem callThenReturn : Obligations.CallThenReturn := by
  intro nnn s t u hcall hsp hstack hdepth
  obtain ⟨t', e, -, hup, htop, -, -⟩ := exec_call_pushes nnn hsp
  rw [hcall] at e
  cases e
  have hu : u.sp = s.sp + 1 := by rw [← hup, State.sp, hdepth, State.sp]
  have hpos : 0 ≤ u.sp := by
    rw [hu, State.sp]
    omega
  obtain ⟨w, hret, hpc, hdown, -, -⟩ := exec_ret_pops hpos
  rw [hstack, hdepth, htop] at hpc
  exact ⟨w, hret, (Option.some.inj hpc).symm, by omega⟩

/-! ### Where the PC goes -/

/-- The six skips (R105-R108, R190, R191). -/
abbrev IsSkip (i : Instr) : Prop :=
  ∃ x y nn, i = .seImm x nn ∨ i = .sneImm x nn ∨ i = .seReg x y ∨ i = .sneReg x y ∨ i = .skp x ∨ i = .sknp x

/-- The PC went 2 on, or 4 on and the instruction is a skip (R100). -/
abbrev AdvancesPc (i : Instr) (s t : State) : Prop := t.pc = s.pc + 2 ∨ (t.pc = s.pc + 4 ∧ IsSkip i)

section
variable {i : Instr} {s t t' : State} {vs : List Reg}

theorem advancesPc_skipIf (c : Bool) (hi : IsSkip i) : AdvancesPc i s (s.skipIf c) := by
  cases c with
  | true => exact .inr ⟨rfl, hi⟩
  | false => exact .inl rfl

theorem State.writeResultAndFlag_pc (s : State) (x : Reg) (b : Byte) (c : Bool) :
    (s.writeResultAndFlag x b c).pc = s.pc := by
  obtain ⟨-, e⟩ | ⟨-, -, e⟩ := s.writeResultAndFlag_cases x b c
  all_goals rw [e]; rfl

theorem advancesPc_writeResultAndFlag (x : Reg) (b : Byte) (c : Bool) :
    AdvancesPc i s (s.writeResultAndFlag x b c).advance :=
  .inl (by rw [State.advance_pc, State.writeResultAndFlag_pc])

theorem advancesPc_of_completes (e : exec i s = .next t') (ht : AdvancesPc i s t') (h : exec i s = .next t) :
    AdvancesPc i s t := by
  rw [e] at h
  cases h
  exact ht

/-- A fault leaves no running core, so it is no completion (R211). -/
theorem advancesPc_of_raises {f : Fault} (e : exec i s = .next (s.raise f)) (hm : t.coreMode = .running)
    (h : exec i s = .next t) : AdvancesPc i s t := by
  rw [e] at h
  cases h
  cases hm

theorem advancesPc_of_readsThen {usesI : Bool} (hr : ReadsThen i s vs usesI t') (ht : AdvancesPc i s t')
    (hm : t.coreMode = .running) (h : exec i s = .next t) : AdvancesPc i s t := by
  obtain ⟨-, e⟩ | ⟨_, -, -, e⟩ := hr
  · exact advancesPc_of_completes e ht h
  · exact advancesPc_of_raises e hm h

theorem advancesPc_of_transfersThen {n : Nat} (hr : TransfersThen i s vs n t') (ht : t'.pc = s.pc + 2)
    (hm : t.coreMode = .running) (h : exec i s = .next t) : AdvancesPc i s t := by
  obtain ⟨-, -, e⟩ | ⟨-, -, e⟩ | ⟨_, -, -, e⟩ := hr
  · exact advancesPc_of_completes e (.inl ht) h
  all_goals exact advancesPc_of_raises e hm h

/-- Every instruction but a jump, a call or a return advances the PC where it completes. -/
theorem exec_advancesPc (h : exec i s = .next t) (hm : t.coreMode = .running) (hret : i ≠ .ret)
    (hjump : ∀ nnn, i ≠ .jp nnn ∧ i ≠ .call nnn ∧ i ≠ .jpV0 nnn) : AdvancesPc i s t := by
  cases i with
  | ret => exact absurd rfl hret
  | jp nnn => exact absurd rfl (hjump nnn).1
  | call nnn => exact absurd rfl (hjump nnn).2.1
  | jpV0 nnn => exact absurd rfl (hjump nnn).2.2
  | seImm x nn => exact advancesPc_of_readsThen (exec_seImm x nn s) (advancesPc_skipIf _ ⟨x, x, nn, by simp⟩) hm h
  | sneImm x nn => exact advancesPc_of_readsThen (exec_sneImm x nn s) (advancesPc_skipIf _ ⟨x, x, nn, by simp⟩) hm h
  | seReg x y => exact advancesPc_of_readsThen (exec_seReg x y s) (advancesPc_skipIf _ ⟨x, y, 0, by simp⟩) hm h
  | sneReg x y => exact advancesPc_of_readsThen (exec_sneReg x y s) (advancesPc_skipIf _ ⟨x, y, 0, by simp⟩) hm h
  | skp x => exact advancesPc_of_readsThen (exec_skp x s) (advancesPc_skipIf _ ⟨x, x, 0, by simp⟩) hm h
  | sknp x => exact advancesPc_of_readsThen (exec_sknp x s) (advancesPc_skipIf _ ⟨x, x, 0, by simp⟩) hm h
  | cls => exact advancesPc_of_completes (exec_cls s) (.inl rfl) h
  | ldImm x nn => exact advancesPc_of_completes (exec_ldImm x nn s) (.inl rfl) h
  | ldI nnn => exact advancesPc_of_completes (exec_ldI nnn s) (.inl rfl) h
  | rnd x nn => exact advancesPc_of_completes (exec_rnd x nn s) (.inl rfl) h
  | ldVxDT x => exact advancesPc_of_completes (exec_ldVxDT x s) (.inl rfl) h
  | unknown op => exact advancesPc_of_completes (exec_unknown s op) (.inl rfl) h
  | addImm x nn => exact advancesPc_of_readsThen (exec_addImm x nn s) (.inl rfl) hm h
  | ldReg x y => exact advancesPc_of_readsThen (exec_ldReg x y s) (.inl rfl) hm h
  | orReg x y => exact advancesPc_of_readsThen (exec_orReg x y s) (.inl rfl) hm h
  | andReg x y => exact advancesPc_of_readsThen (exec_andReg x y s) (.inl rfl) hm h
  | xorReg x y => exact advancesPc_of_readsThen (exec_xorReg x y s) (.inl rfl) hm h
  | addReg x y => exact advancesPc_of_readsThen (exec_addReg x y s) (advancesPc_writeResultAndFlag ..) hm h
  | subReg x y => exact advancesPc_of_readsThen (exec_subReg x y s) (advancesPc_writeResultAndFlag ..) hm h
  | subn x y => exact advancesPc_of_readsThen (exec_subn x y s) (advancesPc_writeResultAndFlag ..) hm h
  | shr x y => exact advancesPc_of_readsThen (exec_shr x y s) (advancesPc_writeResultAndFlag ..) hm h
  | shl x y => exact advancesPc_of_readsThen (exec_shl x y s) (advancesPc_writeResultAndFlag ..) hm h
  | ldDTVx x => exact advancesPc_of_readsThen (exec_ldDTVx x s) (.inl rfl) hm h
  | ldSTVx x => exact advancesPc_of_readsThen (exec_ldSTVx x s) (.inl rfl) hm h
  | addIVx x => exact advancesPc_of_readsThen (exec_addIVx x s) (.inl rfl) hm h
  | ldFVx x => exact advancesPc_of_readsThen (exec_ldFVx x s) (.inl rfl) hm h
  | ldBVx x => exact advancesPc_of_transfersThen (exec_ldBVx x s) (by rw [State.storeBytes_eq]; rfl) hm h
  | storeRegs x =>
    exact advancesPc_of_transfersThen (exec_storeRegs x s) (by rw [State.bumpI_eq, State.storeBytes_eq]; rfl) hm h
  | loadRegs x =>
    exact advancesPc_of_transfersThen (exec_loadRegs x s) (by rw [State.bumpI_eq, State.loadBlock_eq]; rfl) hm h
  | ldVxK x =>
    obtain ⟨_, _, -, e⟩ | ⟨-, _, -, e⟩ | ⟨-, -, e⟩ := exec_ldVxK x s
    · exact advancesPc_of_completes e (.inl rfl) h
    · exact advancesPc_of_completes e (.inl rfl) h
    · rw [e] at h
      cases h
      cases hm -- held, not running
  | drw x y n =>
    obtain ⟨-, -, -, e⟩ | ⟨-, -, _, -, e⟩ | ⟨-, -, e⟩ | ⟨_, -, -, e⟩ := exec_drw x y s n
    · exact advancesPc_of_completes e (.inl rfl) h
    all_goals exact advancesPc_of_raises e hm h

/-- An instruction of a running core that does not complete leaves the PC: it faulted or holds (R193, R211). -/
theorem exec_pc_of_not_running (hs : s.coreMode = .running) (h : exec i s = .next t) (hm : t.coreMode ≠ .running) :
    t.pc = s.pc := by
  obtain he | ⟨f, -, rfl⟩ := exec_endsIn h
  · obtain hrun | ⟨x, -, -, rfl⟩ := he.mode hs
    · exact absurd hrun hm
    · rfl
  · exact s.raise_pc f

end

/-- Settles O48: a fault or a hold leaves the PC, and what completes and is no jump, call or return advances it. -/
theorem pcAdvancesByTwo : Obligations.PcAdvancesByTwo :=
  fun _ _ _ hs h => ⟨exec_pc_of_not_running hs h, exec_advancesPc h⟩

end Sys2Proof.Machine
end

section
/-! PROOFS. Register loads, the ALU and the random byte: the registers each writes, and its frame (spec 41_alu.md
R120-R134). -/

namespace Sys2Proof.Machine

/-! ### The frame, update by update -/

section
variable {f : Footprint} {s t : State}

theorem Unchanged.refl (f : Footprint) (s : State) : Unchanged f s s := unchanged_setPc f s s.pc

/-- The PC is in no frame. -/
theorem Unchanged.advance (h : Unchanged f s t) : Unchanged f s t.advance := { h with }

theorem Unchanged.setV (h : Unchanged f s t) {x : Reg} (hx : x ∈ f.regs) (b : Byte) : Unchanged f s (t.setV x b) :=
  { h with
    regs := fun r hr => by
      have hne : r ≠ x := fun e => hr (e ▸ hx)
      rw [t.setV_get, t.setV_unwritten, if_neg hne, if_neg hne]
      exact h.regs r hr }

/-- Taking a free draw changes the draw index alone (log 5). -/
theorem Unchanged.freeDraw (h : Unchanged f s t) (hf : f.freeIndex = true) (n : Nat) :
    Unchanged f s { t with freeIndex := n } :=
  { h with freeIndex := fun h0 => by rw [hf] at h0; cases h0 }

end

theorem State.setV_get_same (s : State) (x : Reg) (b : Byte) : (s.setV x b).v[x] = b := by
  rw [s.setV_get, if_pos rfl]

/-! ### Loads of one register -/

section
variable {i : Instr} {s : State} {x : Reg} {b : Byte}

/-- An instruction that completes with one register written, and the advance, loads that register. -/
theorem loads_of_completes (e : exec i s = .next (s.setV x b).advance) : Loads i s x b :=
  ⟨_, e, s.setV_get_same x b, rfl, ((Unchanged.refl _ s).setV (List.mem_singleton_self x) b).advance⟩

theorem loads_of_readsThen {vs : List Reg} {usesI : Bool} (hr : ReadsThen i s vs usesI (s.setV x b).advance)
    (h : s.Readable vs usesI) : Loads i s x b :=
  loads_of_completes (exec_of_readsThen hr h)

end

/-- The byte sum is the sum of the numbers modulo 256 (R122). -/
theorem byte_add_eq (a b : Byte) : a + b = BitVec.ofNat 8 ((a.toNat + b.toNat) % 256) := by bv_omega

/-- Settles O20: both load one register, the second with the byte sum. -/
theorem immediateLoadsAndAdds : Obligations.ImmediateLoadsAndAdds := by
  refine ⟨fun _ x nn => ⟨decodeWord_encode (i := .ldImm x nn) rfl, decodeWord_encode (i := .addImm x nn) rfl⟩,
    fun x nn s => ⟨loads_of_completes (exec_ldImm x nn s), fun h => ?_⟩⟩
  rw [← byte_add_eq]
  exact loads_of_readsThen (exec_addImm x nn s) h

/-- Settles O21: all four load one register, and the bits of OR, AND and XOR are those of the byte operations. -/
theorem copyAndBitwiseOperations : Obligations.CopyAndBitwiseOperations :=
  ⟨fun _ x y => ⟨decodeWord_encode (i := .ldReg x y) rfl, decodeWord_encode (i := .orReg x y) rfl,
      decodeWord_encode (i := .andReg x y) rfl, decodeWord_encode (i := .xorReg x y) rfl⟩,
    fun x y s => ⟨loads_of_readsThen (exec_ldReg x y s), fun h =>
      ⟨⟨_, fun _ => BitVec.getLsbD_or, loads_of_readsThen (exec_orReg x y s) h⟩,
        ⟨_, fun _ => BitVec.getLsbD_and, loads_of_readsThen (exec_andReg x y s) h⟩,
        ⟨_, fun _ => BitVec.getLsbD_xor, loads_of_readsThen (exec_xorReg x y s) h⟩⟩⟩⟩

/-- Settles O25: the draw is taken first, then the masked byte is written. -/
theorem randomByteIsMasked : Obligations.RandomByteIsMasked := by
  refine ⟨fun _ x nn => decodeWord_encode (i := .rnd x nn) rfl, fun x nn s => ⟨_, exec_rnd x nn s, fun _ => ?_, rfl, rfl,
    (((Unchanged.refl _ s).freeDraw rfl (s.freeIndex + 1)).setV (List.mem_singleton_self x) _).advance⟩⟩
  rw [State.advance_v, State.setV_get_same]
  exact BitVec.getLsbD_and

/-! ### A result and its flag -/

theorem flagValue_spec {c : Bool} {p : Prop} (hc : c = true ↔ p) :
    (p → flagValue c = 1) ∧ (¬p → flagValue c = 0) :=
  ⟨fun hp => if_pos (hc.2 hp), fun hp => if_neg fun ht => hp (hc.1 ht)⟩

/-- R120's two cases exclude each other: the flag stands, or VF is a free draw. -/
theorem not_drawn_of_flag_stands {x : Reg} {o : FlagOrder} (h : x ≠ regF ∨ o = .flagLast) :
    ¬(x = regF ∧ o = .flagAny) := by
  rintro ⟨hx, rfl⟩
  obtain hne | hlast := h
  · exact hne hx
  · cases hlast

theorem writesResultAndFlag_of_completes {i : Instr} {s : State} {x : Reg} {b : Byte} {c : Bool} {n : Nat} {p : Prop}
    (hb : b.toNat = n) (hc : c = true ↔ p) (e : exec i s = .next (s.writeResultAndFlag x b c).advance) :
    WritesResultAndFlag i s x n p := by
  have hx : x ∈ [x, regF] := by simp
  have hF : regF ∈ [x, regF] := by simp
  obtain ⟨hstands, ew⟩ | ⟨hxF, hany, ew⟩ := s.writeResultAndFlag_cases x b c
  · rw [ew] at e
    refine ⟨_, e, fun hne => ?_, fun _ => ?_, fun hdrawn => absurd hdrawn (not_drawn_of_flag_stands hstands), rfl,
      (((Unchanged.refl _ s).setV hx b).setV hF (flagValue c)).advance⟩
    · rw [State.advance_v, State.setV_get, if_neg hne, State.setV_get_same]
      exact hb
    · rw [State.advance_v, State.setV_get_same]
      exact flagValue_spec hc
  · rw [ew] at e
    have hfree : (x == regF && s.config.flagOrder == .flagAny) = true := by simp [hxF, hany]
    exact ⟨_, e, fun hne => absurd hxF hne, fun hstands => absurd ⟨hxF, hany⟩ (not_drawn_of_flag_stands hstands),
      fun _ => ⟨State.setV_get_same .., rfl⟩, rfl,
      ((((Unchanged.refl _ s).setV hx b).freeDraw hfree (s.freeIndex + 1)).setV hF _).advance⟩

theorem writesResultAndFlag_of_readsThen {i : Instr} {s : State} {x : Reg} {b : Byte} {c : Bool} {n : Nat} {p : Prop}
    {vs : List Reg} {usesI : Bool} (hb : b.toNat = n) (hc : c = true ↔ p)
    (hr : ReadsThen i s vs usesI (s.writeResultAndFlag x b c).advance) (h : s.Readable vs usesI) :
    WritesResultAndFlag i s x n p :=
  writesResultAndFlag_of_completes hb hc (exec_of_readsThen hr h)

/-! ### The results and flags as numbers -/

section
variable (a b : Byte)

theorem carryFlag_iff : carryFlag a b = true ↔ 255 < a.toNat + b.toNat := by
  rw [carryFlag, decide_eq_true_iff]
  omega

theorem noBorrowFlag_iff : noBorrowFlag a b = true ↔ ¬a.toNat < b.toNat := by simp [noBorrowFlag]

theorem lowBitFlag_iff : lowBitFlag b = true ↔ b.toNat % 2 = 1 := by simp [lowBitFlag, BitVec.getLsbD]

/-- Bit 7 is the sign bit of the byte. -/
theorem highBitFlag_iff : highBitFlag b = true ↔ 128 ≤ b.toNat := by
  rw [highBitFlag, ← BitVec.msb_eq_getLsbD_last b, BitVec.msb_eq_decide, decide_eq_true_iff]

theorem byte_sub_toNat : (a - b).toNat = (a.toNat + 256 - b.toNat) % 256 := by bv_omega

theorem byte_shiftRight_toNat : (b >>> 1).toNat = b.toNat / 2 := BitVec.toNat_ushiftRight b 1

theorem byte_shiftLeft_toNat : (b <<< 1).toNat = b.toNat * 2 % 256 := by
  rw [BitVec.toNat_shiftLeft, Nat.shiftLeft_eq]

end

/-- Settles O22: the byte sum is modulo 256, and the carry is tested before it. -/
theorem addSetsTheCarry : Obligations.AddSetsTheCarry :=
  ⟨fun _ x y => decodeWord_encode (i := .addReg x y) rfl,
    fun x y s => writesResultAndFlag_of_readsThen (BitVec.toNat_add _ _) (carryFlag_iff _ _) (exec_addReg x y s)⟩

/-- Settles O23: SUBN is SUB with its operands swapped. -/
theorem subtractionsSetNotBorrow : Obligations.SubtractionsSetNotBorrow :=
  ⟨fun _ x y => ⟨decodeWord_encode (i := .subReg x y) rfl, decodeWord_encode (i := .subn x y) rfl⟩,
    fun x y s h =>
      ⟨writesResultAndFlag_of_readsThen (byte_sub_toNat _ _) (noBorrowFlag_iff _ _) (exec_subReg x y s) h,
        writesResultAndFlag_of_readsThen (byte_sub_toNat _ _) (noBorrowFlag_iff _ _) (exec_subn x y s) h⟩⟩

theorem State.shiftReg_of_source {s : State} {x y z : Reg}
    (hz : (s.config.shiftSource = .vx ∧ z = x) ∨ (s.config.shiftSource = .vy ∧ z = y)) : z = s.shiftReg x y := by
  unfold State.shiftReg
  obtain ⟨hsrc, rfl⟩ | ⟨hsrc, rfl⟩ := hz
  all_goals rw [hsrc]

/-- Settles O24: the source is the register the shift reads, and the flag is its bit before the shift. -/
theorem shiftsSetTheBitShiftedOut : Obligations.ShiftsSetTheBitShiftedOut := by
  refine ⟨fun _ x y => ⟨decodeWord_encode (i := .shr x y) rfl, decodeWord_encode (i := .shl x y) rfl⟩,
    fun x y z s hz h => ?_⟩
  obtain rfl := State.shiftReg_of_source hz
  exact ⟨writesResultAndFlag_of_readsThen (byte_shiftRight_toNat _) (lowBitFlag_iff _) (exec_shr x y s) h,
    writesResultAndFlag_of_readsThen (byte_shiftLeft_toNat _) (highBitFlag_iff _) (exec_shl x y s) h⟩

end Sys2Proof.Machine
end

section
/-! PROOFS. The index register and the memory transfers: what each leaves in I, in memory and in the registers, and its frame
(spec 42_index_memory.md R149-R156). -/

namespace Sys2Proof.Machine

/-! ### The frame of the index register and of a block -/

section
variable {f : Footprint} {s t : State}

theorem Unchanged.setI (h : Unchanged f s t) (hf : f.index = true) (w : Word) : Unchanged f s (t.setI w) :=
  { h with index := fun h0 => by rw [hf] at h0; cases h0 }

/-- FX55 and FX65 move I only under `MEM_INCREMENTS_I = true`, so the footprint need name it only then. -/
theorem Unchanged.bumpI (h : Unchanged f s t) (hf : s.config.memIncrementsI = f.index) (x : Reg) :
    Unchanged f s (t.bumpI x) := by
  unfold State.bumpI
  split
  next hinc => exact h.setI (by rw [← hf, ← h.config, hinc]) _
  next => exact h

theorem Unchanged.loadBlock (h : Unchanged f s t) {x : Reg} (hx : ∀ r ∈ blockRegs x, r ∈ f.regs) (a : Nat) :
    Unchanged f s (t.loadBlock a x) :=
  List.foldlRecOn (blockRegs x) _ h fun _ hu r hr => hu.setV (hx r hr) _

/-- A store of several bytes leaves every address outside them. -/
theorem State.byteAt_storeBytes_other {a p : Nat} {bytes : List Byte} (hp : ¬(a ≤ p ∧ p < a + bytes.length)) :
    (s.storeBytes a bytes).byteAt p = s.byteAt p := by
  rw [State.byteAt_storeBytes]
  split
  next hle => rw [List.getElem?_eq_none (by omega)]
  next => rfl

/-- A store of several bytes leaves its byte `k` at its address `a + k`. -/
theorem State.byteAt_storeBytes_get (s : State) {a k : Nat} {bytes : List Byte} {b : Byte} (hk : bytes[k]? = some b) :
    (s.storeBytes a bytes).byteAt (a + k) = b := by
  simp only [State.byteAt_storeBytes, Nat.le_add_right, if_true, Nat.add_sub_cancel_left, hk]

theorem Unchanged.storeBytes (h : Unchanged f s t) {a : Nat} {bytes : List Byte} (hf : f.bytes = some (a, bytes.length)) :
    Unchanged f s (t.storeBytes a bytes) := by
  have hbytes : ∀ p, ¬f.stores p → (t.storeBytes a bytes).byteAt p = s.byteAt p := fun p hp => by
    have hout : ¬(a ≤ p ∧ p < a + bytes.length) := by simpa only [Footprint.stores, hf] using hp
    rw [State.byteAt_storeBytes_other hout, h.bytes p hp]
  rw [State.storeBytes_eq] at hbytes ⊢
  exact { h with bytes := hbytes }

end

/-! ### Loads of the index register -/

/-- A byte times 5 fits the 16 bits of I (R152). -/
theorem byte_mul_five_toNat (b : Byte) : (BitVec.ofNat 16 (b.toNat * 5)).toNat = b.toNat * 5 := by
  rw [BitVec.toNat_ofNat]
  omega

/-- Settles O26: both write I alone, the first the address field and the second the product, which fits in 16 bits. -/
theorem indexLoads : Obligations.IndexLoads :=
  ⟨fun _ nnn => decodeWord_encode (i := .ldI nnn) rfl, fun _ x => decodeWord_encode (i := .ldFVx x) rfl,
    fun nnn s => ⟨_, exec_ldI nnn s, addressOf_toNat nnn, rfl, ((Unchanged.refl _ s).setI rfl _).advance⟩,
    fun x s h => ⟨_, exec_of_readsThen (exec_ldFVx x s) h, byte_mul_five_toNat _, rfl,
      ((Unchanged.refl _ s).setI rfl _).advance⟩⟩

/-- FX1E's sum wraps at 16 bits (R151). -/
theorem word_add_byte_toNat (w : Word) (b : Byte) : (w + b.setWidth 16).toNat = (w.toNat + b.toNat) % 65536 := by
  bv_omega

theorem rangeFlag_iff (w : Word) : rangeFlag w = true ↔ 0xFFF < w.toNat := decide_eq_true_iff

/-- Settles O27: VF tests the wrapped sum, and is written after I. -/
theorem indexAddTestsItsRange : Obligations.IndexAddTestsItsRange := by
  refine ⟨fun _ x => decodeWord_encode (i := .addIVx x) rfl, fun x s h => ⟨_, exec_of_readsThen (exec_addIVx x s) h,
    word_add_byte_toNat _ _, fun hlarge => ?_, fun hsmall => ?_, rfl,
    (((Unchanged.refl _ s).setI rfl _).setV (List.mem_singleton_self regF) _).advance⟩⟩
  all_goals rw [State.advance_v, State.setV_get_same]
  · exact (flagValue_spec (rangeFlag_iff _)).1 hlarge
  · exact (flagValue_spec (rangeFlag_iff _)).2 (Nat.not_lt.2 hsmall)

/-! ### Transfers inside memory and outside -/

section
variable {i : Instr} {s t : State} {vs : List Reg} {n : Nat}

theorem State.firstUnwritten_ne_some {usesI : Bool} (h : s.Readable vs usesI) (r : RegName) :
    s.firstUnwritten vs usesI ≠ some r := by
  rw [(s.firstUnwritten_eq_none vs usesI).2 h]
  exact (Option.some_ne_none r).symm

theorem exec_of_transfersThen (hr : TransfersThen i s vs n t) (h : s.Readable vs true) (hfit : s.i.toNat + n ≤ 4096) :
    exec i s = .next t := by
  obtain ⟨-, -, e⟩ | ⟨-, hout, -⟩ | ⟨r, hu, -, -⟩ := hr
  · exact e
  · exact absurd (.inr hfit) hout
  · exact absurd hu (State.firstUnwritten_ne_some h r)

/-- The range check comes before any state changes, so a transfer that does not fit raises and stores nothing (R149). -/
theorem raises_of_transfersThen (hr : TransfersThen i s vs n t) (h : s.Readable vs true) (hn : n ≠ 0)
    (hout : 4096 < s.i.toNat + n) : Raises i s (.memRange (max s.i.toNat 4096) s.pc) := by
  obtain ⟨-, hfit, -⟩ | ⟨-, -, e⟩ | ⟨r, hu, -, -⟩ := hr
  · omega
  · exact e
  · exact absurd hu (State.firstUnwritten_ne_some h r)

end

/-! ### FX33 -/

/-- A number below 256 that a store puts down as byte `k` is read back at `a + k`. -/
theorem State.byteAt_storeBytes_ofNat (s : State) {a k n : Nat} {bytes : List Byte}
    (hk : bytes[k]? = some (BitVec.ofNat 8 n)) (hn : n < 256) : ((s.storeBytes a bytes).byteAt (a + k)).toNat = n := by
  rw [s.byteAt_storeBytes_get hk, BitVec.toNat_ofNat, Nat.mod_eq_of_lt hn]

/-- Settles O28: the stored bytes are the digits of Vx, each of which fits a byte. -/
theorem decimalDigitsAreStored : Obligations.DecimalDigitsAreStored := by
  refine ⟨fun _ x => decodeWord_encode (i := .ldBVx x) rfl, fun x s h =>
    ⟨fun hfit => ⟨_, exec_of_transfersThen (exec_ldBVx x s) h (by omega), ?_, ?_, ?_, ?_,
      ((Unchanged.refl _ s).storeBytes rfl).advance⟩,
      fun hout => raises_of_transfersThen (exec_ldBVx x s) h (by omega) (by omega)⟩⟩
  · exact s.byteAt_storeBytes_ofNat (k := 0) rfl (by omega)
  · exact s.byteAt_storeBytes_ofNat (k := 1) rfl (by omega)
  · exact s.byteAt_storeBytes_ofNat (k := 2) rfl (by omega)
  · rw [State.advance_pc, State.storeBytes_eq]

/-! ### FX55 and FX65 -/

/-- The move of I wraps at 16 bits (R154, R155). -/
theorem State.bumpI_toNat {s : State} (h : s.config.memIncrementsI = true) (x : Reg) :
    (s.bumpI x).i.toNat = (s.i.toNat + x.val + 1) % 65536 := by
  rw [State.bumpI, if_pos h, State.setI_i]
  bv_omega

section
variable (s : State) (x : Reg)

theorem State.stored_pc : (s.stored x).pc = s.pc + 2 := by
  rw [State.stored, State.advance_pc, State.bumpI_eq, State.storeBytes_eq]

theorem State.stored_i (h : s.config.memIncrementsI = true) :
    (s.stored x).i.toNat = (s.i.toNat + x.val + 1) % 65536 := by
  rw [State.stored, State.advance_i, State.storeBytes_eq, State.bumpI_toNat]
  exact h

/-- FX55's frame: I where it moves, and the X + 1 bytes from I (R154). -/
theorem State.stored_unchanged :
    Unchanged { index := s.config.memIncrementsI, bytes := some (s.i.toNat, x.val + 1) } s (s.stored x) :=
  (((Unchanged.refl _ s).storeBytes (by rw [State.blockBytes_length])).bumpI rfl x).advance

/-- What FX65 leaves where it completes (R155). -/
def State.loaded (s : State) (x : Reg) : State := ((s.loadBlock s.i.toNat x).bumpI x).advance

theorem State.loaded_pc : (s.loaded x).pc = s.pc + 2 := by
  rw [State.loaded, State.advance_pc, State.bumpI_eq, State.loadBlock_eq]

theorem State.loaded_i (h : s.config.memIncrementsI = true) :
    (s.loaded x).i.toNat = (s.i.toNat + x.val + 1) % 65536 := by
  rw [State.loaded, State.advance_i, State.loadBlock_eq, State.bumpI_toNat]
  exact h

/-- FX65 writes the registers up to Vx and leaves those above (R155). -/
theorem State.loaded_get (k : Reg) :
    (s.loaded x).v[k] = if k ≤ x then s.byteAt (s.i.toNat + k.val) else s.v[k] := by
  rw [State.loaded, State.bumpI_eq]
  exact s.loadBlock_get s.i.toNat x k

/-- FX65's frame: the registers up to Vx, and I where it moves (R155). -/
theorem State.loaded_unchanged :
    Unchanged { regs := blockRegs x, index := s.config.memIncrementsI } s (s.loaded x) :=
  (((Unchanged.refl _ s).loadBlock (fun _ => id) s.i.toNat).bumpI rfl x).advance

/-- FX65 with I written and its block inside memory completes (R155). -/
theorem exec_loadRegs_of_fits (hr : s.Readable [] true) (hfit : s.i.toNat + x.val ≤ 4095) :
    exec (.loadRegs x) s = .next (s.loaded x) :=
  exec_of_transfersThen (exec_loadRegs x s) hr (by omega)

end

/-- Settles O29: inside memory the bytes, I and the frame are those of `State.stored`. -/
theorem registersAreStored : Obligations.RegistersAreStored := by
  refine ⟨fun _ x => decodeWord_encode (i := .storeRegs x) rfl, fun x s h => ?_⟩
  rw [← blockRegs_eq_filter] at h
  exact ⟨fun hfit => ⟨s.stored x, exec_storeRegs_of_fits h hfit, fun k hk => s.byteAt_stored hk, s.stored_i x,
      s.stored_pc x, s.stored_unchanged x⟩,
    fun hout => raises_of_transfersThen (exec_storeRegs x s) h (by omega) (by omega)⟩

/-- Settles O30: inside memory the registers, I and the frame are those of `State.loaded`. -/
theorem registersAreLoaded : Obligations.RegistersAreLoaded := by
  refine ⟨fun _ x => decodeWord_encode (i := .loadRegs x) rfl, fun x s h => ?_⟩
  rw [← blockRegs_eq_filter]
  exact ⟨fun hfit => ⟨s.loaded x, exec_loadRegs_of_fits s x h hfit, fun k hk => (s.loaded_get x k).trans (if_pos hk),
      s.loaded_i x, s.loaded_pc x, s.loaded_unchanged x⟩,
    fun hout => raises_of_transfersThen (exec_loadRegs x s) h (by omega) (by omega)⟩

/-- Settles O31: the load reads, from the memory the store left, the byte that the store put at each address. -/
theorem storeThenLoadRestores : Obligations.StoreThenLoadRestores := by
  intro x s t u hs hfit hstore hconfig hmem hi hu
  rw [← blockRegs_eq_filter] at hs
  rw [exec_storeRegs_of_fits hs hfit] at hstore
  cases hstore
  obtain ⟨-, -, hkeeps⟩ := s.stored_keeps x
  refine ⟨u.loaded x, exec_loadRegs_of_fits u x hu (by rwa [hi]), fun k => ?_⟩
  rw [u.loaded_get, hi]
  split
  next hk =>
    have hfont : u.config.font = (s.stored x).config.font := by rw [hconfig, hkeeps]
    rw [State.byteAt_congr hfont hmem, s.byteAt_stored hk]
  next => rfl

end Sys2Proof.Machine
end

section
/-! PROOFS. The display: what CLS and DXYN leave on the screen, where DXYN faults, and their frames (spec 43_display.md
R170-R174). -/

namespace Sys2Proof.Machine

/-! ### The frame of the screen -/

theorem Unchanged.setScreen {f : Footprint} {s t : State} (h : Unchanged f s t) (hf : f.screen = true) (fb : FrameBuffer)
    (log : List FrameBuffer) : Unchanged f s { t with fb := fb, drawLog := log } :=
  { h with screen := fun h0 => by rw [hf] at h0; cases h0 }

/-- Settles O34: the cleared buffer is the zero vector, and the event carries it. -/
theorem clearTurnsEveryPixelOff : Obligations.ClearTurnsEveryPixelOff := by
  obtain ⟨hcls, -⟩ := looseDecodingChangesOnlyTheListedWords
  exact ⟨fun _ => decodeWord_encode (i := .cls) rfl, fun x => (hcls x).1,
    fun s => ⟨_, exec_cls s, fun _ _ => BitVec.getLsbD_zero, rfl, rfl,
      ((Unchanged.refl _ s).setScreen rfl _ _).advance⟩⟩

/-! ### The pixels of a sprite -/

theorem Pixel.offScreen_iff (p : Pixel) : p.offScreen = true ↔ OffScreen p.x p.y := by
  simp only [Pixel.offScreen, Bool.or_eq_true, decide_eq_true_iff]

/-- The sprite DXYN draws has its bit set at screen place (px, py) (R172). -/
abbrev State.DrawCovers (s : State) (x y : Reg) (n : BitVec 4) (px py : Nat) : Prop :=
  SpriteCovers s s.v[x].toNat s.v[y].toNat n.toNat px py

section
variable {s : State} {x y : Reg} {n : BitVec 4}

/-- The on pixels DXYN draws are the places its sprite covers (R172). -/
theorem State.exists_on_drawnPixels_iff {px py : Nat} :
    (∃ p ∈ s.drawnPixels x y n, p.on = true ∧ p.x = px ∧ p.y = py) ↔ s.DrawCovers x y n px py := by
  constructor
  · rintro ⟨p, hp, hon, rfl, rfl⟩
    obtain ⟨r, c, hr, hc, rfl⟩ := (s.mem_drawnPixels x y n p).1 hp
    exact ⟨r, c, hr, hc, hon, rfl, rfl⟩
  · rintro ⟨r, c, hr, hc, hon, rfl, rfl⟩
    exact ⟨_, (s.mem_drawnPixels x y n _).2 ⟨r, c, hr, hc, rfl⟩, hon, rfl, rfl⟩

/-- R174's check passes exactly when the sprite has no pixel it faults on. -/
theorem State.firstOffScreen_drawnPixels_eq_none_iff :
    firstOffScreen s.config.drawOobScope (s.drawnPixels x y n) = none ↔
      ∀ r c, r < n.toNat → c < 8 → ¬PixelFaults s s.v[x].toNat s.v[y].toNat r c := by
  rw [firstOffScreen_eq_none]
  constructor
  · rintro h r c hr hc ⟨hscope, hoff⟩
    have hon := h _ ((s.mem_drawnPixels x y n _).2 ⟨r, c, hr, hc, rfl⟩) hscope
    simp only at hon
    omega
  · intro h p hp hscope
    obtain ⟨r, c, hr, hc, rfl⟩ := (s.mem_drawnPixels x y n p).1 hp
    by_contra hoff
    exact h r c hr hc ⟨hscope, by simp only at hoff; omega⟩

/-- A sprite that fits has its set bits on the screen, under both scopes (R174). -/
theorem DrawFits.covers_onScreen (h : DrawFits s x y n.toNat) {px py : Nat} (hcov : s.DrawCovers x y n px py) :
    px ≤ 63 ∧ py ≤ 31 := by
  obtain ⟨r, c, hr, hc, hbit, rfl, rfl⟩ := hcov
  by_contra hoff
  exact h.on_screen r c hr hc ⟨.inr hbit, by omega⟩

theorem DrawFits.onPixelsOnScreen (h : DrawFits s x y n.toNat) : OnPixelsOnScreen (s.drawnPixels x y n) :=
  fun p hp hon => h.covers_onScreen (State.exists_on_drawnPixels_iff.1 ⟨p, hp, hon, rfl, rfl⟩)

/-! ### Where DXYN completes and where it faults -/

theorem exec_drw_of_fits (h : DrawFits s x y n.toNat) : exec (.drw x y n) s = .next (s.drawn x y n) := by
  obtain ⟨-, -, -, e⟩ | ⟨-, -, p, hp, -⟩ | ⟨-, hout, -⟩ | ⟨r, hu, -⟩ := exec_drw x y s n
  · exact e
  · rw [State.firstOffScreen_drawnPixels_eq_none_iff.2 h.on_screen] at hp
    cases hp
  · exact absurd h.in_memory hout
  · exact absurd hu (State.firstUnwritten_ne_some h.readable r)

theorem raises_drw_of_outside (h : s.Readable [x, y] true) (hn : n.toNat ≠ 0) (hout : 4096 < s.i.toNat + n.toNat) :
    Raises (.drw x y n) s (.memRange (max s.i.toNat 4096) s.pc) := by
  obtain ⟨-, hin, -⟩ | ⟨-, hin, -⟩ | ⟨-, -, e⟩ | ⟨r, hu, -⟩ := exec_drw x y s n
  · omega
  · omega
  · exact e
  · exact absurd hu (State.firstUnwritten_ne_some h r)

/-- The screen check comes after the memory check, and reports the pixel it finds (R171, R174). -/
theorem raises_drw_of_pixelFaults (h : s.Readable [x, y] true) (hin : n.toNat = 0 ∨ s.i.toNat + n.toNat ≤ 4096)
    (hfault : ∃ r c, r < n.toNat ∧ c < 8 ∧ PixelFaults s s.v[x].toNat s.v[y].toNat r c) :
    ∃ p, firstOffScreen s.config.drawOobScope (s.drawnPixels x y n) = some p ∧
      Raises (.drw x y n) s (.drawRange p.x p.y s.pc) := by
  obtain ⟨-, -, hnone, -⟩ | ⟨-, -, hp⟩ | ⟨-, hout, -⟩ | ⟨r, hu, -⟩ := exec_drw x y s n
  · obtain ⟨r, c, hr, hc, hbad⟩ := hfault
    exact absurd hbad (State.firstOffScreen_drawnPixels_eq_none_iff.1 hnone r c hr hc)
  · exact hp
  · exact absurd hin hout
  · exact absurd hu (State.firstUnwritten_ne_some h r)

/-- The pixel R174 reports is the one that comes before every other pixel off the screen. -/
theorem State.firstOffScreen_eq_of_first {p : Pixel} {r c : Nat}
    (hp : firstOffScreen s.config.drawOobScope (s.drawnPixels x y n) = some p) (hr : r < n.toNat) (hc : c < 8)
    (hoff : OffScreen (s.v[x].toNat + c) (s.v[y].toNat + r))
    (hfirst : ∀ r' c', r' < n.toNat → c' < 8 → OffScreen (s.v[x].toNat + c') (s.v[y].toNat + r') →
      r < r' ∨ (r = r' ∧ c ≤ c')) :
    p = ⟨s.v[x].toNat + c, s.v[y].toNat + r, spriteBit s r c⟩ := by
  obtain ⟨hmem, hpoff, hpfirst⟩ := firstOffScreen_first hp
  obtain ⟨r', c', hr', hc', rfl⟩ := (s.mem_drawnPixels x y n p).1 hmem
  have hle := hfirst r' c' hr' hc' ((Pixel.offScreen_iff _).1 hpoff)
  obtain heq | hlt :=
    hpfirst _ ((s.mem_drawnPixels x y n _).2 ⟨r, c, hr, hc, rfl⟩) ((Pixel.offScreen_iff _).2 hoff)
  · exact heq
  · simp only at hlt
    omega

/-! ### What DXYN leaves where it completes -/

/-- DXYN's frame: VF and the screen (R171). -/
theorem State.drawn_unchanged (s : State) (x y : Reg) (n : BitVec 4) :
    Unchanged { regs := [regF], screen := true } s (s.drawn x y n) :=
  (((Unchanged.refl _ s).setV (List.mem_singleton_self regF) _).setScreen rfl _ _).advance

/-- A set bit of the sprite flips the cell it covers (R171). -/
theorem DrawFits.drawn_cell_of_covers (h : DrawFits s x y n.toNat) {px py : Nat} (hcov : s.DrawCovers x y n px py) :
    (s.drawn x y n).fb.cell (cellIndex px py) = !s.fb.cell (cellIndex px py) := by
  obtain ⟨hx, hy⟩ := h.covers_onScreen hcov
  refine (blit_cell s.fb _ (s.drawnPixels_distinct x y n) h.onPixelsOnScreen hx hy).trans ?_
  rw [decide_eq_true (State.exists_on_drawnPixels_iff.2 hcov), Bool.xor_true]

theorem DrawFits.drawn_cell_of_not_covers (h : DrawFits s x y n.toNat) {px py : Nat} (hx : px ≤ 63) (hy : py ≤ 31)
    (hcov : ¬s.DrawCovers x y n px py) :
    (s.drawn x y n).fb.cell (cellIndex px py) = s.fb.cell (cellIndex px py) := by
  refine (blit_cell s.fb _ (s.drawnPixels_distinct x y n) h.onPixelsOnScreen hx hy).trans ?_
  rw [decide_eq_false (mt State.exists_on_drawnPixels_iff.1 hcov), Bool.xor_false]

/-- The blit reports a collision exactly when the sprite covers a cell that was on (R171). -/
theorem DrawFits.collision_iff (h : DrawFits s x y n.toNat) :
    (blit s.fb (s.drawnPixels x y n)).2 = true ↔
      ∃ px py, s.DrawCovers x y n px py ∧ s.fb.cell (cellIndex px py) = true := by
  rw [blit_collision s.fb _ (s.drawnPixels_distinct x y n) h.onPixelsOnScreen, decide_eq_true_iff]
  constructor
  · rintro ⟨p, hp, hon, hcell⟩
    exact ⟨p.x, p.y, State.exists_on_drawnPixels_iff.1 ⟨p, hp, hon, rfl, rfl⟩, hcell⟩
  · rintro ⟨px, py, hcov, hcell⟩
    obtain ⟨p, hp, hon, rfl, rfl⟩ := State.exists_on_drawnPixels_iff.2 hcov
    exact ⟨p, hp, hon, hcell⟩

theorem flagValue_eq_one_iff {c : Bool} : flagValue c = 1 ↔ c = true := by
  cases c <;> decide

theorem State.drawn_flag (s : State) (x y : Reg) (n : BitVec 4) :
    (s.drawn x y n).v[regF] = flagValue (blit s.fb (s.drawnPixels x y n)).2 :=
  State.setV_get_same ..

end

/-- Settles O35: a sprite that fits passes both checks, and the blit's cells and collision are those of the sprite's set
bits. -/
theorem drawFlipsTheSpritesPixels : Obligations.DrawFlipsTheSpritesPixels := by
  refine ⟨fun _ x y n => decodeWord_encode (i := .drw x y n) rfl, fun x y n s h => ?_⟩
  obtain ⟨hflag1, hflag0⟩ := flagValue_spec h.collision_iff
  rw [← s.drawn_flag] at hflag1 hflag0
  exact ⟨s.drawn x y n, exec_drw_of_fits h,
    fun _ _ hx hy => ⟨h.drawn_cell_of_covers, h.drawn_cell_of_not_covers hx hy⟩,
    hflag1, hflag0, rfl, rfl, s.drawn_unchanged x y n⟩

/-- Settles O36: the memory check comes first, and the screen check reports the first pixel off the screen. -/
theorem drawFaultsInOrder : Obligations.DrawFaultsInOrder := by
  refine fun x y n s h => ⟨raises_drw_of_outside h, fun hin hfault r c hr hc hoff hfirst => ?_⟩
  obtain ⟨p, hp, hraises⟩ := raises_drw_of_pixelFaults h hin hfault
  rwa [State.firstOffScreen_eq_of_first hp hr hc hoff hfirst] at hraises

/-! ### Drawing again -/

section
variable {s t : State} (h : Unchanged { regs := [regF], screen := true } s t)
include h

theorem spriteBit_of_unchanged (r c : Nat) : spriteBit t r c = spriteBit s r c := by
  rw [spriteBit, spriteBit, (h.index rfl).1, h.bytes _ id]

theorem reg_of_unchanged {x : Reg} (hx : x ≠ regF) : t.v[x] = s.v[x] ∧ t.unwrittenV[x] = s.unwrittenV[x] :=
  h.regs x (mt List.mem_singleton.1 hx)

theorem drawCovers_iff_of_unchanged {x y : Reg} (hx : x ≠ regF) (hy : y ≠ regF) (n : BitVec 4) (px py : Nat) :
    t.DrawCovers x y n px py ↔ s.DrawCovers x y n px py := by
  rw [State.DrawCovers, (reg_of_unchanged h hx).1, (reg_of_unchanged h hy).1]
  simp only [SpriteCovers, spriteBit_of_unchanged h]

theorem readable_of_unchanged {vs : List Reg} {usesI : Bool} (hvs : regF ∉ vs) (hs : s.Readable vs usesI) :
    t.Readable vs usesI := by
  obtain hzero | ⟨hv, hi⟩ := hs
  · exact .inl (by rw [h.config, hzero])
  · exact .inr ⟨fun r hr => (reg_of_unchanged h (ne_of_mem_of_not_mem hr hvs)).2.trans (hv r hr),
      fun hu => (h.index rfl).2.trans (hi hu)⟩

/-- A draw leaves what the next draw of the same sprite reads, where neither coordinate register is VF. -/
theorem DrawFits.of_unchanged {x y : Reg} {m : Nat} (hx : x ≠ regF) (hy : y ≠ regF) (hs : DrawFits s x y m) :
    DrawFits t x y m where
  readable := readable_of_unchanged h (by simp [hx.symm, hy.symm]) hs.readable
  in_memory := by
    rw [(h.index rfl).1]
    exact hs.in_memory
  on_screen r c hr hc := by
    rw [PixelFaults, h.config, spriteBit_of_unchanged h, (reg_of_unchanged h hx).1, (reg_of_unchanged h hy).1]
    exact hs.on_screen r c hr hc

end

/-- Settles O37: the second draw flips the same cells again, so each is as it was, and a covered cell is on before it
exactly when it was off before the first. -/
theorem drawingTwiceRestores : Obligations.DrawingTwiceRestores := by
  intro x y n s t hx hy hs hst
  obtain rfl : s.drawn x y n = t := by simpa [exec_drw_of_fits hs] using hst
  have hkeep := s.drawn_unchanged x y n
  have ht := hs.of_unchanged hkeep hx hy
  have hcov := drawCovers_iff_of_unchanged hkeep hx hy n
  refine ⟨_, exec_drw_of_fits ht, FrameBuffer.ext_cells fun px py hpx hpy => ?_, ?_⟩
  · by_cases h : s.DrawCovers x y n px py
    · rw [ht.drawn_cell_of_covers ((hcov px py).2 h), hs.drawn_cell_of_covers h, Bool.not_not]
    · rw [ht.drawn_cell_of_not_covers hpx hpy (mt (hcov px py).1 h), hs.drawn_cell_of_not_covers hpx hpy h]
  · rw [State.drawn_flag, flagValue_eq_one_iff, ht.collision_iff]
    refine exists₂_congr fun px py => ?_
    rw [hcov]
    refine and_congr_right fun h => ?_
    rw [hs.drawn_cell_of_covers h, Bool.not_eq_true', cellIndex]

end Sys2Proof.Machine
end

section
/-! PROOFS. The keyboard and the timers: what the key skips test, how FX0A waits, and what the timer instructions move (spec
44_keys_timers.md R190-R195). -/

namespace Sys2Proof.Machine

/-! ### The held core -/

theorem coreStep_of_heldKey {s : State} {x : Reg} (hm : s.coreMode = .heldKey x) : coreStep s = .refused .coreHeld := by
  simp only [coreStep, hm]

/-- Settles O11: the held core has no step of its own, and another agent keeps the core's fields and its mode, or is the
host handing the key over. -/
theorem heldCoreWaitsForAKey : Obligations.HeldCoreWaitsForAKey := by
  intro s x hm
  refine ⟨by simp only [enabled, hm], fun a t h => ?_⟩
  by_cases ha : a = .core
  · subst ha
    cases (coreStep_of_heldKey hm).symm.trans h
  · obtain ⟨hk, hmode, -⟩ := agentStep_keepsCore ha h
    refine ⟨⟨hk.v, hk.i, hk.pc, hk.stack, hk.depth, hk.mem, hk.fb⟩, ?_⟩
    obtain hkept | ⟨y, k, hy, rfl, hwake⟩ := hmode
    · exact .inl (hkept.trans hm)
    · cases hm.symm.trans hy
      exact .inr ⟨k, rfl, hwake⟩

/-! ### FX0A -/

theorem keyByte_toNat (k : Key) : (keyByte k).toNat = k.val := by
  rw [keyByte, BitVec.toNat_ofNat]
  omega

section
variable {s : State}

theorem exec_ldVxK_of_wakeKey (x : Reg) {y : Reg} {k : Key} (hm : s.coreMode = .wakeKey y k) :
    exec (.ldVxK x) s = .next (({ s with coreMode := .running } : State).setV x (keyByte k)).advance := by
  obtain ⟨_, _, hw, e⟩ | ⟨hw, -⟩ | ⟨hw, -⟩ := exec_ldVxK x s
  · cases hm.symm.trans hw
    exact e
  all_goals exact absurd hm (hw y k)

theorem exec_ldVxK_of_token (x : Reg) {k : Key} (hm : s.coreMode = .running) (ht : s.token = some k) :
    exec (.ldVxK x) s = .next (({ s with token := none } : State).setV x (keyByte k)).advance := by
  obtain ⟨_, _, hw, -⟩ | ⟨-, _, hk, e⟩ | ⟨-, hnone, -⟩ := exec_ldVxK x s
  · cases hm.symm.trans hw
  · cases ht.symm.trans hk
    exact e
  · cases ht.symm.trans hnone

theorem exec_ldVxK_of_noToken (x : Reg) (hm : s.coreMode = .running) (ht : s.token = none) :
    exec (.ldVxK x) s = .next { s with coreMode := .heldKey x } := by
  obtain ⟨_, _, hw, -⟩ | ⟨-, _, hk, -⟩ | ⟨-, -, e⟩ := exec_ldVxK x s
  · cases hm.symm.trans hw
  · cases ht.symm.trans hk
  · exact e

end

section
variable {f : Footprint} {s t : State}

theorem Unchanged.setCoreMode (h : Unchanged f s t) (hf : f.coreMode = true) (m : CoreMode) :
    Unchanged f s { t with coreMode := m } :=
  { h with coreMode := fun h0 => by rw [hf] at h0; cases h0 }

theorem Unchanged.setToken (h : Unchanged f s t) (hf : f.token = true) (k : Option Key) :
    Unchanged f s { t with token := k } :=
  { h with token := fun h0 => by rw [hf] at h0; cases h0 }

theorem Unchanged.setDelay (h : Unchanged f s t) (hf : f.delay = true) (b : Byte) : Unchanged f s (t.setDelay b) :=
  { h with delay := fun h0 => by rw [hf] at h0; cases h0 }

theorem Unchanged.setSound (h : Unchanged f s t) (hf : f.sound = true) (b : Byte) : Unchanged f s (t.setSound b) :=
  { h with sound := fun h0 => by rw [hf] at h0; cases h0 }

end

/-- Where FX0A completes, its register holds the key, whichever way the key came. -/
theorem State.setV_keyByte_toNat (s : State) (x : Reg) (k : Key) : ((s.setV x (keyByte k)).advance.v[x]).toNat = k.val := by
  rw [State.advance_v, State.setV_get_same, keyByte_toNat]

/-- Settles O40: a key handed over comes first, then the token, and with neither the mode is all that changes. -/
theorem keyWaitTakesAKeyOrHolds : Obligations.KeyWaitTakesAKeyOrHolds :=
  ⟨fun _ x => decodeWord_encode (i := .ldVxK x) rfl,
    fun x _ k s hm => ⟨_, exec_ldVxK_of_wakeKey x hm, State.setV_keyByte_toNat _ x k, rfl, rfl,
      (((Unchanged.refl _ s).setCoreMode rfl .running).setV (List.mem_singleton_self x) _).advance⟩,
    fun x k s hm ht => ⟨_, exec_ldVxK_of_token x hm ht, State.setV_keyByte_toNat _ x k, rfl, rfl,
      (((Unchanged.refl _ s).setToken rfl none).setV (List.mem_singleton_self x) _).advance⟩,
    fun x _ hm ht => exec_ldVxK_of_noToken x hm ht,
    fun _ _ _ hm => coreStep_of_wakeKey hm⟩

/-! ### The key skips -/

/-- A latch of NoKey matches no byte, and a key matches the byte of its number (R229). -/
theorem State.isKeyPressed_iff (s : State) (b : Byte) :
    s.isKeyPressed b = true ↔ ∃ k : Key, s.latch = some k ∧ b.toNat = k.val := by
  unfold State.isKeyPressed
  cases hl : s.latch with
  | none => simp
  | some k => simpa using (eq_comm : k.val = b.toNat ↔ b.toNat = k.val)

theorem State.not_isKeyPressed_iff (s : State) (b : Byte) :
    (!s.isKeyPressed b) = true ↔ ¬∃ k : Key, s.latch = some k ∧ b.toNat = k.val := by
  rw [← s.isKeyPressed_iff b, Bool.not_eq_true', Bool.not_eq_true]

/-- Settles O39: SKP tests that the latch holds the key of Vx, SKNP that it does not. -/
theorem keySkips : Obligations.KeySkips :=
  ⟨fun _ x => ⟨decodeWord_encode (i := .skp x) rfl, decodeWord_encode (i := .sknp x) rfl⟩,
    fun x s h => ⟨skips_of_readsThen (s.isKeyPressed_iff _) (exec_skp x s) h,
      skips_of_readsThen (s.not_isKeyPressed_iff _) (exec_sknp x s) h⟩⟩

/-! ### The timer instructions -/

/-- Settles O41: FX07 loads one register, and the other two set one counter each from the register they read. -/
theorem timerInstructions : Obligations.TimerInstructions :=
  ⟨fun _ x => ⟨decodeWord_encode (i := .ldVxDT x) rfl, decodeWord_encode (i := .ldDTVx x) rfl,
      decodeWord_encode (i := .ldSTVx x) rfl⟩,
    fun x s => ⟨loads_of_completes (exec_ldVxDT x s), fun h =>
      ⟨⟨_, exec_of_readsThen (exec_ldDTVx x s) h, rfl, rfl, ((Unchanged.refl _ s).setDelay rfl _).advance⟩,
        ⟨_, exec_of_readsThen (exec_ldSTVx x s) h, rfl, rfl, ((Unchanged.refl _ s).setSound rfl _).advance⟩⟩⟩⟩

end Sys2Proof.Machine
end

section
/-! PROOFS. The agents beside the core: what each step answers, and that it takes place exactly when its rule enables it
(spec 60_exceptions.md R225-R231, R234, R235). -/

namespace Sys2Proof.Machine

/-! ### What each step answers -/

section
variable {s : State} {b : Byte}

/-- The timer observes cancellation at its tick (R225, R234). -/
theorem timerTick_of_cancelled (ht : s.timerStopped = false) (hp : s.pending = none) (hc : s.cancelled = true) :
    timerTick s = .next s.stopTimer := by
  simp [timerTick, ht, hp, hc]

theorem timerTick_of_not_cancelled (ht : s.timerStopped = false) (hp : s.pending = none) (hc : s.cancelled = false) :
    timerTick s = .next { s with dt := tickDown s.dt, st := tickDown s.st, pending := some (tickDown s.st) } := by
  simp [timerTick, ht, hp, hc]

/-- The timer observes cancellation at its hand-off (R226, R234). -/
theorem handOff_of_cancelled (hp : s.pending = some b) (hc : s.cancelled = true) : handOff s = .next s.stopTimer := by
  simp [handOff, hp, hc]

theorem handOff_of_room (hp : s.pending = some b) (hc : s.cancelled = false)
    (hroom : s.chan.length < s.config.soundChannelCapacity) :
    handOff s = .next { s with chan := s.chan ++ [b], pending := none, sampleLog := s.sampleLog ++ [b] } := by
  simp [handOff, hp, hc, hroom]

/-- The oldest sample of the channel goes first, whatever is pending (R227). -/
theorem sinkReceive_of_sample {rest : List Byte} (h : s.chan = b :: rest) :
    sinkReceive s = .next { s with chan := rest } := by
  simp [sinkReceive, h]

/-- In the rendezvous of capacity 0 the timer's half observes cancellation (R226; log 14). -/
theorem sinkReceive_of_cancelled (hcap : s.config.soundChannelCapacity = 0) (hch : s.chan = [])
    (hp : s.pending = some b) (hc : s.cancelled = true) : sinkReceive s = .next s.stopTimer := by
  simp [sinkReceive, hcap, hch, hp, hc]

theorem sinkReceive_of_rendezvous (hcap : s.config.soundChannelCapacity = 0) (hch : s.chan = [])
    (hp : s.pending = some b) (hc : s.cancelled = false) :
    sinkReceive s = .next { s with pending := none, sampleLog := s.sampleLog ++ [b] } := by
  simp [sinkReceive, hcap, hch, hp, hc]

theorem keyPressed_of_held {k : Key} {x : Reg} (hc : s.cancelled = false) (hm : s.coreMode = .heldKey x) :
    keyPressed k.val s = .next { s with latch := some k, coreMode := .wakeKey x k } := by
  simp [keyPressed, hc, hm]

theorem keyPressed_of_not_held {k : Key} (hc : s.cancelled = false) (hm : ∀ x, s.coreMode ≠ .heldKey x) :
    keyPressed k.val s = .next { s with latch := some k, token := some k } := by
  cases hs : s.coreMode with
  | heldKey x => exact absurd hs (hm x)
  | _ => simp [keyPressed, hc, hs]

theorem clearKeys_of_not_cancelled (hc : s.cancelled = false) :
    clearKeys s = .next { s with latch := none, token := none } := by
  simp [clearKeys, hc]

theorem cancel_of_not_cancelled (hc : s.cancelled = false) : cancel s = .next { s with cancelled := true } := by
  simp [cancel, hc]

end

/-! ### When each step is enabled -/

section
variable {s : State}

theorem enabled_timerTick_iff : enabled .timerTick s = true ↔ s.timerStopped = false ∧ s.pending = none := by
  simp [enabled]

theorem enabled_handOff_iff : enabled .handOff s = true ↔
    s.pending ≠ none ∧ (s.cancelled = true ∨ s.chan.length < s.config.soundChannelCapacity) := by
  simp [enabled, Option.isSome_iff_ne_none]

theorem enabled_sinkReceive_iff : enabled .sinkReceive s = true ↔
    s.chan ≠ [] ∨ (s.config.soundChannelCapacity = 0 ∧ s.pending ≠ none) := by
  simp [enabled, Option.isSome_iff_ne_none]

theorem enabled_keyPressed_iff {k : Nat} : enabled (.keyPressed k) s = true ↔ s.cancelled = false ∧ k < 16 := by
  simp [enabled]

theorem enabled_clearKeys_iff : enabled .clearKeys s = true ↔ s.cancelled = false := by
  simp [enabled]

theorem enabled_cancel_iff : enabled .cancel s = true ↔ s.cancelled = false := by
  simp [enabled]

/-! ### An enabled step takes place -/

theorem timerTick_answersNext_of_enabled (h : enabled .timerTick s = true) : ∃ t, timerTick s = .next t := by
  obtain ⟨ht, hp⟩ := enabled_timerTick_iff.1 h
  cases hc : s.cancelled with
  | true => exact ⟨_, timerTick_of_cancelled ht hp hc⟩
  | false => exact ⟨_, timerTick_of_not_cancelled ht hp hc⟩

theorem handOff_answersNext_of_enabled (h : enabled .handOff s = true) : ∃ t, handOff s = .next t := by
  obtain ⟨hp, hroom⟩ := enabled_handOff_iff.1 h
  obtain ⟨b, hb⟩ := Option.ne_none_iff_exists'.1 hp
  cases hc : s.cancelled with
  | true => exact ⟨_, handOff_of_cancelled hb hc⟩
  | false => exact ⟨_, handOff_of_room hb hc (hroom.resolve_left (by simp [hc]))⟩

theorem sinkReceive_answersNext_of_enabled (h : enabled .sinkReceive s = true) : ∃ t, sinkReceive s = .next t := by
  cases hch : s.chan with
  | cons b rest => exact ⟨_, sinkReceive_of_sample hch⟩
  | nil =>
    obtain ⟨hcap, hp⟩ := (enabled_sinkReceive_iff.1 h).resolve_left (not_not_intro hch)
    obtain ⟨b, hb⟩ := Option.ne_none_iff_exists'.1 hp
    cases hc : s.cancelled with
    | true => exact ⟨_, sinkReceive_of_cancelled hcap hch hb hc⟩
    | false => exact ⟨_, sinkReceive_of_rendezvous hcap hch hb hc⟩

theorem keyPressed_answersNext_of_enabled {k : Nat} (h : enabled (.keyPressed k) s = true) :
    ∃ t, keyPressed k s = .next t := by
  obtain ⟨hc, hk⟩ := enabled_keyPressed_iff.1 h
  by_cases hm : ∃ x, s.coreMode = .heldKey x
  · obtain ⟨x, hm⟩ := hm
    exact ⟨_, keyPressed_of_held (k := ⟨k, hk⟩) hc hm⟩
  · exact ⟨_, keyPressed_of_not_held (k := ⟨k, hk⟩) hc (not_exists.1 hm)⟩

theorem agentStep_answersNext_of_enabled {a : AgentStep} (h : enabled a s = true) : ∃ t, agentStep a s = .next t := by
  cases a with
  | core => exact coreStep_answersNext_of_enabled h
  | timerTick => exact timerTick_answersNext_of_enabled h
  | handOff => exact handOff_answersNext_of_enabled h
  | sinkReceive => exact sinkReceive_answersNext_of_enabled h
  | keyPressed k => exact keyPressed_answersNext_of_enabled h
  | clearKeys => exact ⟨_, clearKeys_of_not_cancelled (enabled_clearKeys_iff.1 h)⟩
  | cancel => exact ⟨_, cancel_of_not_cancelled (enabled_cancel_iff.1 h)⟩

/-! ### A step that takes place was enabled -/

theorem enabled_core_of_coreStep {t : State} (h : coreStep s = .next t) : enabled .core s = true := by
  rw [enabled_core_iff]
  obtain ⟨hm, -⟩ | ⟨_, hm, -⟩ | ⟨_, hf, -⟩ | ⟨x, k, hm, -⟩ := coreStep_cases h
  · exact .inl hm
  · exact .inl hm
  · exact .inl hf.running
  · exact .inr ⟨x, k, hm⟩

theorem enabled_of_agentStep {a : AgentStep} {t : State} (h : agentStep a s = .next t) : enabled a s = true := by
  cases a with
  | core => exact enabled_core_of_coreStep h
  | timerTick =>
    obtain ⟨ht, hp, -⟩ := timerTick_cases h
    exact enabled_timerTick_iff.2 ⟨ht, hp⟩
  | handOff =>
    obtain ⟨b, hp, ⟨hc, -⟩ | ⟨-, hroom, -⟩⟩ := handOff_cases h
    · exact enabled_handOff_iff.2 ⟨by simp [hp], .inl hc⟩
    · exact enabled_handOff_iff.2 ⟨by simp [hp], .inr hroom⟩
  | sinkReceive =>
    obtain ⟨c, rest, hch, -⟩ | ⟨b, -, hp, hcap, -⟩ := sinkReceive_cases h
    · exact enabled_sinkReceive_iff.2 (.inl (by simp [hch]))
    · exact enabled_sinkReceive_iff.2 (.inr ⟨hcap, by simp [hp]⟩)
  | keyPressed k =>
    obtain ⟨hc, key, rfl, -⟩ := keyPressed_cases h
    exact enabled_keyPressed_iff.2 ⟨hc, key.isLt⟩
  | clearKeys => exact enabled_clearKeys_iff.2 (clearKeys_cases h).1
  | cancel => exact enabled_cancel_iff.2 (cancel_cases h).1

end

/-- Settles O59: each rule's condition is what its agent's step tests. -/
theorem agentsStepExactlyWhenEnabled : Obligations.AgentsStepExactlyWhenEnabled :=
  fun _ _ => ⟨agentStep_answersNext_of_enabled, fun ⟨_, h⟩ => enabled_of_agentStep h⟩

/-! ### The effect of each step -/

theorem tickDown_toNat (b : Byte) : (tickDown b).toNat = b.toNat - 1 := by
  unfold tickDown
  split <;> bv_omega

/-- Settles O55: the tick counts down or stops, and its rule asks for a timer that runs with nothing pending. -/
theorem timerTickCountsDown : Obligations.TimerTickCountsDown := by
  intro s
  refine ⟨fun ht hp hc => ⟨_, timerTick_of_not_cancelled ht hp hc, tickDown_toNat s.dt, tickDown_toNat s.st, rfl, ?_⟩,
    timerTick_of_cancelled, fun hno t h => ?_⟩
  · rw [← hp]
  · obtain ⟨ht, hp⟩ := enabled_timerTick_iff.1 (enabled_of_agentStep h)
    obtain hstop | hsome := hno
    · cases ht.symm.trans hstop
    · exact hsome hp

/-- Settles O56: what the hand-off and the receive answer, and which states enable them. -/
theorem samplesGoThroughTheChannel : Obligations.SamplesGoThroughTheChannel := by
  refine ⟨fun s b hp => ⟨handOff_of_room hp, fun hc hfull t h => ?_, handOff_of_cancelled hp, fun hcap hch =>
    ⟨sinkReceive_of_rendezvous hcap hch hp, sinkReceive_of_cancelled hcap hch hp⟩⟩,
    fun s c rest hch => sinkReceive_of_sample hch, fun s hp t h => ?_, fun s hch hno t h => ?_⟩
  · obtain ⟨-, hcancel | hroom⟩ := enabled_handOff_iff.1 (enabled_of_agentStep h)
    · cases hc.symm.trans hcancel
    · exact absurd hroom (Nat.not_lt.2 hfull)
  · exact (enabled_handOff_iff.1 (enabled_of_agentStep h)).1 hp
  · obtain hne | ⟨hcap, hp⟩ := enabled_sinkReceive_iff.1 (enabled_of_agentStep h)
    · exact hne hch
    · exact hno.elim hp (fun hne => hne hcap)

/-- Settles O57: what the host's moves answer, and that it has none after cancellation, nor a press of a key above 15. -/
theorem keyEvents : Obligations.KeyEvents := by
  refine ⟨fun s k x => keyPressed_of_held, fun s k => keyPressed_of_not_held, fun s => clearKeys_of_not_cancelled,
    fun s k hk t h => ?_, fun s k hc => ⟨fun t h => ?_, fun t h => ?_⟩⟩
  · have hlt := (enabled_keyPressed_iff.1 (enabled_of_agentStep h)).2
    omega
  · cases hc.symm.trans (enabled_keyPressed_iff.1 (enabled_of_agentStep h)).1
  · cases hc.symm.trans (enabled_clearKeys_iff.1 (enabled_of_agentStep h))

end Sys2Proof.Machine
end

section
/-! PROOFS. The core's step and its ends: the fetched instruction, a fault, cancellation (spec 60_exceptions.md R211, R212,
R222, R234). -/

namespace Sys2Proof.Machine

/-! ### The step runs what it fetched -/

/-- What the decoder reads from the two bytes at the PC is what the core fetches (R54, R222). -/
theorem fetches_of_decode {s : State} {i : Instr} (hm : s.coreMode = .running) (hc : s.cancelled = false)
    (hpc : s.pc.toNat ≤ 4094)
    (hd : decode s.config.decodeStrict [s.byteAt s.pc.toNat, s.byteAt (s.pc.toNat + 1)] = .ok (i, [])) : Fetches s i := by
  simp only [decode, Except.ok.injEq, Prod.mk.injEq, and_true] at hd
  exact ⟨hm, hc, hpc, hd⟩

/-- The schedule is no part of what the core fetches. -/
theorem Fetches.withSchedule {s : State} {i : Instr} (h : Fetches s i) (l : List AgentStep) :
    Fetches { s with schedule := l } i :=
  ⟨h.running, h.not_cancelled, h.in_memory, h.word⟩

theorem step_of_empty_schedule {s : State} (h : s.schedule = []) : step s = coreStep s := by
  simp only [step, State.takeTurn, h, agentStep]

theorem step_of_scheduled {s : State} {a : AgentStep} {rest : List AgentStep} (h : s.schedule = a :: rest) :
    step s = agentStep a { s with schedule := rest } := by
  simp only [step, State.takeTurn, h]

/-- Settles O6: the step is the front agent's, the core's when none is scheduled, and the core runs what it fetched. -/
theorem stepRunsTheDecodedInstruction : Obligations.StepRunsTheDecodedInstruction := by
  refine ⟨fun s i hm hc hpc hd => ?_, fun s a rest => step_of_scheduled⟩
  have hf := fetches_of_decode hm hc hpc hd
  refine ⟨fun hs => ?_, fun rest hs => ?_⟩
  · rw [step_of_empty_schedule hs, coreStep_of_fetches hf]
  · rw [step_of_scheduled hs]
    exact coreStep_of_fetches (hf.withSchedule rest)

/-! ### Faults -/

section
variable {s t : State} {f : Fault}

/-- An instruction that leads from a core without a fault to a fault raised it on the start state (R211). -/
theorem exec_faulted {i : Instr} (h : exec i s = .next t) (hs : s.coreMode ≠ .faulted f) (hm : t.coreMode = .faulted f) :
    t = s.raise f ∧ faultPc f = s.pc := by
  obtain ⟨g, hpc, rfl⟩ | ⟨-, hkept | hrun | ⟨x, -, hheld⟩⟩ := exec_cases h
  · cases hm
    exact ⟨rfl, hpc⟩
  · exact absurd (hkept.symm.trans hm) hs
  · cases hrun.symm.trans hm
  · cases hheld.symm.trans hm

theorem coreStep_faulted (h : coreStep s = .next t) (hm : t.coreMode = .faulted f) :
    t = s.raise f ∧ faultPc f = s.pc := by
  obtain ⟨-, -, rfl⟩ | ⟨g, -, -, -, hpc, rfl⟩ | ⟨i, hf, hi⟩ | ⟨x, k, hw, hi⟩ := coreStep_cases h
  · cases hm
  · cases hm
    exact ⟨rfl, hpc⟩
  · exact exec_faulted hi (by simp [hf.running]) hm
  · exact exec_faulted hi (by simp [hw]) hm

theorem coreStep_of_faulted (hm : s.coreMode = .faulted f) : coreStep s = .fault f := by
  simp only [coreStep, hm]

/-- A core that is not held keeps its mode through every step of another agent. -/
theorem agentStep_coreMode_of_not_held {a : AgentStep} (ha : a ≠ .core) (hs : ∀ x, s.coreMode ≠ .heldKey x)
    (h : agentStep a s = .next t) : t.coreMode = s.coreMode := by
  obtain ⟨-, hkept | ⟨x, -, hx, -⟩, -⟩ := agentStep_keepsCore ha h
  · exact hkept
  · exact absurd hx (hs x)

/-- The rules of the agents beside the core do not read the core's mode (R212). -/
theorem enabled_withMode {a : AgentStep} (ha : a ≠ .core) (s : State) (m : CoreMode) :
    enabled a { s with coreMode := m } = enabled a s := by
  cases a with
  | core => exact absurd rfl ha
  | _ => rfl

end

/-- Settles O9: a fault, of the fetch or of the instruction, is raised on the state the step started in. -/
theorem faultChangesOnlyTheMode : Obligations.FaultChangesOnlyTheMode :=
  fun _ _ _ h hm => coreStep_faulted h hm

/-- Settles O10: the core answers its fault, and the mode of a core that is not held neither changes nor matters in the
other agents' steps. -/
theorem faultIsTerminal : Obligations.FaultIsTerminal := by
  intro s f hm
  refine ⟨coreStep_of_faulted hm, fun a t h => ?_, fun a ha => (enabled_withMode ha s .running).symm⟩
  by_cases ha : a = .core
  · subst ha
    cases (coreStep_of_faulted hm).symm.trans h
  · exact (agentStep_coreMode_of_not_held ha (by simp [hm]) h).trans hm

/-! ### Cancellation -/

section
variable {s t : State}

/-- Whatever it does, a core step leaves the other agents' fields. -/
theorem coreStep_keepsOthers (h : coreStep s = .next t) : KeepsOthers s t := by
  obtain ⟨-, -, rfl⟩ | ⟨f, -, -, -, -, rfl⟩ | ⟨i, -, hi⟩ | ⟨x, k, -, hi⟩ := coreStep_cases h
  · constructor <;> rfl
  · constructor <;> rfl
  · exact exec_keepsOthers hi
  · exact exec_keepsOthers hi

/-- Only the canceller writes `cancelled`, and it sets it (R34, R234). -/
theorem agentStep_cancelled {a : AgentStep} (h : agentStep a s = .next t) :
    t.cancelled = s.cancelled ∨ (a = .cancel ∧ t.cancelled = true) := by
  cases a with
  | core => exact .inl (coreStep_keepsOthers h).cancelled
  | timerTick =>
    obtain ⟨-, -, ⟨-, rfl⟩ | ⟨-, rfl⟩⟩ := timerTick_cases h
    all_goals exact .inl rfl
  | handOff =>
    obtain ⟨-, -, ⟨-, rfl⟩ | ⟨-, -, rfl⟩⟩ := handOff_cases h
    all_goals exact .inl rfl
  | sinkReceive =>
    obtain ⟨-, -, -, rfl⟩ | ⟨-, -, -, -, ⟨-, rfl⟩ | ⟨-, rfl⟩⟩ := sinkReceive_cases h
    all_goals exact .inl rfl
  | keyPressed k =>
    obtain ⟨-, -, -, ⟨-, -, rfl⟩ | ⟨-, rfl⟩⟩ := keyPressed_cases h
    all_goals exact .inl rfl
  | clearKeys =>
    obtain ⟨-, rfl⟩ := clearKeys_cases h
    exact .inl rfl
  | cancel =>
    obtain ⟨-, rfl⟩ := cancel_cases h
    exact .inr ⟨rfl, rfl⟩

theorem agentStep_cancelled_of_cancelled {a : AgentStep} (h : agentStep a s = .next t) (hc : s.cancelled = true) :
    t.cancelled = true := by
  obtain hkept | ⟨-, hset⟩ := agentStep_cancelled h
  · exact hkept.trans hc
  · exact hset

theorem coreStep_of_running_cancelled (hm : s.coreMode = .running) (hc : s.cancelled = true) :
    coreStep s = .next { s with coreMode := .stopped } := by
  simp [coreStep, hm, hc]

/-- After cancellation no key comes, so a held core stays held (R232, R235). -/
theorem agentStep_heldKey_of_cancelled {a : AgentStep} {x : Reg} (hc : s.cancelled = true) (hm : s.coreMode = .heldKey x)
    (h : agentStep a s = .next t) : t.coreMode = .heldKey x := by
  obtain hheld | ⟨k, rfl, -⟩ := ((heldCoreWaitsForAKey s x hm).2 a t h).2
  · exact hheld
  · cases hc.symm.trans (enabled_keyPressed_iff.1 (enabled_of_agentStep h)).1

/-- A timer that is not stopped observes cancellation at its next step, the tick or, with a sample pending, the hand-off. -/
theorem timer_stops_of_cancelled (hc : s.cancelled = true) (ht : s.timerStopped = false) :
    ∃ a, (a = .timerTick ∨ a = .handOff) ∧ agentStep a s = .next s.stopTimer := by
  cases hp : s.pending with
  | none => exact ⟨.timerTick, .inl rfl, timerTick_of_cancelled ht hp hc⟩
  | some b => exact ⟨.handOff, .inr rfl, handOff_of_cancelled hp hc⟩

end

/-- Settles O58: no agent clears `cancelled`, and each loop's next step observes it. -/
theorem cancellationStopsTheLoops : Obligations.CancellationStopsTheLoops :=
  ⟨fun _ => cancel_of_not_cancelled, fun _ _ _ => agentStep_cancelled_of_cancelled,
    fun _ hc hm => coreStep_of_running_cancelled hm hc,
    fun _ x k _ hm => ⟨_, coreStep_eq_of_wakeKey hm, State.setV_keyByte_toNat _ x k, rfl⟩,
    fun _ _ _ _ => agentStep_heldKey_of_cancelled, fun _ => timer_stops_of_cancelled⟩

end Sys2Proof.Machine
end

section
/-! PROOFS. The timer over a run: DT after some ticks, and a fair run that keeps ticking (spec 60_exceptions.md R225-R227,
R237). -/

namespace Sys2Proof.Machine

/-! ### DT over a list of agent steps -/

section
variable {a : AgentStep} {l : List AgentStep} {s t : State}

theorem runAgents_cons (h : runAgents (a :: l) s = .next t) :
    ∃ u, agentStep a s = .next u ∧ runAgents l u = .next t := by
  cases hu : agentStep a s with
  | next u => exact ⟨u, rfl, by simpa only [runAgents, hu] using h⟩
  | fault f => simp only [runAgents, hu, reduceCtorEq] at h
  | refused r => simp only [runAgents, hu, reduceCtorEq] at h

theorem runAgents_cancelled (h : runAgents l s = .next t) (hc : s.cancelled = true) : t.cancelled = true := by
  induction l generalizing s with
  | nil =>
    cases h
    exact hc
  | cons a rest ih =>
    obtain ⟨u, hu, hrest⟩ := runAgents_cons h
    exact ih hrest (agentStep_cancelled_of_cancelled hu hc)

/-- A core step that does not run FX15 leaves DT (R29). -/
theorem coreStep_dt (hset : ∀ x, ¬Fetches s (.ldDTVx x)) (h : coreStep s = .next t) : t.dt = s.dt := by
  obtain hw | ⟨i, hf, he⟩ := coreStep_effect h
  · exact hw.dt
  · obtain hdt | ⟨x, rfl⟩ := he.delay
    · exact hdt
    · exact absurd hf (hset x)

/-- Before cancellation a step that does not run FX15 takes DT down by one if it is a tick, and else leaves it (R225). -/
theorem agentStep_dt (hc : s.cancelled = false) (hset : a = .core → ∀ x, ¬Fetches s (.ldDTVx x))
    (h : agentStep a s = .next t) : t.dt.toNat = s.dt.toNat - [a].count .timerTick := by
  by_cases hcore : a = .core
  · subst hcore
    rw [coreStep_dt (hset rfl) h]
    rfl
  by_cases htick : a = .timerTick
  · subst htick
    obtain ⟨-, -, ⟨hc', -⟩ | ⟨-, rfl⟩⟩ := timerTick_cases h
    · cases hc.symm.trans hc'
    · exact tickDown_toNat s.dt
  · obtain ⟨-, -, ⟨hdt, -⟩ | ⟨htick', -⟩⟩ := agentStep_keepsCore hcore h
    · rw [hdt, List.count_singleton, if_neg (by simpa using htick), Nat.sub_zero]
    · exact absurd htick' htick

end

/-- Settles O44, by induction on the list of steps: each tick takes one off, and no step after a cancellation could end in
a state that is not cancelled. -/
theorem delayAfterTicks : Obligations.DelayAfterTicks := by
  intro l
  induction l with
  | nil =>
    intro s t h _ _
    cases h
    rfl
  | cons a rest ih =>
    intro s t h hset hc
    obtain ⟨u, hu, hrest⟩ := runAgents_cons h
    have hcs : s.cancelled = false := by
      by_contra hs
      have ht := runAgents_cancelled h (by simpa using hs)
      cases hc.symm.trans ht
    calc t.dt.toNat
      _ = u.dt.toNat - rest.count .timerTick := ih u t hrest (hset.2 u hu) hc
      _ = s.dt.toNat - [a].count .timerTick - rest.count .timerTick := by rw [agentStep_dt hcs hset.1 hu]
      _ = s.dt.toNat - (a :: rest).count .timerTick := by
        rw [Nat.sub_sub, ← List.count_append, List.singleton_append]

/-! ### The sound path before cancellation -/

/-- What a step of agent `a` does to the pending sample and the channel before cancellation (R225-R227). -/
inductive SoundPathStep (s t : State) (a : AgentStep) : Prop
  | keeps : a ≠ .handOff → a ≠ .sinkReceive → (a = .timerTick ∨ t.pending = s.pending) → t.chan = s.chan →
      SoundPathStep s t a
  | handsOver : t.pending = none → SoundPathStep s t a
  | receives (c : Byte) : a ≠ .handOff → t.pending = s.pending → s.chan = c :: t.chan → SoundPathStep s t a

section
variable {a : AgentStep} {s t : State}

/-- Before cancellation a step acts on the sound path by its rule, and none stops the timer. -/
theorem agentStep_soundPath (hc : s.cancelled = false) (h : agentStep a s = .next t) :
    SoundPathStep s t a ∧ t.timerStopped = s.timerStopped := by
  cases a with
  | core =>
    have hk := coreStep_keepsOthers h
    exact ⟨.keeps nofun nofun (.inr hk.pending) hk.chan, hk.timerStopped⟩
  | timerTick =>
    obtain ⟨-, -, ⟨hc', -⟩ | ⟨-, rfl⟩⟩ := timerTick_cases h
    · cases hc.symm.trans hc'
    · exact ⟨.keeps nofun nofun (.inl rfl) rfl, rfl⟩
  | handOff =>
    obtain ⟨b, -, ⟨hc', -⟩ | ⟨-, -, rfl⟩⟩ := handOff_cases h
    · cases hc.symm.trans hc'
    · exact ⟨.handsOver rfl, rfl⟩
  | sinkReceive =>
    obtain ⟨c, rest, hch, rfl⟩ | ⟨b, -, -, -, ⟨hc', -⟩ | ⟨-, rfl⟩⟩ := sinkReceive_cases h
    · exact ⟨.receives c nofun rfl hch, rfl⟩
    · cases hc.symm.trans hc'
    · exact ⟨.handsOver rfl, rfl⟩
  | keyPressed k =>
    obtain ⟨-, -, -, ⟨-, -, rfl⟩ | ⟨-, rfl⟩⟩ := keyPressed_cases h
    all_goals exact ⟨.keeps nofun nofun (.inr rfl) rfl, rfl⟩
  | clearKeys =>
    obtain ⟨-, rfl⟩ := clearKeys_cases h
    exact ⟨.keeps nofun nofun (.inr rfl) rfl, rfl⟩
  | cancel =>
    obtain ⟨-, rfl⟩ := cancel_cases h
    exact ⟨.keeps nofun nofun (.inr rfl) rfl, rfl⟩

/-- Only a tick makes a sample pending (R225). -/
theorem SoundPathStep.pending_none (h : SoundPathStep s t a) (ha : a ≠ .timerTick) (hp : s.pending = none) :
    t.pending = none := by
  cases h with
  | keeps _ _ hkept => exact (hkept.resolve_left ha).trans hp
  | handsOver hnone => exact hnone
  | receives _ _ hkept => exact hkept.trans hp

/-- While a sample stays pending no step fills the channel. -/
theorem SoundPathStep.length_le (h : SoundPathStep s t a) (hp : t.pending ≠ none) : t.chan.length ≤ s.chan.length := by
  cases h with
  | keeps _ _ _ hch => rw [hch]
  | handsOver hnone => exact absurd hnone hp
  | receives c _ _ hch => simp [hch]

/-- A receive that leaves the sample pending takes one from the channel (R227). -/
theorem SoundPathStep.length_lt_of_sinkReceive (h : SoundPathStep s t .sinkReceive) (hp : t.pending ≠ none) :
    t.chan.length < s.chan.length := by
  cases h with
  | keeps _ hne => exact absurd rfl hne
  | handsOver hnone => exact absurd hnone hp
  | receives c _ _ hch => simp [hch]

theorem SoundPathStep.pending_none_of_handOff (h : SoundPathStep s t .handOff) : t.pending = none := by
  cases h with
  | keeps hne => exact absurd rfl hne
  | handsOver hnone => exact hnone
  | receives _ hne => exact absurd rfl hne

end

/-! ### Fair runs -/

/-- The run from its state `n` on. -/
def InfiniteRun.drop (run : InfiniteRun) (n : Nat) : InfiniteRun where
  states m := run.states (n + m)
  moves m := run.moves (n + m)
  valid m := run.valid (n + m)

theorem InfiniteRun.WeaklyFair.drop {run : InfiniteRun} (h : run.WeaklyFair) (n : Nat) : (run.drop n).WeaklyFair := by
  intro a ha m hen
  have henabled : ∀ k, n + m ≤ k → enabled a (run.states k) = true := fun k hk => by
    obtain ⟨d, rfl⟩ := Nat.exists_eq_add_of_le (le_trans (Nat.le_add_right n m) hk)
    exact hen d (by omega)
  obtain ⟨k, hk, hmove⟩ := h a ha (n + m) henabled
  obtain ⟨d, rfl⟩ := Nat.exists_eq_add_of_le (le_trans (Nat.le_add_right n m) hk)
  exact ⟨d, by omega, hmove⟩

section
variable {run : InfiniteRun}

theorem InfiniteRun.config_eq (run : InfiniteRun) (n : Nat) : (run.states n).config = (run.states 0).config := by
  induction n with
  | zero => rfl
  | succ n ih => exact (agentStep_config (run.valid n)).trans ih

variable (hc : ∀ n, (run.states n).cancelled = false)
include hc

theorem InfiniteRun.soundPath (n : Nat) : SoundPathStep (run.states n) (run.states (n + 1)) (run.moves n) := by
  obtain ⟨hstep, -⟩ := agentStep_soundPath (hc n) (run.valid n)
  exact hstep

theorem InfiniteRun.timerStopped_eq_false (ht : (run.states 0).timerStopped = false) (n : Nat) :
    (run.states n).timerStopped = false := by
  induction n with
  | zero => exact ht
  | succ n ih =>
    obtain ⟨-, hkept⟩ := agentStep_soundPath (hc n) (run.valid n)
    exact hkept.trans ih

/-- While a sample stays pending forever the channel only empties, so in the end its length stands still. -/
theorem InfiniteRun.length_stable (hp : ∀ n, (run.states n).pending ≠ none) :
    ∃ n, ∀ m, n ≤ m → (run.states n).chan.length = (run.states m).chan.length :=
  WellFoundedLT.antitone_chain_condition (f := fun n => (run.states n).chan.length)
    (antitone_nat_of_succ_le fun n => (run.soundPath hc n).length_le (hp (n + 1)))

/-- A fair sink receives as long as it can, and each receive shortens the channel: once its length stands still, the sink has
nothing to receive, so the channel is empty and, with a sample pending, its capacity is not 0 (R226, R227). -/
theorem InfiniteRun.WeaklyFair.channel_drains (hfair : run.WeaklyFair) (hp : ∀ n, (run.states n).pending ≠ none) {n : Nat}
    (hn : ∀ m, n ≤ m → (run.states n).chan.length = (run.states m).chan.length) :
    ∃ m, n ≤ m ∧ (run.states m).chan = [] ∧ (run.states m).config.soundChannelCapacity ≠ 0 := by
  by_contra hno
  have hen : ∀ m, n ≤ m → enabled .sinkReceive (run.states m) = true := fun m hm => by
    rw [enabled_sinkReceive_iff]
    by_contra h
    obtain ⟨hch, hcap⟩ := not_or.1 h
    exact hno ⟨m, hm, not_not.1 hch, fun h0 => hcap ⟨h0, hp m⟩⟩
  obtain ⟨m, hm, hmove⟩ := hfair .sinkReceive (by simp) n hen
  have hstep := run.soundPath hc m
  rw [hmove] at hstep
  have hlt := hstep.length_lt_of_sinkReceive (hp (m + 1))
  have hm' := hn m hm
  have hm1 := hn (m + 1) (by omega)
  omega

/-- No sample stays pending: the sink drains the channel, and then the hand-off, enabled for good, is taken (R226, R237). -/
theorem InfiniteRun.WeaklyFair.exists_pending_none (hfair : run.WeaklyFair) : ∃ n, (run.states n).pending = none := by
  by_contra hno
  have hp : ∀ n, (run.states n).pending ≠ none := not_exists.1 hno
  obtain ⟨n, hn⟩ := run.length_stable hc hp
  obtain ⟨m, hm, hch, hcap⟩ := hfair.channel_drains hc hp hn
  have hen : ∀ k, m ≤ k → enabled .handOff (run.states k) = true := fun k hk => by
    have hlen : (run.states k).chan.length = 0 := by
      rw [← hn k (hm.trans hk), hn m hm, hch, List.length_nil]
    rw [enabled_handOff_iff, hlen, run.config_eq k, ← run.config_eq m]
    exact ⟨hp k, .inr (Nat.pos_of_ne_zero hcap)⟩
  obtain ⟨k, -, hmove⟩ := hfair .handOff (by simp) m hen
  have hstep := run.soundPath hc k
  rw [hmove] at hstep
  exact hp (k + 1) hstep.pending_none_of_handOff

/-- With no sample pending the tick is enabled until it is taken (R225, R237). -/
theorem InfiniteRun.WeaklyFair.exists_timerTick (hfair : run.WeaklyFair) (ht : (run.states 0).timerStopped = false) :
    ∃ n, run.moves n = .timerTick := by
  by_contra hno
  obtain ⟨n, hn⟩ := hfair.exists_pending_none hc
  have hp : ∀ m, n ≤ m → (run.states m).pending = none := fun m hm => by
    induction m, hm using Nat.le_induction with
    | base => exact hn
    | succ m _ ih => exact (run.soundPath hc m).pending_none (fun h => hno ⟨m, h⟩) ih
  obtain ⟨m, -, hmove⟩ := hfair .timerTick (by simp) n
    fun m hm => enabled_timerTick_iff.2 ⟨run.timerStopped_eq_false hc ht m, hp m hm⟩
  exact hno ⟨m, hmove⟩

end

/-- Settles O60: the run from any point on is fair again, so it has a tick. -/
theorem fairRunsKeepTicking : Obligations.FairRunsKeepTicking := by
  intro run hfair hc ht n
  obtain ⟨m, hm⟩ := (hfair.drop n).exists_timerTick (fun k => hc (n + k)) (run.timerStopped_eq_false hc ht n)
  exact ⟨n + m, Nat.le_add_right n m, hm⟩

end Sys2Proof.Machine
end
